-- ==== Sys2Proof/Word.lean ====
section
/-! DEFINITION. The words of the block: bytes, CSR words, coefficients, Keccak lanes, command words
(spec/00_scope.md R13, spec/10_state.md R31, spec/30_encoding.md R100, spec/45_hash.md R280). -/

namespace Sys2Proof

/-- One byte (R13). -/
abbrev Byte := BitVec 8

/-- One 32-bit word of a host access (R71, R72). -/
abbrev Word := BitVec 32

/-- One coefficient of a polynomial register: 12 bits (R31). -/
abbrev Coeff := BitVec 12

/-- One Keccak lane: 64 bits (R280). -/
abbrev Lane := BitVec 64

/-- One command `C = CMD2 : CMD1 : CMD0`: 96 bits (R100). -/
abbrev Command := BitVec 96

/-- A 16-bit field of a command: a byte address in M, or a byte count (R101, R103). -/
abbrev Half := BitVec 16

/-- The number of a polynomial register; all 16 are legal (R104). -/
abbrev Reg := Fin 16

end Sys2Proof
end

