-- ==== Sys2Proof/Syntax.lean ====
section
/-! DEFINITION. The commands: one constructor per row of spec/opcode_table.json (spec/30_encoding.md R102, R106). -/

namespace Sys2Proof

/-- The 20 commands with the fields their formats use (R102). The field names are those of R101 in lower case;
`d` is the raw 4-bit D field, whose legal values R105 gives. -/
inductive Instr where
  /-- R370 -/
  | nop
  /-- R146 -/
  | padd (rd rs1 rs2 : Reg)
  /-- R147 -/
  | psub (rd rs1 rs2 : Reg)
  /-- R148 -/
  | pbmul (rd rs1 rs2 : Reg)
  /-- R149 -/
  | pbmac (rd rs1 rs2 : Reg)
  /-- R150: `d` is the tag code. -/
  | pzero (rd : Reg) (d : BitVec 4)
  /-- R151 -/
  | pmov (rd rs1 : Reg)
  /-- R185 -/
  | ntt (rd rs1 : Reg)
  /-- R186 -/
  | intt (rd rs1 : Reg)
  /-- R213: `d` is eta, `imm8` the nonce, `addrA` the address of the 32-byte seed. -/
  | scbd (rd : Reg) (d : BitVec 4) (imm8 : Byte) (addrA : Half)
  /-- R223: `imm8` is the index byte x, `y` the index byte y, `addrA` the address of the 32-byte seed. -/
  | samu (rd : Reg) (imm8 y : Byte) (addrA : Half)
  /-- R242 -/
  | enc12 (rs1 : Reg) (addrA : Half)
  /-- R243: `d` is the tag code. -/
  | dec12 (rd : Reg) (d : BitVec 4) (addrA : Half)
  /-- R247: `d` is the compression width. -/
  | cenc (rs1 : Reg) (d : BitVec 4) (addrA : Half)
  /-- R248: `d` is the compression width. -/
  | cdec (rd : Reg) (d : BitVec 4) (addrA : Half)
  /-- R293: `d` is the function code; `len` bytes at `addrA` are hashed, the output goes to `addrB`. -/
  | hash (d : BitVec 4) (addrA addrB len outlen : Half)
  /-- R329 -/
  | keygen (addrA addrB addrC : Half)
  /-- R330 -/
  | encaps (addrA addrB addrC : Half)
  /-- R331 -/
  | decaps (addrA addrB addrC : Half)
  /-- R371 -/
  | zeroize
  deriving DecidableEq, Repr

end Sys2Proof
end

