-- ==== Sys2Proof/WellFormed.lean ====
section
/-! DEFINITION. The legal values of the D and OUTLEN fields (spec/30_encoding.md R105). A command that breaks one
of these still decodes; executing it raises BAD_PARAM. -/

namespace Sys2Proof

/-- R105, PZERO and DEC12: tag codes 0 and 1. -/
def tagCodeLegal (d : BitVec 4) : Bool := d.toNat ≤ 1

/-- R105, SCBD: eta is 2 or 3. -/
def etaLegal (d : BitVec 4) : Bool := d.toNat = 2 ∨ d.toNat = 3

/-- R105, CENC and CDEC: the width is 1 to 11. -/
def widthLegal (d : BitVec 4) : Bool := 1 ≤ d.toNat ∧ d.toNat ≤ 11

/-- R105, HASH: functions 0 to 3, and OUTLEN = 0 for functions 0 and 1. -/
def hashLegal (d : BitVec 4) (outlen : Half) : Bool :=
  d.toNat ≤ 3 ∧ (d.toNat ≤ 1 → outlen = 0)

/-- A command all of whose field values are legal by R105. -/
def Instr.wellFormed : Instr → Bool
  | .pzero _ d => tagCodeLegal d
  | .scbd _ d _ _ => etaLegal d
  | .dec12 _ d _ => tagCodeLegal d
  | .cenc _ d _ => widthLegal d
  | .cdec _ d _ => widthLegal d
  | .hash d _ _ _ outlen => hashLegal d outlen
  | .nop | .padd _ _ _ | .psub _ _ _ | .pbmul _ _ _ | .pbmac _ _ _ | .pmov _ _ | .ntt _ _ | .intt _ _
  | .samu _ _ _ _ | .enc12 _ _ | .keygen _ _ _ | .encaps _ _ _ | .decaps _ _ _ | .zeroize => true

end Sys2Proof
end

