-- ==== Sys2Proof/Decode.lean ====
section
/-! DEFINITION. Decoding a 96-bit command (spec/30_encoding.md R100-R103, R106-R108), total, and the encoder. -/

namespace Sys2Proof

/-- Why a command word is no command: checks 1 and 2 of R107. -/
inductive DecodeError where
  /-- R107 check 1, R108: OPC is not in the map of R106. -/
  | illegalOpcode
  /-- R107 check 2: a reserved bit of R102 is 1. -/
  | reservedField
  deriving DecidableEq, Repr

/-! ### The fields of R101 -/

def fieldOpc (C : Command) : Byte := C.extractLsb' 0 8
def fieldRd (C : Command) : Reg := (C.extractLsb' 8 4).toFin
def fieldRs1 (C : Command) : Reg := (C.extractLsb' 12 4).toFin
def fieldRs2 (C : Command) : Reg := (C.extractLsb' 16 4).toFin
def fieldD (C : Command) : BitVec 4 := C.extractLsb' 20 4
def fieldImm8 (C : Command) : Byte := C.extractLsb' 24 8
def fieldAddrA (C : Command) : Half := C.extractLsb' 32 16
def fieldAddrB (C : Command) : Half := C.extractLsb' 48 16
def fieldC16 (C : Command) : Half := C.extractLsb' 64 16
/-- `Y = C[71:64]`, SAMU's second index byte (R102). -/
def fieldY (C : Command) : Byte := C.extractLsb' 64 8
def fieldOutlen (C : Command) : Half := C.extractLsb' 80 16

/-! ### The reserved bits of each format (R102): the bits of opcode_table.json's mask outside OPC -/

def reservedN : Command := 0xFFFFFFFFFFFFFFFFFFFFFF00
def reservedR3 : Command := 0xFFFFFFFFFFFFFFFFFFF00000
def reservedR2 : Command := 0xFFFFFFFFFFFFFFFFFFFF0000
def reservedRZ : Command := 0xFFFFFFFFFFFFFFFFFF0FF000
def reservedSCbd : Command := 0xFFFFFFFFFFFF0000000FF000
def reservedSUni : Command := 0xFFFFFF00FFFF000000FFF000
def reservedMSt : Command := 0xFFFFFFFFFFFF0000FFFF0F00
def reservedMStd : Command := 0xFFFFFFFFFFFF0000FF0F0F00
def reservedMLd : Command := 0xFFFFFFFFFFFF0000FF0FF000
def reservedH : Command := 0x0000000000000000FF0FFF00
def reservedK : Command := 0xFFFF000000000000FFFFFF00

/-- One row of the opcode map of R106: the opcode, the reserved bits of its format (R102), and how the fields of
the format are read. -/
structure OpcodeRow where
  opc : Byte
  reserved : Command
  read : Command → Instr

/-- The opcode map (R106). -/
def opcodeMap : List OpcodeRow := [
  ⟨0x00, reservedN, fun _ => .nop⟩,
  ⟨0x01, reservedR3, fun C => .padd (fieldRd C) (fieldRs1 C) (fieldRs2 C)⟩,
  ⟨0x02, reservedR3, fun C => .psub (fieldRd C) (fieldRs1 C) (fieldRs2 C)⟩,
  ⟨0x03, reservedR3, fun C => .pbmul (fieldRd C) (fieldRs1 C) (fieldRs2 C)⟩,
  ⟨0x04, reservedR3, fun C => .pbmac (fieldRd C) (fieldRs1 C) (fieldRs2 C)⟩,
  ⟨0x05, reservedRZ, fun C => .pzero (fieldRd C) (fieldD C)⟩,
  ⟨0x06, reservedR2, fun C => .pmov (fieldRd C) (fieldRs1 C)⟩,
  ⟨0x08, reservedR2, fun C => .ntt (fieldRd C) (fieldRs1 C)⟩,
  ⟨0x09, reservedR2, fun C => .intt (fieldRd C) (fieldRs1 C)⟩,
  ⟨0x10, reservedSCbd, fun C => .scbd (fieldRd C) (fieldD C) (fieldImm8 C) (fieldAddrA C)⟩,
  ⟨0x11, reservedSUni, fun C => .samu (fieldRd C) (fieldImm8 C) (fieldY C) (fieldAddrA C)⟩,
  ⟨0x18, reservedMSt, fun C => .enc12 (fieldRs1 C) (fieldAddrA C)⟩,
  ⟨0x19, reservedMLd, fun C => .dec12 (fieldRd C) (fieldD C) (fieldAddrA C)⟩,
  ⟨0x1A, reservedMStd, fun C => .cenc (fieldRs1 C) (fieldD C) (fieldAddrA C)⟩,
  ⟨0x1B, reservedMLd, fun C => .cdec (fieldRd C) (fieldD C) (fieldAddrA C)⟩,
  ⟨0x20, reservedH, fun C => .hash (fieldD C) (fieldAddrA C) (fieldAddrB C) (fieldC16 C) (fieldOutlen C)⟩,
  ⟨0x28, reservedK, fun C => .keygen (fieldAddrA C) (fieldAddrB C) (fieldC16 C)⟩,
  ⟨0x29, reservedK, fun C => .encaps (fieldAddrA C) (fieldAddrB C) (fieldC16 C)⟩,
  ⟨0x2A, reservedK, fun C => .decaps (fieldAddrA C) (fieldAddrB C) (fieldC16 C)⟩,
  ⟨0x30, reservedN, fun _ => .zeroize⟩]

/-- Decode a command: the opcode, then the reserved bits (R107 checks 1 and 2, in this order). Check 3, the D and
OUTLEN values, is the first check of each command's meaning (log 14). -/
def decode (C : Command) : Except DecodeError Instr :=
  match opcodeMap.find? (fun row => row.opc = fieldOpc C) with
  | none => .error .illegalOpcode
  | some row => if C &&& row.reserved = 0 then .ok (row.read C) else .error .reservedField

/-! ### The encoder -/

/-- A command word from its fields, those of R101 from bit 95 down to bit 0. -/
def commandWord (outlen c16 addrB addrA : Half) (imm8 : Byte) (d : BitVec 4) (rs2 rs1 rd : Reg) (opc : Byte) :
    Command :=
  outlen ++ c16 ++ addrB ++ addrA ++ imm8 ++ d ++ BitVec.ofFin (w := 4) rs2 ++ BitVec.ofFin (w := 4) rs1 ++
    BitVec.ofFin (w := 4) rd ++ opc

/-- Encode a command; fields its format does not use are 0 (R102, R110). -/
def encode : Instr → Command
  | .nop => commandWord 0 0 0 0 0 0 0 0 0 0x00
  | .padd rd rs1 rs2 => commandWord 0 0 0 0 0 0 rs2 rs1 rd 0x01
  | .psub rd rs1 rs2 => commandWord 0 0 0 0 0 0 rs2 rs1 rd 0x02
  | .pbmul rd rs1 rs2 => commandWord 0 0 0 0 0 0 rs2 rs1 rd 0x03
  | .pbmac rd rs1 rs2 => commandWord 0 0 0 0 0 0 rs2 rs1 rd 0x04
  | .pzero rd d => commandWord 0 0 0 0 0 d 0 0 rd 0x05
  | .pmov rd rs1 => commandWord 0 0 0 0 0 0 0 rs1 rd 0x06
  | .ntt rd rs1 => commandWord 0 0 0 0 0 0 0 rs1 rd 0x08
  | .intt rd rs1 => commandWord 0 0 0 0 0 0 0 rs1 rd 0x09
  | .scbd rd d imm8 a => commandWord 0 0 0 a imm8 d 0 0 rd 0x10
  | .samu rd imm8 y a => commandWord 0 (y.setWidth 16) 0 a imm8 0 0 0 rd 0x11
  | .enc12 rs1 a => commandWord 0 0 0 a 0 0 0 rs1 0 0x18
  | .dec12 rd d a => commandWord 0 0 0 a 0 d 0 0 rd 0x19
  | .cenc rs1 d a => commandWord 0 0 0 a 0 d 0 rs1 0 0x1A
  | .cdec rd d a => commandWord 0 0 0 a 0 d 0 0 rd 0x1B
  | .hash d a b len outlen => commandWord outlen len b a 0 d 0 0 0 0x20
  | .keygen a b c => commandWord 0 c b a 0 0 0 0 0 0x28
  | .encaps a b c => commandWord 0 c b a 0 0 0 0 0 0x29
  | .decaps a b c => commandWord 0 c b a 0 0 0 0 0 0x2A
  | .zeroize => commandWord 0 0 0 0 0 0 0 0 0 0x30

/-- What the decoder reads from a command whose bits are `w`, bit 0 the least significant bit of CMD0; bits from
`nbits` up are 0 (R100). -/
def decodeTableWord (nbits w : Nat) : Option Instr :=
  match decode (BitVec.ofNat 96 (w % 2 ^ nbits)) with
  | .ok i => some i
  | .error _ => none

end Sys2Proof
end

