-- ==== Sys2Proof/Config.lean ====
section
/-! DEFINITION. The fixed parameters of the ring and of the block, and the free values. -/

namespace Sys2Proof.Config

/-- The polynomial degree (R7). -/
def n : Nat := 256

/-- The modulus (R7). -/
def q : Nat := 3329

/-- The number of polynomial registers (R11). -/
def npr : Nat := 16

/-- The spec revision that PARAMS shows (R41). -/
def rev : Nat := 1

/-- The spec's default of the parameter MEM_BYTES (R10). -/
def defaultMemBytes : Nat := 8192

/-- How many SHAKE128 blocks of 168 bytes one try of the uniform sampler adds: 37 blocks are 6216 bytes, at least
the 6144 of R224. DESIGN CHOICE, safe (log 4). -/
def streamBlocksPerTry : Nat := 37

/-- Free value: what CUR holds after a completion (R35 leaves it unspecified; log 2). -/
opaque freeCur : Nat → Command

/-- Free value: the read data of a host access cut short by reset (R453 leaves it unspecified; log 3). -/
opaque freeReadData : Nat → Word

end Sys2Proof.Config
end

