-- ==== Sys2Proof/Machine/Bits.lean ====
section
/-! DEFINITION. Bit strings and byte strings: bit `t` of a byte string is bit `t mod 8` of byte `t / 8`, the least
significant bit first (spec/20_memory.md R75, spec/44_codec.md R240), and lanes are read least significant byte first
(spec/45_hash.md R280). -/

namespace Sys2Proof.Machine

/-- The first `count` pieces of length `m` of a list. -/
def chunks {α : Type} (m : Nat) : Nat → List α → List (List α)
  | 0, _ => []
  | count + 1, l => l.take m :: chunks m count (l.drop m)

/-- The values of a list of options, when none is missing. -/
def allSome {α : Type} : List (Option α) → Option (List α)
  | [] => some []
  | none :: _ => none
  | some x :: rest =>
    match allSome rest with
    | some xs => some (x :: xs)
    | none => none

/-- The number whose bits are listed, least significant first. -/
def bitsToNat : List Bool → Nat
  | [] => 0
  | b :: bs => b.toNat + 2 * bitsToNat bs

/-- The `d` lowest bits of `v`, least significant first. -/
def natToBits (d v : Nat) : List Bool := (List.range d).map v.testBit

/-- The bit string of a byte string (R75). -/
def bytesToBits (B : List Byte) : List Bool := B.flatMap fun b => natToBits 8 b.toNat

/-- The first `count` bytes of a bit string (R75). -/
def bitsToBytes (count : Nat) (bits : List Bool) : List Byte :=
  (chunks 8 count bits).map fun c => BitVec.ofNat 8 (bitsToNat c)

/-- `bit(B, t)` of R210 and R240: bit `t` of a byte string. -/
def bit (B : List Byte) (t : Nat) : Bool := (B.getD (t / 8) 0).getLsbD (t % 8)

/-- The number whose bytes are listed, least significant first. -/
def bytesToNat : List Byte → Nat
  | [] => 0
  | b :: bs => b.toNat + 256 * bytesToNat bs

/-- The 8 bytes of a lane, least significant first (R280). -/
def laneToBytes (w : Lane) : List Byte := (List.range 8).map fun j => w.extractLsb' (8 * j) 8

end Sys2Proof.Machine
end

