-- ==== Sys2Proof/Machine/State.lean ====
section
/-! DEFINITION. The state of the block (spec/10_state.md R30-R48), as plain data, and its reset value (R48). -/

namespace Sys2Proof.Machine

/-- A fault would stop the machine. The block has none: every error completes the command with a code (R400, R402),
no host access raises an error (R42, R72), and a sampler stream that never ends is a core that stays BUSY (R224,
log 4). So no constructor. -/
inductive Fault where
  deriving DecidableEq, Repr

/-- A refusal would say that an instruction has no meaning in the model. -/
inductive Refusal where
  /-- Raised only by a refused arm of `exec`; safe. No arm raises it: every command has its meaning. -/
  | notModelled (mnemonic : String)
  deriving DecidableEq, Repr

/-- The tag of a polynomial register (R16, R31). -/
inductive Tag where
  /-- No command has written the register since reset or ZEROIZE. -/
  | empty
  /-- Coefficient domain. -/
  | normal
  /-- NTT domain. -/
  | ntt
  deriving DecidableEq, Repr

/-- A polynomial value: exactly 256 coefficients of 12 bits (R31). -/
structure Poly where
  coeffs : List Coeff
  size : coeffs.length = 256
  deriving DecidableEq, Repr

/-- The zero polynomial. -/
def Poly.zero : Poly := ⟨List.replicate 256 0, List.length_replicate⟩

/-- A polynomial register: a tag and a polynomial (R16, R31). -/
structure PolyReg where
  tag : Tag
  f : Poly
  deriving DecidableEq, Repr

/-- `(EMPTY, zeros)`, a register after reset or ZEROIZE (R48, R371). -/
def PolyReg.reset : PolyReg := ⟨.empty, .zero⟩

/-- The buffer memory M (R34): the bytes that are not 0, addresses rising; every other address of M reads 0, which
is M's reset content (R48). -/
abbrev Memory := List Host.Cell

/-- CFG.LEVEL, a closed variant (R37). -/
inductive Level where
  /-- LEVEL = 0 -/
  | level1
  /-- LEVEL = 1 -/
  | level3
  /-- LEVEL = 2 -/
  | level5
  deriving DecidableEq, Repr

/-- The codes of STATUS.ERRCODE; codes 7 to 255 are never produced (R401). -/
inductive ErrCode where
  | ok
  | illegalOpcode
  | reservedField
  | badParam
  | addrRange
  | uninit
  | domain
  deriving DecidableEq, Repr

/-- STATUS without BUSY, which is the run state (R38, R43). The reserved bits read as zero. -/
structure Status where
  done : Bool
  err : Bool
  ncan : Bool
  errcode : ErrCode
  deriving DecidableEq, Repr

/-- The run state (R43); STATUS.BUSY = 1 exactly when it is `busy`. -/
inductive RunState where
  | idle
  | busy
  deriving DecidableEq, Repr

/-- The hidden scratch of the KEM commands (R45, R332), with room for the largest level (log 9). -/
structure Scratch where
  a : Vector Poly 16
  s : Vector Poly 4
  e : Vector Poly 4
  r : Vector Poly 4
  e1 : Vector Poly 4
  t : Vector Poly 4
  u : Vector Poly 4
  e2 : Poly
  v : Poly
  w : Poly
  m : Vector Byte 32
  kbar : Vector Byte 32
  coins : Vector Byte 32
  ct : Vector Byte 1568
  deriving DecidableEq, Repr

/-- The scratch all zero: its value at reset and between commands (R45, R48). -/
def Scratch.zero : Scratch where
  a := Vector.replicate 16 Poly.zero
  s := Vector.replicate 4 Poly.zero
  e := Vector.replicate 4 Poly.zero
  r := Vector.replicate 4 Poly.zero
  e1 := Vector.replicate 4 Poly.zero
  t := Vector.replicate 4 Poly.zero
  u := Vector.replicate 4 Poly.zero
  e2 := Poly.zero
  v := Poly.zero
  w := Poly.zero
  m := Vector.replicate 32 0
  kbar := Vector.replicate 32 0
  coins := Vector.replicate 32 0
  ct := Vector.replicate 1568 0

/-- One access of the host (R51, R71, R72). -/
inductive HostAction where
  /-- Read the CSR at a byte offset. -/
  | csrRead (addr : Byte)
  /-- Write the CSR at a byte offset. -/
  | csrWrite (addr : Byte) (wdata : Word)
  /-- Read the buffer word of an index. -/
  | bufRead (index : BitVec 14)
  /-- Write the buffer word of an index under byte enables. -/
  | bufWrite (index : BitVec 14) (be : BitVec 4) (wdata : Word)
  deriving DecidableEq, Repr

/-- Who takes a step: the host, the core, or reset (R6, R82, R450). -/
inductive Agent where
  | host
  | core
  | reset
  deriving DecidableEq, Repr

/-- The state: the parts of R30 first, then what the host's two ports hold, then the model's own fields. The
constant tables of R46 are constants (Machine/Tables.lean, log 10); ID, PARAMS and irq are computed (R40, R41, R44). -/
structure State where
  /-- P[0..15] (R31). -/
  polys : Vector PolyReg 16
  /-- M (R34). -/
  mem : Memory
  /-- The parameter MEM_BYTES (R10), changed by no step (log 1). -/
  memBytes : Nat
  /-- CMD0 (R35). -/
  cmd0 : Word
  /-- CMD1 (R35). -/
  cmd1 : Word
  /-- CMD2 (R35). -/
  cmd2 : Word
  /-- The latched command CUR (R35). -/
  cur : Command
  /-- CFG.LEVEL (R37). -/
  level : Level
  /-- STATUS without BUSY (R38). -/
  status : Status
  /-- IRQEN.DONE_IE (R39). -/
  doneIe : Bool
  /-- IDLE or BUSY (R43). -/
  run : RunState
  /-- The hidden scratch (R45). -/
  scratch : Scratch
  /-- csr_rdata: the data of the last CSR read (R51, log 8). -/
  csrRdata : Word
  /-- buf_rdata: the data of the last buffer read (R51, log 8). -/
  bufRdata : Word
  /-- The access whose ready is held low (R460), if any. -/
  held : Option HostAction
  /-- The host's accesses still to come, in its program order (R82, log 5). -/
  hostQueue : List HostAction
  /-- Who takes the coming steps (R467, log 5); with nothing listed, log 6's rule. -/
  sched : List Agent
  /-- How often the running command has asked for more uniform-sampler stream (R224, log 4). -/
  streamTries : Nat
  /-- How many free values have been drawn (log 2, log 3). -/
  freeCount : Nat
  deriving DecidableEq, Repr

/-- The block right after reset, with the default MEM_BYTES (R48, R451). -/
def State.reset : State where
  polys := Vector.replicate 16 PolyReg.reset
  mem := []
  memBytes := Config.defaultMemBytes
  cmd0 := 0
  cmd1 := 0
  cmd2 := 0
  cur := 0
  level := .level1
  status := ⟨false, false, false, .ok⟩
  doneIe := false
  run := .idle
  scratch := Scratch.zero
  csrRdata := 0
  bufRdata := 0
  held := none
  hostQueue := []
  sched := []
  streamTries := 0
  freeCount := 0

end Sys2Proof.Machine
end

