-- ==== Sys2Proof/Machine/Operands.lean ====
section
/-! DEFINITION. What the operand fields name: polynomial registers and their values, tag codes, and the level's
parameters and sizes (spec/00_scope.md R8, R9, R16, R17; spec/30_encoding.md R104, R105). -/

namespace Sys2Proof.Machine

/-! ### Polynomial values -/

/-- `f[i]`. -/
def Poly.get (p : Poly) (i : Nat) : Coeff := p.coeffs.getD i 0

/-- The polynomial of a list of 256 coefficients. (A shorter list would be filled with zeros and a longer one cut;
every list the model gives has 256: Laws/Units.lean.) -/
def Poly.ofList (l : List Coeff) : Poly :=
  ⟨(l ++ List.replicate 256 0).take 256, by
    rw [List.length_take, List.length_append, List.length_replicate]; omega⟩

/-- A coefficient of the value of a number, which every unit gives below 3329 (R14, R31). -/
def coeff (x : Nat) : Coeff := BitVec.ofNat 12 x

/-- The polynomial of 256 numbers. -/
def Poly.ofNats (l : List Nat) : Poly := Poly.ofList (l.map coeff)

/-- The 256 coefficients as numbers. -/
def Poly.toNats (p : Poly) : List Nat := p.coeffs.map (·.toNat)

/-- Apply a two-operand unit to all 256 lanes (R145). -/
def Poly.map2 (f : Coeff → Coeff → Coeff) (a b : Poly) : Poly :=
  ⟨List.zipWith f a.coeffs b.coeffs, by rw [List.length_zipWith, a.size, b.size, Nat.min_self]⟩

/-! ### The polynomial register file (R31, R104) -/

/-- `P[r]` (R17). -/
def State.poly (s : State) (r : Reg) : PolyReg := s.polys[r]

/-- `P[r] <- (tag, f)` (R17). -/
def State.setPoly (s : State) (r : Reg) (tag : Tag) (f : Poly) : State :=
  { s with polys := s.polys.set r ⟨tag, f⟩ }

/-- The tag of a tag code: 0 = NORMAL, 1 = NTT (R105). -/
def tagOfCode (d : BitVec 4) : Tag := if d = 0 then .normal else .ntt

/-! ### The level (R8, R9) -/

/-- The LEVEL code of a level (R37). -/
def Level.code : Level → Nat
  | .level1 => 0
  | .level3 => 1
  | .level5 => 2

/-- k (R8). -/
def Level.k : Level → Nat
  | .level1 => 2
  | .level3 => 3
  | .level5 => 4

/-- eta1 (R8). -/
def Level.eta1 : Level → Nat
  | .level1 => 3
  | .level3 => 2
  | .level5 => 2

/-- eta2 (R8). -/
def Level.eta2 : Level → Nat
  | .level1 => 2
  | .level3 => 2
  | .level5 => 2

/-- du (R8). -/
def Level.du : Level → Nat
  | .level1 => 10
  | .level3 => 10
  | .level5 => 11

/-- dv (R8). -/
def Level.dv : Level → Nat
  | .level1 => 4
  | .level3 => 4
  | .level5 => 5

/-- PK_BYTES (R9). -/
def Level.pkBytes (lv : Level) : Nat := 384 * lv.k + 32

/-- SK_BYTES (R9). -/
def Level.skBytes (lv : Level) : Nat := 768 * lv.k + 96

/-- CT_BYTES (R9). -/
def Level.ctBytes (lv : Level) : Nat := 32 * (lv.k * lv.du + lv.dv)

end Sys2Proof.Machine
end

