-- ==== Sys2Proof/Machine/Flags.lean ====
section
/-! DEFINITION. STATUS and the interrupt: the error codes, the STATUS word, its write-1-to-clear bits, and irq
(spec/10_state.md R38, R44; spec/60_exceptions.md R401, R408). -/

namespace Sys2Proof.Machine

/-- The value of STATUS.ERRCODE (R401). -/
def ErrCode.code : ErrCode → Byte
  | .ok => 0x00
  | .illegalOpcode => 0x01
  | .reservedField => 0x02
  | .badParam => 0x03
  | .addrRange => 0x04
  | .uninit => 0x05
  | .domain => 0x06

/-- STATUS.BUSY (R38, R43). -/
def State.isBusy (s : State) : Bool :=
  match s.run with
  | .idle => false
  | .busy => true

/-- The STATUS word as the host reads it, from bit 31 down: reserved, ERRCODE, reserved, NCAN, ERR, DONE, BUSY (R38). -/
def State.statusWord (s : State) : Word :=
  (0 : BitVec 16) ++ s.status.errcode.code ++ (0 : BitVec 4) ++ BitVec.ofBool s.status.ncan ++
    BitVec.ofBool s.status.err ++ BitVec.ofBool s.status.done ++ BitVec.ofBool s.isBusy

/-- The output irq (R44, R408). -/
def State.irq (s : State) : Bool := s.status.done && s.doneIe

/-- A write to STATUS: writing 1 clears DONE (bit 1) and NCAN (bit 3); every other bit is ignored (R38). -/
def Status.write (st : Status) (wdata : Word) : Status :=
  { st with done := st.done && !wdata.getLsbD 1, ncan := st.ncan && !wdata.getLsbD 3 }

/-- STATUS (but BUSY) at issue: DONE, ERR and ERRCODE are cleared, NCAN is not changed (R410). -/
def Status.issued (st : Status) : Status := { st with done := false, err := false, errcode := .ok }

/-- STATUS (but BUSY) at a completion with code `c`: DONE is set, ERR and ERRCODE show `c`, NCAN is not changed (R404). -/
def Status.completed (st : Status) (c : ErrCode) : Status :=
  { st with done := true, err := decide (c ≠ .ok), errcode := c }

/-- NCAN is set when a 12-bit decode met a value of q or more, and otherwise kept (R243, R407). -/
def Status.noteNcan (st : Status) (nonCanonical : Bool) : Status := { st with ncan := st.ncan || nonCanonical }

end Sys2Proof.Machine
end

