-- ==== Sys2Proof/Machine/Ops.lean ====
section
/-! DEFINITION. The shared operations: the buffer memory (spec/20_memory.md R72-R74), the checks
(spec/41_modular_arith.md R145, spec/60_exceptions.md R401-R403), completion and taking an error (R402, R404). -/

namespace Sys2Proof.Machine

/-! ### The buffer memory -/

/-- `M[a]`: an address with no cell reads 0 (R48). -/
def Memory.read : Memory → Nat → Byte
  | [], _ => 0
  | (b, v) :: m, a => if a = b then v else Memory.read m a

/-- `M[a] <- v`, keeping the cells in rising order and none of them 0. -/
def Memory.set : Memory → Nat → Byte → Memory
  | [], a, v => if v = 0 then [] else [(a, v)]
  | (b, w) :: m, a, v =>
    if a < b then (if v = 0 then (b, w) :: m else (a, v) :: (b, w) :: m)
    else if a = b then (if v = 0 then m else (a, v) :: m)
    else (b, w) :: Memory.set m a v

/-- The canonical form: addresses strictly rising, no cell 0. -/
def Memory.wf : Memory → Bool
  | [] => true
  | [(_, v)] => v ≠ 0
  | (a, v) :: (b, w) :: m => a < b && v ≠ 0 && Memory.wf ((b, w) :: m)

/-- `MemRead(a, n)` (R74). -/
def Memory.readBytes (m : Memory) (a n : Nat) : List Byte := (List.range n).map fun i => Memory.read m (a + i)

/-- `MemWrite(a, n, v)` for the n bytes of `v` (R74). -/
def Memory.writeBytes : Memory → Nat → List Byte → Memory
  | m, _, [] => m
  | m, a, v :: vs => Memory.writeBytes (Memory.set m a v) (a + 1) vs

/-- `MemRead(a, n)` of the state's M (R74). -/
def State.memRead (s : State) (a n : Nat) : List Byte := Memory.readBytes s.mem a n

/-- `MemWrite(a, n, v)` on the state's M (R74). -/
def State.memWrite (s : State) (a : Nat) (v : List Byte) : State := { s with mem := Memory.writeBytes s.mem a v }

/-! ### Checks: the error a check raises, if it fails -/

/-- R74: a byte range must not pass MEM_BYTES, with no wrap. -/
def checkRange (s : State) (a n : Nat) : Option ErrCode := if a + n ≤ s.memBytes then none else some .addrRange

/-- `check_src` (R145). -/
def checkSrc (s : State) (r : Reg) : Option ErrCode := if (s.poly r).tag = .empty then some .uninit else none

/-- `check_tag` (R145). -/
def checkTag (s : State) (r : Reg) (t : Tag) : Option ErrCode := if (s.poly r).tag = t then none else some .domain

/-- The two sources of PADD and PSUB must have one tag (R146, R147). -/
def checkSameTag (s : State) (r1 r2 : Reg) : Option ErrCode :=
  if (s.poly r1).tag = (s.poly r2).tag then none else some .domain

/-- A field value must be legal (R105). -/
def checkParam (legal : Bool) : Option ErrCode := if legal then none else some .badParam

/-- The first check that fails (R403). -/
def firstError : List (Option ErrCode) → Option ErrCode
  | [] => none
  | none :: rest => firstError rest
  | some e :: _ => some e

/-! ### Completion (R404) and errors (R402) -/

/-- The completion step with code `c`: BUSY is cleared, STATUS shows the outcome (R404). CUR is unspecified from here
on (R35): a free value (log 2). -/
def complete (c : ErrCode) (s : State) : State :=
  { s with
    status := s.status.completed c
    run := .idle
    cur := Config.freeCur s.freeCount
    freeCount := s.freeCount + 1
    streamTries := 0 }

/-- Taking an error, the block's only exception: the completion step with the error's code and nothing else
(R400, R402). -/
def raiseError (e : ErrCode) (s : State) : Host.Outcome State Fault Refusal := .next (complete e s)

/-- The core is still filling a polynomial from the uniform sampler's stream: nothing completes, and the next core
step reads further (R224, log 4). -/
def keepSampling (s : State) : State := { s with streamTries := s.streamTries + 1 }

/-- One command: its checks in order, then its effect or the first error (R402, R403, R465). -/
def command (s : State) (checks : List (Option ErrCode)) (effect : State) : Host.Outcome State Fault Refusal :=
  match firstError checks with
  | some e => raiseError e s
  | none => .next (complete .ok effect)

/-- The end of a core step of a command that needs the uniform sampler: it completes with its effect, or `none` says
that the stream read so far has not yet given 256 coefficients (R224). -/
def completeOrSample (s : State) : Option State → State
  | some s' => complete .ok s'
  | none => keepSampling s

/-- One command whose effect needs the uniform sampler: its checks in order, then `completeOrSample`. -/
def samplingCommand (s : State) (checks : List (Option ErrCode)) (effect : Option State) :
    Host.Outcome State Fault Refusal :=
  match firstError checks with
  | some e => raiseError e s
  | none => .next (completeOrSample s effect)

/-- How many 168-byte blocks of each SHAKE128 stream the running command reads in this core step (log 4). -/
def State.streamBlocks (s : State) : Nat := Config.streamBlocksPerTry * (s.streamTries + 1)

/-- The code of a word that is no command (R107). -/
def decodeErrorCode : DecodeError → ErrCode
  | .illegalOpcode => .illegalOpcode
  | .reservedField => .reservedField

end Sys2Proof.Machine
end

