-- ==== Sys2Proof/Machine/Control.lean ====
section
/-! DEFINITION. The commands NOP and ZEROIZE (spec/47_control.md). -/

namespace Sys2Proof.Machine

/-- NOP: no effect but completion (R370). -/
def execNop (s : State) : Host.Outcome State Fault Refusal := command s [] s

/-- What ZEROIZE and reset do to the data-holding state: M, P and the scratch are wiped (R371, R451). -/
def State.wipeData (s : State) : State :=
  { s with mem := [], polys := Vector.replicate 16 PolyReg.reset, scratch := Scratch.zero }

/-- ZEROIZE (R371). -/
def execZeroize (s : State) : Host.Outcome State Fault Refusal := command s [] s.wipeData

end Sys2Proof.Machine
end

