-- ==== Sys2Proof/Machine/Codec.lean ====
section
/-! DEFINITION. Bit packing, compression, and the commands ENC12, DEC12, CENC and CDEC (spec/44_codec.md). -/

namespace Sys2Proof.Machine

/-- `byte_encode(f, d)` (R240). -/
def byteEncode (f : List Nat) (d : Nat) : List Byte := bitsToBytes (32 * d) (f.flatMap (natToBits d))

/-- `byte_decode(E, d)` (R241). -/
def byteDecode (E : List Byte) (d : Nat) : List Nat := (chunks d 256 (bytesToBits E)).map bitsToNat

/-- `compress(x, d)` (R244). -/
def compress (x d : Nat) : Nat := (x * 2 ^ (d + 1) + Config.q) / (2 * Config.q) % 2 ^ d

/-- `decompress(y, d)` (R245). -/
def decompress (y d : Nat) : Nat := (2 * y * Config.q + 2 ^ d) / 2 ^ (d + 1)

/-- `cenc(f, d)`: compress and pack (R322, R247). -/
def cenc (f : Poly) (d : Nat) : List Byte := byteEncode (f.toNats.map fun x => compress x d) d

/-- `cdec(B, d)`: unpack and decompress (R323, R248). -/
def cdec (B : List Byte) (d : Nat) : Poly := Poly.ofNats ((byteDecode B d).map fun y => decompress y d)

/-- The 12-bit packing of a polynomial (R242). -/
def enc12 (f : Poly) : List Byte := byteEncode f.toNats 12

/-- The polynomial of a 12-bit packing, each group reduced mod q (R243, `dec12_reduce` of R322). -/
def dec12 (B : List Byte) : Poly := Poly.ofNats ((byteDecode B 12).map (· % Config.q))

/-- Some 12-bit group is q or more (R243). -/
def nonCanonical12 (B : List Byte) : Bool := (byteDecode B 12).any (Config.q ≤ ·)

/-- `msg_decode(m)` (R249). -/
def msgDecode (m : List Byte) : Poly := cdec m 1

/-- `msg_encode(w)` (R249). -/
def msgEncode (w : Poly) : List Byte := cenc w 1

/-- ENC12 (R242). -/
def execEnc12 (rs1 : Reg) (addrA : Half) (s : State) : Host.Outcome State Fault Refusal :=
  command s [checkRange s addrA.toNat 384, checkSrc s rs1] (s.memWrite addrA.toNat (enc12 (s.poly rs1).f))

/-- DEC12 (R243). -/
def execDec12 (rd : Reg) (d : BitVec 4) (addrA : Half) (s : State) : Host.Outcome State Fault Refusal :=
  command s [checkParam (tagCodeLegal d), checkRange s addrA.toNat 384]
    { s.setPoly rd (tagOfCode d) (dec12 (s.memRead addrA.toNat 384)) with
      status := s.status.noteNcan (nonCanonical12 (s.memRead addrA.toNat 384)) }

/-- CENC (R247). -/
def execCenc (rs1 : Reg) (d : BitVec 4) (addrA : Half) (s : State) : Host.Outcome State Fault Refusal :=
  command s
    [checkParam (widthLegal d), checkRange s addrA.toNat (32 * d.toNat), checkSrc s rs1, checkTag s rs1 .normal]
    (s.memWrite addrA.toNat (cenc (s.poly rs1).f d.toNat))

/-- CDEC (R248). -/
def execCdec (rd : Reg) (d : BitVec 4) (addrA : Half) (s : State) : Host.Outcome State Fault Refusal :=
  command s [checkParam (widthLegal d), checkRange s addrA.toNat (32 * d.toNat)]
    (s.setPoly rd .normal (cdec (s.memRead addrA.toNat (32 * d.toNat)) d.toNat))

end Sys2Proof.Machine
end

