-- ==== Sys2Proof/Machine/Hash.lean ====
section
/-! DEFINITION. Keccak-f[1600], the sponge, the SHA-3 and SHAKE instances and their roles, and the command HASH
(spec/45_hash.md). -/

namespace Sys2Proof.Machine

/-! ### The permutation -/

/-- The 5×5 array of lanes A[x][y]: row y, entry x (R280). -/
abbrev KState := Vector (Vector Lane 5) 5

/-- Five values, one per index mod 5. -/
def five {α : Type} (f : Fin 5 → α) : Vector α 5 := #v[f 0, f 1, f 2, f 3, f 4]

/-- The array whose lane A[x][y] is `f x y`. -/
def lanes (f : Fin 5 → Fin 5 → Lane) : KState := five fun y => five fun x => f x y

/-- A[x][y] (R280). Arithmetic on `Fin 5` is mod 5. -/
def lane (A : KState) (x y : Fin 5) : Lane := A[y][x]

/-- θ (R281). -/
def theta (A : KState) : KState :=
  let C := five fun x => lane A x 0 ^^^ lane A x 1 ^^^ lane A x 2 ^^^ lane A x 3 ^^^ lane A x 4
  let D := five fun x => C[x - 1] ^^^ (C[x + 1]).rotateLeft 1
  lanes fun x y => lane A x y ^^^ D[x]

/-- ρ and π: `B[y][2x + 3y] := rot(A[x][y], r[x][y])` (R282, R283). So B[i][j] comes from `y = i` and the x with
`2x + 3i = j` mod 5, which is `x = i + 3j`. -/
def rhoPi (A : KState) : KState :=
  lanes fun i j => (lane A (i + 3 * j) i).rotateLeft (rotationOffsets[i][i + 3 * j])

/-- χ (R284). -/
def chi (B : KState) : KState := lanes fun x y => lane B x y ^^^ (~~~(lane B (x + 1) y) &&& lane B (x + 2) y)

/-- ι with the round constant `rc` (R285). -/
def iota (rc : Lane) (A : KState) : KState := A.set 0 (A[0].set 0 (lane A 0 0 ^^^ rc))

/-- One round (R286). -/
def keccakRound (A : KState) (rc : Lane) : KState := iota rc (chi (rhoPi (theta A)))

/-- `keccak_f(A)`: 24 rounds (R286). -/
def keccakF (A : KState) : KState := roundConstants.foldl keccakRound A

/-- The lanes of a 200-byte string: lane A[x][y] is bytes 8i .. 8i+7 with i = x + 5y (R280). -/
def lanesOfBytes (S : List Byte) : KState :=
  let ls := (chunks 8 25 S).map fun c => BitVec.ofNat 64 (bytesToNat c)
  lanes fun x y => ls.getD (x.val + 5 * y.val) 0

/-- The 200 bytes of the lanes (R280). -/
def bytesOfLanes (A : KState) : List Byte := A.toList.flatMap fun row => row.toList.flatMap laneToBytes

/-- `keccak_f` on the 200-byte string S (R287). -/
def keccakBytes (S : List Byte) : List Byte := bytesOfLanes (keccakF (lanesOfBytes S))

/-! ### The sponge -/

/-- `pad(Mg, r, sfx)` (R287). -/
def pad (Mg : List Byte) (r : Nat) (sfx : Byte) : List Byte :=
  let z := (r - (Mg.length + 1) % r) % r
  let pd := Mg ++ sfx :: List.replicate z 0
  pd.modify (pd.length - 1) (· ||| 0x80)

/-- XOR of a block into the first bytes of S (R287). -/
def xorBlock (S block : List Byte) : List Byte :=
  List.zipWith (· ^^^ ·) S (block ++ List.replicate (S.length - block.length) 0)

/-- `absorb(Mg, r, sfx)` (R287). -/
def absorb (Mg : List Byte) (r : Nat) (sfx : Byte) : List Byte :=
  let pd := pad Mg r sfx
  (chunks r (pd.length / r) pd).foldl (fun S block => keccakBytes (xorBlock S block)) (List.replicate 200 0)

/-- The first `count` blocks of `r` bytes of the output from the state S (R288). -/
def squeezeBlocks (r : Nat) : Nat → List Byte → List Byte
  | 0, _ => []
  | 1, S => S.take r
  | count + 2, S => S.take r ++ squeezeBlocks r (count + 1) (keccakBytes S)

/-- `squeeze(S, r, l)` (R288): the least number of blocks that gives `l` bytes, cut to `l`. -/
def squeeze (S : List Byte) (r l : Nat) : List Byte := (squeezeBlocks r ((l + r - 1) / r) S).take l

/-- `sponge(r, sfx, Mg, l)` (R288). -/
def sponge (r : Nat) (sfx : Byte) (Mg : List Byte) (l : Nat) : List Byte := squeeze (absorb Mg r sfx) r l

/-! ### The instances (R289) and their roles (R290-R292) -/

/-- SHA3-256 (R289). -/
def sha3_256 (Mg : List Byte) : List Byte := sponge 136 0x06 Mg 32

/-- SHA3-512 (R289). -/
def sha3_512 (Mg : List Byte) : List Byte := sponge 72 0x06 Mg 64

/-- SHAKE128 (R289). -/
def shake128 (Mg : List Byte) (l : Nat) : List Byte := sponge 168 0x1F Mg l

/-- SHAKE256 (R289). -/
def shake256 (Mg : List Byte) (l : Nat) : List Byte := sponge 136 0x1F Mg l

/-- The first `blocks` blocks of `xof(rho, x, y)`, the uniform sampler's stream (R290). -/
def xofBlocks (rho : List Byte) (x y : Byte) (blocks : Nat) : List Byte := shake128 (rho ++ [x, y]) (168 * blocks)

/-- `prf(s, N, eta)` (R291, R211). -/
def prf (seed : List Byte) (nonce : Byte) (eta : Nat) : List Byte := shake256 (seed ++ [nonce]) (64 * eta)

/-- H (R292). -/
def hashH (Mg : List Byte) : List Byte := sha3_256 Mg

/-- G: two 32-byte halves, the first half first (R292). -/
def hashG (Mg : List Byte) : List Byte × List Byte := ((sha3_512 Mg).take 32, (sha3_512 Mg).drop 32)

/-- KDF (R292). -/
def kdf (Mg : List Byte) : List Byte := shake256 Mg 32

/-! ### The command HASH (R293) -/

/-- The output length of HASH: 32 for SHA3-256, 64 for SHA3-512, OUTLEN for SHAKE (R293). -/
def hashOutLen (d : BitVec 4) (outlen : Half) : Nat :=
  if d = 0 then 32 else if d = 1 then 64 else outlen.toNat

/-- The output of HASH's function FN = `d` on `Mg` (R293). -/
def hashOutput (d : BitVec 4) (outn : Nat) (Mg : List Byte) : List Byte :=
  if d = 0 then sha3_256 Mg
  else if d = 1 then sha3_512 Mg
  else if d = 2 then shake128 Mg outn
  else shake256 Mg outn

/-- HASH (R293). -/
def execHash (d : BitVec 4) (addrA addrB len outlen : Half) (s : State) : Host.Outcome State Fault Refusal :=
  command s
    [checkParam (hashLegal d outlen), checkRange s addrA.toNat len.toNat, checkRange s addrB.toNat (hashOutLen d outlen)]
    (s.memWrite addrB.toNat (hashOutput d (hashOutLen d outlen) (s.memRead addrA.toNat len.toNat)))

end Sys2Proof.Machine
end

