-- ==== Sys2Proof/Machine/Sampling.lean ====
section
/-! DEFINITION. The centered binomial sampler, the uniform rejection sampler, and the commands SCBD and SAMU
(spec/43_sampling.md). -/

namespace Sys2Proof.Machine

/-! ### The centered binomial sampler -/

/-- One coefficient from its 2·eta bits: the first eta count positive, the next eta negative, mod q (R210). -/
def cbdCoeff (eta : Nat) (bits : List Bool) : Coeff :=
  coeff ((((bits.take eta).count true : Int) - ((bits.drop eta).count true : Int)) % (Config.q : Int)).toNat

/-- `cbd(B, eta)`: coefficient i uses the 2·eta bits from bit 2·i·eta on (R210). -/
def cbd (B : List Byte) (eta : Nat) : Poly :=
  Poly.ofList ((chunks (2 * eta) 256 (bytesToBits B)).map (cbdCoeff eta))

/-- `sample_cbd(s, N, eta)` (R212). -/
def sampleCbd (seed : List Byte) (nonce : Byte) (eta : Nat) : Poly := cbd (prf seed nonce eta) eta

/-! ### The uniform rejection sampler -/

/-- The candidates of a stream, two per three bytes, d1 before d2 (R220, R221). -/
def candidates : List Byte → List Nat
  | b0 :: b1 :: b2 :: rest =>
    (b0.toNat + 256 * (b1.toNat % 16)) :: (b1.toNat / 16 + 16 * b2.toNat) :: candidates rest
  | _ => []

/-- `parse(S)` on the part of the stream read so far: the first 256 candidates below q, in order; `none` when there
are not yet 256 (R221, R224). -/
def parse (S : List Byte) : Option Poly :=
  let out := (((candidates S).filter (· < Config.q)).map coeff).take 256
  if h : out.length = 256 then some ⟨out, h⟩ else none

/-- `sample_uniform(rho, x, y)` on the first `blocks` blocks of its stream (R222). -/
def sampleUniform (blocks : Nat) (rho : List Byte) (x y : Byte) : Option Poly := parse (xofBlocks rho x y blocks)

/-! ### The commands -/

/-- SCBD (R213). -/
def execScbd (rd : Reg) (d : BitVec 4) (imm8 : Byte) (addrA : Half) (s : State) : Host.Outcome State Fault Refusal :=
  command s [checkParam (etaLegal d), checkRange s addrA.toNat 32]
    (s.setPoly rd .normal (sampleCbd (s.memRead addrA.toNat 32) imm8 d.toNat))

/-- SAMU (R223). -/
def execSamu (rd : Reg) (imm8 y : Byte) (addrA : Half) (s : State) : Host.Outcome State Fault Refusal :=
  samplingCommand s [checkRange s addrA.toNat 32]
    ((sampleUniform s.streamBlocks (s.memRead addrA.toNat 32) imm8 y).map fun f => s.setPoly rd .ntt f)

end Sys2Proof.Machine
end

