-- ==== Sys2Proof/Machine/Arith.lean ====
section
/-! DEFINITION. The coefficient units, base multiplication, and the commands PADD, PSUB, PBMUL, PBMAC, PZERO and PMOV
(spec/41_modular_arith.md). -/

namespace Sys2Proof.Machine

/-! ### The units -/

/-- modular_adder (R140). -/
def modadd (a b : Coeff) : Coeff := coeff ((a.toNat + b.toNat) % Config.q)

/-- modular_subtracter: the least non-negative residue (R141). -/
def modsub (a b : Coeff) : Coeff := coeff (((a.toNat : Int) - (b.toNat : Int)) % (Config.q : Int)).toNat

/-- modular_multiplier (R142). -/
def modmul (a b : Coeff) : Coeff := coeff ((a.toNat * b.toNat) % Config.q)

/-- The two coefficients of one pair of `basemul`, with its GAMMA entry `g` (R143). -/
def basemulPair (g a0 a1 b0 b1 : Coeff) : List Coeff :=
  [coeff ((a0.toNat * b0.toNat + a1.toNat * b1.toNat * g.toNat) % Config.q),
   coeff ((a0.toNat * b1.toNat + a1.toNat * b0.toNat) % Config.q)]

/-- Base multiplication pair by pair, with the GAMMA entries of the pairs (R143). -/
def basemulPairs : List Coeff → List Coeff → List Coeff → List Coeff
  | g :: gs, a0 :: a1 :: as, b0 :: b1 :: bs => basemulPair g a0 a1 b0 b1 ++ basemulPairs gs as bs
  | _, _, _ => []

/-- `basemul(a, b)` (R143). -/
def basemul (a b : Poly) : Poly := Poly.ofList (basemulPairs gammaTable a.coeffs b.coeffs)

/-- The sum of two polynomials, lane by lane (R145). -/
def polyAdd (a b : Poly) : Poly := Poly.map2 modadd a b

/-- The difference of two polynomials, lane by lane (R145). -/
def polySub (a b : Poly) : Poly := Poly.map2 modsub a b

/-! ### The commands -/

/-- PADD (R146). -/
def execPadd (rd rs1 rs2 : Reg) (s : State) : Host.Outcome State Fault Refusal :=
  command s [checkSrc s rs1, checkSrc s rs2, checkSameTag s rs1 rs2]
    (s.setPoly rd (s.poly rs1).tag (polyAdd (s.poly rs1).f (s.poly rs2).f))

/-- PSUB (R147). -/
def execPsub (rd rs1 rs2 : Reg) (s : State) : Host.Outcome State Fault Refusal :=
  command s [checkSrc s rs1, checkSrc s rs2, checkSameTag s rs1 rs2]
    (s.setPoly rd (s.poly rs1).tag (polySub (s.poly rs1).f (s.poly rs2).f))

/-- PBMUL (R148). -/
def execPbmul (rd rs1 rs2 : Reg) (s : State) : Host.Outcome State Fault Refusal :=
  command s [checkSrc s rs1, checkSrc s rs2, checkTag s rs1 .ntt, checkTag s rs2 .ntt]
    (s.setPoly rd .ntt (basemul (s.poly rs1).f (s.poly rs2).f))

/-- PBMAC: rd is a third source (R149). -/
def execPbmac (rd rs1 rs2 : Reg) (s : State) : Host.Outcome State Fault Refusal :=
  command s [checkSrc s rs1, checkSrc s rs2, checkSrc s rd, checkTag s rs1 .ntt, checkTag s rs2 .ntt, checkTag s rd .ntt]
    (s.setPoly rd .ntt (polyAdd (s.poly rd).f (basemul (s.poly rs1).f (s.poly rs2).f)))

/-- PZERO (R150). -/
def execPzero (rd : Reg) (d : BitVec 4) (s : State) : Host.Outcome State Fault Refusal :=
  command s [checkParam (tagCodeLegal d)] (s.setPoly rd (tagOfCode d) Poly.zero)

/-- PMOV (R151). -/
def execPmov (rd rs1 : Reg) (s : State) : Host.Outcome State Fault Refusal :=
  command s [checkSrc s rs1] (s.setPoly rd (s.poly rs1).tag (s.poly rs1).f)

end Sys2Proof.Machine
end

