-- ==== Sys2Proof/Machine/Transform.lean ====
section
/-! DEFINITION. The butterflies, the number-theoretic transform and its inverse, and the commands NTT and INTT
(spec/42_ntt.md). -/

namespace Sys2Proof.Machine

/-- Cooley-Tukey butterfly (R180). -/
def ctBfly (a b z : Coeff) : Coeff × Coeff :=
  let t := modmul z b
  (modadd a t, modsub a t)

/-- Gentleman-Sande butterfly (R181). -/
def gsBfly (a b z : Coeff) : Coeff × Coeff := (modadd a b, modmul z (modsub b a))

/-- The inner loop of R183 and R184 over one block: the butterfly with factor `z` on each pair of entries `len` apart. -/
def butterflyBlock (bfly : Coeff → Coeff → Coeff → Coeff × Coeff) (len : Nat) (z : Coeff) (block : List Coeff) :
    List Coeff :=
  let pairs := List.zipWith (fun a b => bfly a b z) (block.take len) (block.drop len)
  pairs.map Prod.fst ++ pairs.map Prod.snd

/-- One layer of R183 or R184: the blocks of `2*len` entries in order, each with its own factor. -/
def butterflyLayer (bfly : Coeff → Coeff → Coeff → Coeff × Coeff) (len : Nat) (factors g : List Coeff) : List Coeff :=
  (List.zipWith (butterflyBlock bfly len) factors (chunks (2 * len) (128 / len) g)).flatten

/-- The 128/len factors of the layer `len`: ZETA[128/len] to ZETA[256/len - 1]. The forward transform reads them in
this order, k counting up, and the inverse in the opposite order, k counting down (R183, R184). -/
def layerFactors (len : Nat) : List Coeff := (zetaTable.drop (128 / len)).take (128 / len)

/-- One layer of the forward transform (R183). -/
def nttLayer (g : List Coeff) (len : Nat) : List Coeff := butterflyLayer ctBfly len (layerFactors len) g

/-- One layer of the inverse transform (R184). -/
def inttLayer (g : List Coeff) (len : Nat) : List Coeff := butterflyLayer gsBfly len (layerFactors len).reverse g

/-- `ntt(f)` (R183). -/
def ntt (f : Poly) : Poly := Poly.ofList ([128, 64, 32, 16, 8, 4, 2].foldl nttLayer f.coeffs)

/-- `intt(g)` (R184). -/
def intt (g : Poly) : Poly :=
  Poly.ofList (([2, 4, 8, 16, 32, 64, 128].foldl inttLayer g.coeffs).map fun x => modmul x ninv)

/-- NTT (R185). -/
def execNtt (rd rs1 : Reg) (s : State) : Host.Outcome State Fault Refusal :=
  command s [checkSrc s rs1, checkTag s rs1 .normal] (s.setPoly rd .ntt (ntt (s.poly rs1).f))

/-- INTT (R186). -/
def execIntt (rd rs1 : Reg) (s : State) : Host.Outcome State Fault Refusal :=
  command s [checkSrc s rs1, checkTag s rs1 .ntt] (s.setPoly rd .normal (intt (s.poly rs1).f))

end Sys2Proof.Machine
end

