-- ==== Sys2Proof/Machine/Kem.lean ====
section
/-! DEFINITION. The CPA primitive, the KEM transform, and the commands KEYGEN, ENCAPS and DECAPS (spec/46_kem.md).
`blocks` is how much of each uniform-sampler stream the core reads in this step (log 4); `none` says some stream has
not yet given 256 coefficients. -/

namespace Sys2Proof.Machine

/-! ### Pieces -/

/-- A small number as a nonce or index byte. -/
def byteOf (x : Nat) : Byte := BitVec.ofNat 8 x

/-- The bytes `B[a .. a+n-1]` (R13). -/
def slice (B : List Byte) (a n : Nat) : List Byte := (B.drop a).take n

/-- The rows of the matrix A, or of its transpose: the entry in row i, column j is sampled with x = j, y = i, or with
x = i, y = j for the transpose (R320). -/
def genA (lv : Level) (blocks : Nat) (rho : List Byte) (transposed : Bool) : Option (List (List Poly)) :=
  allSome ((List.range lv.k).map fun i => allSome ((List.range lv.k).map fun j =>
    if transposed then sampleUniform blocks rho (byteOf i) (byteOf j)
    else sampleUniform blocks rho (byteOf j) (byteOf i)))

/-- A vector of k noise polynomials with nonces from `first` on (R321, R322). -/
def noiseVector (lv : Level) (seed : List Byte) (first eta : Nat) : List Poly :=
  (List.range lv.k).map fun i => sampleCbd seed (byteOf (first + i)) eta

/-- `sum_j basemul(a[j], b[j])`, coefficient-wise mod q (R321-R323). -/
def dot (a b : List Poly) : Poly := (List.zipWith basemul a b).foldl polyAdd Poly.zero

/-- The k polynomials of a 12-bit packed vector, reduced mod q (R322, R323). -/
def decVector (lv : Level) (B : List Byte) : List Poly :=
  (List.range lv.k).map fun i => dec12 (slice B (384 * i) 384)

/-- Some 12-bit group of a packed vector of k polynomials is q or more (R330, R331). -/
def nonCanonicalVector (lv : Level) (B : List Byte) : Bool :=
  (List.range lv.k).any fun i => nonCanonical12 (slice B (384 * i) 384)

/-! ### The CPA primitive -/

/-- `cpa_keygen(d)`: pk_cpa and sk_cpa (R321). -/
def cpaKeygen (lv : Level) (blocks : Nat) (d : List Byte) : Option (List Byte × List Byte) :=
  let (rho, sigma) := hashG d
  match genA lv blocks rho false with
  | none => none
  | some A =>
    let s := (noiseVector lv sigma 0 lv.eta1).map ntt
    let e := (noiseVector lv sigma lv.k lv.eta1).map ntt
    let t := List.zipWith (fun row ei => polyAdd (dot row s) ei) A e
    some (t.flatMap enc12 ++ rho, s.flatMap enc12)

/-- `cpa_encrypt(pk_cpa, m, coins)` (R322). -/
def cpaEncrypt (lv : Level) (blocks : Nat) (pk m coins : List Byte) : Option (List Byte) :=
  let t := decVector lv pk
  let rho := slice pk (384 * lv.k) 32
  match genA lv blocks rho true with
  | none => none
  | some AT =>
    let r := (noiseVector lv coins 0 lv.eta1).map ntt
    let e1 := noiseVector lv coins lv.k lv.eta2
    let e2 := sampleCbd coins (byteOf (2 * lv.k)) lv.eta2
    let u := List.zipWith (fun row e1i => polyAdd (intt (dot row r)) e1i) AT e1
    let v := polyAdd (polyAdd (intt (dot t r)) e2) (msgDecode m)
    some ((u.flatMap fun ui => cenc ui lv.du) ++ cenc v lv.dv)

/-- `cpa_decrypt(sk_cpa, c)` (R323). -/
def cpaDecrypt (lv : Level) (sk c : List Byte) : List Byte :=
  let u := (List.range lv.k).map fun i => cdec (slice c (32 * lv.du * i) (32 * lv.du)) lv.du
  let v := cdec (slice c (32 * lv.du * lv.k) (32 * lv.dv)) lv.dv
  let s := decVector lv sk
  let w := polySub v (intt (dot s (u.map ntt)))
  msgEncode w

/-! ### The KEM transform -/

/-- `kem_keygen(d, z)`: pk and sk (R325). -/
def kemKeygen (lv : Level) (blocks : Nat) (d z : List Byte) : Option (List Byte × List Byte) :=
  match cpaKeygen lv blocks d with
  | none => none
  | some (pk, skCpa) => some (pk, skCpa ++ pk ++ hashH pk ++ z)

/-- `kem_encaps(pk, m)`: c and K (R326). -/
def kemEncaps (lv : Level) (blocks : Nat) (pk m : List Byte) : Option (List Byte × List Byte) :=
  let (kbar, coins) := hashG (m ++ hashH pk)
  match cpaEncrypt lv blocks pk m coins with
  | none => none
  | some c => some (c, kdf (kbar ++ hashH c))

/-- `ct_equal(a, b)`: the OR over every byte of the XORs is 0 (R328). -/
def ctEqual (a b : List Byte) : Bool := (List.zipWith (· ^^^ ·) a b).foldl (· ||| ·) 0 = 0

/-- `ct_select(eq, x, y)` with the mask of R328. -/
def ctSelect (eq : Bool) (x y : List Byte) : List Byte :=
  let mask : Byte := if eq then 0xFF else 0x00
  List.zipWith (fun a b => (a &&& mask) ||| (b &&& ~~~mask)) x y

/-- `kem_decaps(sk, c)`: K (R327). -/
def kemDecaps (lv : Level) (blocks : Nat) (sk c : List Byte) : Option (List Byte) :=
  let skCpa := slice sk 0 (384 * lv.k)
  let pk := slice sk (384 * lv.k) (384 * lv.k + 32)
  let h := slice sk (768 * lv.k + 32) 32
  let z := slice sk (768 * lv.k + 64) 32
  let m := cpaDecrypt lv skCpa c
  let (kbar, coins) := hashG (m ++ h)
  match cpaEncrypt lv blocks pk m coins with
  | none => none
  | some c' => some (kdf (ctSelect (ctEqual c c') kbar z ++ hashH c))

/-! ### The commands -/

/-- Zero the scratch, as every KEM command does before it completes (R332). -/
def State.wipeScratch (s : State) : State := { s with scratch := Scratch.zero }

/-- Note a non-canonical key in NCAN (R330, R331). -/
def State.noteNcan (s : State) (nonCanonical : Bool) : State := { s with status := s.status.noteNcan nonCanonical }

/-- KEYGEN: pk is written first, so sk's bytes remain where the two overlap (R329). -/
def execKeygen (addrA addrB addrC : Half) (s : State) : Host.Outcome State Fault Refusal :=
  let input := s.memRead addrA.toNat 64
  samplingCommand s
    [checkRange s addrA.toNat 64, checkRange s addrB.toNat s.level.pkBytes, checkRange s addrC.toNat s.level.skBytes]
    ((kemKeygen s.level s.streamBlocks (input.take 32) (input.drop 32)).map fun keys =>
      ((s.memWrite addrB.toNat keys.1).memWrite addrC.toNat keys.2).wipeScratch)

/-- ENCAPS (R330). -/
def execEncaps (addrA addrB addrC : Half) (s : State) : Host.Outcome State Fault Refusal :=
  let pk := s.memRead addrA.toNat s.level.pkBytes
  let m := s.memRead addrB.toNat 32
  samplingCommand s
    [checkRange s addrA.toNat s.level.pkBytes, checkRange s addrB.toNat 32,
      checkRange s addrC.toNat (s.level.ctBytes + 32)]
    ((kemEncaps s.level s.streamBlocks pk m).map fun out =>
      (((s.memWrite addrC.toNat out.1).memWrite (addrC.toNat + s.level.ctBytes) out.2).noteNcan
        (nonCanonicalVector s.level pk)).wipeScratch)

/-- DECAPS (R331). -/
def execDecaps (addrA addrB addrC : Half) (s : State) : Host.Outcome State Fault Refusal :=
  let sk := s.memRead addrA.toNat s.level.skBytes
  let c := s.memRead addrB.toNat s.level.ctBytes
  samplingCommand s
    [checkRange s addrA.toNat s.level.skBytes, checkRange s addrB.toNat s.level.ctBytes, checkRange s addrC.toNat 32]
    ((kemDecaps s.level s.streamBlocks sk c).map fun k =>
      ((s.memWrite addrC.toNat k).noteNcan
        (nonCanonicalVector s.level sk || nonCanonicalVector s.level (sk.drop (384 * s.level.k)))).wipeScratch)

end Sys2Proof.Machine
end

