-- ==== Sys2Proof/Machine/Dispatch.lean ====
section
/-! DEFINITION. The meaning of each command: one arm per constructor of Instr. -/

namespace Sys2Proof.Machine

def exec (i : Instr) (s : State) : Host.Outcome State Fault Refusal :=
  match i with
  | .nop => Sys2Proof.Machine.execNop s
  | .padd rd rs1 rs2 => Sys2Proof.Machine.execPadd rd rs1 rs2 s
  | .psub rd rs1 rs2 => Sys2Proof.Machine.execPsub rd rs1 rs2 s
  | .pbmul rd rs1 rs2 => Sys2Proof.Machine.execPbmul rd rs1 rs2 s
  | .pbmac rd rs1 rs2 => Sys2Proof.Machine.execPbmac rd rs1 rs2 s
  | .pzero rd d => Sys2Proof.Machine.execPzero rd d s
  | .pmov rd rs1 => Sys2Proof.Machine.execPmov rd rs1 s
  | .ntt rd rs1 => Sys2Proof.Machine.execNtt rd rs1 s
  | .intt rd rs1 => Sys2Proof.Machine.execIntt rd rs1 s
  | .scbd rd d imm8 addrA => Sys2Proof.Machine.execScbd rd d imm8 addrA s
  | .samu rd imm8 y addrA => Sys2Proof.Machine.execSamu rd imm8 y addrA s
  | .enc12 rs1 addrA => Sys2Proof.Machine.execEnc12 rs1 addrA s
  | .dec12 rd d addrA => Sys2Proof.Machine.execDec12 rd d addrA s
  | .cenc rs1 d addrA => Sys2Proof.Machine.execCenc rs1 d addrA s
  | .cdec rd d addrA => Sys2Proof.Machine.execCdec rd d addrA s
  | .hash d addrA addrB len outlen => Sys2Proof.Machine.execHash d addrA addrB len outlen s
  | .keygen addrA addrB addrC => Sys2Proof.Machine.execKeygen addrA addrB addrC s
  | .encaps addrA addrB addrC => Sys2Proof.Machine.execEncaps addrA addrB addrC s
  | .decaps addrA addrB addrC => Sys2Proof.Machine.execDecaps addrA addrB addrC s
  | .zeroize => Sys2Proof.Machine.execZeroize s

end Sys2Proof.Machine
end

