-- ==== Sys2Proof/Machine/Port.lean ====
section
/-! DEFINITION. The host's two ports and reset: the CSR map (spec/10_state.md R35-R42, R51), the buffer port
(spec/20_memory.md R71, R72), issue (spec/60_exceptions.md R410), holds (spec/70_reset_and_hazards.md R460) and the
reset step (R450-R453). -/

namespace Sys2Proof.Machine

/-! ### The CSR space -/

/-- ID (R40). -/
def idWord : Word := 0x4B594252

/-- PARAMS: MEMK, REV, NPR from bit 31 down (R41). -/
def State.paramsWord (s : State) : Word :=
  BitVec.ofNat 16 (s.memBytes / 256) ++ BitVec.ofNat 8 Config.rev ++ BitVec.ofNat 8 Config.npr

/-- The register number of a CSR byte offset: bits 1:0 are ignored (R71). -/
def csrIndex (addr : Byte) : Nat := addr.toNat / 4

/-- What a CSR read returns: offsets 0x00 to 0x10 and 0x20 to 0x28, and 0 at the reserved ones (R36, R42). -/
def State.csrWord (s : State) (addr : Byte) : Word :=
  match csrIndex addr with
  | 0 => idWord
  | 1 => s.paramsWord
  | 2 => BitVec.ofNat 32 s.level.code
  | 3 => s.statusWord
  | 4 => (BitVec.ofBool s.doneIe).setWidth 32
  | 8 => s.cmd0
  | 9 => s.cmd1
  | 10 => s.cmd2
  | _ => 0

/-- The level a CFG write leaves: the code in bits 1:0, and 3 is dropped (R37). -/
def Level.write (lv : Level) (wdata : Word) : Level :=
  match (wdata.extractLsb' 0 2).toNat with
  | 0 => .level1
  | 1 => .level3
  | 2 => .level5
  | _ => lv

/-- The issue step: CUR is latched, DONE, ERR and ERRCODE are cleared, BUSY is set (R410). -/
def issue (s : State) (wdata : Word) : State :=
  { s with
    cmd2 := wdata
    cur := wdata ++ s.cmd1 ++ s.cmd0
    status := s.status.issued
    run := .busy
    streamTries := 0 }

/-- What a performed CSR write does (R36-R42); offsets not listed ignore it. -/
def csrWrite (s : State) (addr : Byte) (wdata : Word) : State :=
  match csrIndex addr with
  | 2 => { s with level := s.level.write wdata }
  | 3 => { s with status := s.status.write wdata }
  | 4 => { s with doneIe := wdata.getLsbD 0 }
  | 8 => { s with cmd0 := wdata }
  | 9 => { s with cmd1 := wdata }
  | 10 => issue s wdata
  | _ => s

/-! ### The buffer port (R72) -/

/-- What a buffer read returns: a little-endian word, 0 outside M. -/
def State.bufWord (s : State) (index : BitVec 14) : Word :=
  let a := 4 * index.toNat
  if a + 3 < s.memBytes then
    Memory.read s.mem (a + 3) ++ Memory.read s.mem (a + 2) ++ Memory.read s.mem (a + 1) ++ Memory.read s.mem a
  else 0

/-- Store byte `i` of a word, if its byte enable is 1. -/
def writeLane (a : Nat) (be : BitVec 4) (wdata : Word) (m : Memory) (i : Nat) : Memory :=
  if be.getLsbD i then Memory.set m (a + i) (wdata.extractLsb' (8 * i) 8) else m

/-- What a buffer write does: the enabled bytes, nothing outside M. -/
def bufWrite (s : State) (index : BitVec 14) (be : BitVec 4) (wdata : Word) : State :=
  let a := 4 * index.toNat
  if a + 3 < s.memBytes then { s with mem := [0, 1, 2, 3].foldl (writeLane a be wdata) s.mem } else s

/-! ### Host accesses -/

/-- The accesses that hold while BUSY (R460). -/
def HostAction.holds : HostAction → Bool
  | .csrRead _ => false
  | .csrWrite addr _ => csrIndex addr = 2 || csrIndex addr = 8 || csrIndex addr = 9 || csrIndex addr = 10
  | .bufRead _ => true
  | .bufWrite _ _ _ => true

/-- Whether the port answers ready to an access, so that it is performed (csr_ready and buf_ready of R51, R460). -/
def State.ready (s : State) (a : HostAction) : Bool := !(s.isBusy && a.holds)

/-- Perform an access; a read leaves its data on its port (R51). -/
def perform (a : HostAction) (s : State) : State :=
  match a with
  | .csrRead addr => { s with csrRdata := s.csrWord addr }
  | .csrWrite addr wdata => csrWrite s addr wdata
  | .bufRead index => { s with bufRdata := s.bufWord index }
  | .bufWrite index be wdata => bufWrite s index be wdata

/-- The host's step: a held access is performed as soon as its port is ready; otherwise the next access is performed,
or held if its port is not ready (R460). With no access to make, nothing happens. -/
def hostStep (s : State) : State :=
  match s.held with
  | some a => if s.ready a then perform a { s with held := none } else s
  | none =>
    match s.hostQueue with
    | [] => s
    | a :: rest =>
      if s.ready a then perform a { s with hostQueue := rest } else { s with hostQueue := rest, held := some a }

/-! ### Reset -/

/-- A held access is cut short by reset: a held read's data is unspecified (R453), a free value (log 3). -/
def cutAccess (s : State) : State :=
  match s.held with
  | some (.bufRead _) =>
    { s with held := none, bufRdata := Config.freeReadData s.freeCount, freeCount := s.freeCount + 1 }
  | some (.csrRead _) =>
    { s with held := none, csrRdata := Config.freeReadData s.freeCount, freeCount := s.freeCount + 1 }
  | _ => { s with held := none }

/-- The reset step: every piece of the block's state takes its reset value (R48, R451). MEM_BYTES is the block's
parameter and stays; the host's own fields stay (log 1, log 5). -/
def resetStep (s : State) : State :=
  { (cutAccess s).wipeData with
    cmd0 := 0
    cmd1 := 0
    cmd2 := 0
    cur := 0
    level := .level1
    status := ⟨false, false, false, .ok⟩
    doneIe := false
    run := .idle
    streamTries := 0 }

end Sys2Proof.Machine
end

