-- ==== Sys2Proof/Machine/Step.lean ====
section
/-! DEFINITION. One step of the machine: a host access, the core's execution step, or reset
(spec/20_memory.md R82; spec/70_reset_and_hazards.md R465-R467). -/

namespace Sys2Proof.Machine

/-- Who takes this step: reset when the schedule says so; a held access in the first step after completion (R460);
otherwise the schedule's next agent, and with no schedule the core while BUSY and the host while IDLE (log 6). -/
def State.agent (s : State) : Agent :=
  match s.sched with
  | .reset :: _ => .reset
  | next =>
    if s.held.isSome && !s.isBusy then .host
    else
      match next with
      | a :: _ => a
      | [] => if s.isBusy then .core else .host

/-- The core's execution step, enabled while BUSY (R466): decode CUR (R107), then execute or report the error. -/
def coreStep (s : State) : Host.Outcome State Fault Refusal :=
  if s.isBusy then
    match decode s.cur with
    | .error e => raiseError (decodeErrorCode e) s
    | .ok i => exec i s
  else .next s

/-- One step of the machine; it uses up one entry of the schedule. -/
def step (s : State) : Host.Outcome State Fault Refusal :=
  match s.agent with
  | .reset => .next (resetStep { s with sched := s.sched.tail })
  | .host => .next (hostStep { s with sched := s.sched.tail })
  | .core => coreStep { s with sched := s.sched.tail }

/-- `s` with the command whose bits are `w` latched and the core scheduled, so that the next step executes it: what
an issue leaves in CUR and the run state (R410), with the host's part in it left out (log 13). -/
def State.withFetchWord (s : State) (nbits w : Nat) : State :=
  { s with cur := BitVec.ofNat 96 (w % 2 ^ nbits), run := .busy, sched := .core :: s.sched }

end Sys2Proof.Machine
end

