-- ==== Sys2Proof/Safety.lean ====
section
/-! DEFINITION. The terms statements are made in: the invariant of the block, what a completed command leaves unchanged,
and which part of the state a command reads. -/

namespace Sys2Proof.Machine

/-! ### The invariant -/

/-- Every coefficient is below q (R31). -/
def Poly.canonical (p : Poly) : Prop := ∀ x ∈ p.coeffs, x.toNat < Config.q

/-- Every register's coefficients are below q, at every step (R31). -/
def State.Canonical (s : State) : Prop := ∀ r : Reg, (s.poly r).f.canonical

/-- An EMPTY register is one that nothing wrote since reset or ZEROIZE: `(EMPTY, zeros)` (R16, R48, R371). -/
def State.EmptyIsZero (s : State) : Prop := ∀ r : Reg, (s.poly r).tag = .empty → (s.poly r).f = Poly.zero

/-- M's cells are in canonical form and inside M (R34). -/
def State.MemoryOk (s : State) : Prop := Memory.wf s.mem = true ∧ ∀ c ∈ s.mem, c.1 < s.memBytes

/-- MEM_BYTES is one a conforming block has (R10). -/
def State.Conforming (s : State) : Prop := 256 ∣ s.memBytes ∧ 4800 ≤ s.memBytes ∧ s.memBytes ≤ 65536

/-- STATUS agrees with the run state: ERR shows whether ERRCODE is nonzero (R404), and DONE, ERR and ERRCODE stay
clear from issue to completion (R38, R410). -/
def State.StatusOk (s : State) : Prop :=
  (s.status.err = true ↔ s.status.errcode ≠ .ok) ∧
  (s.run = .busy → s.status.done = false ∧ s.status.errcode = .ok)

/-- Only an access that holds is held (R460). -/
def State.HeldOk (s : State) : Prop := ∀ a, s.held = some a → a.holds = true

/-- The invariant of the block. -/
structure State.Inv (s : State) : Prop where
  canonical : s.Canonical
  emptyIsZero : s.EmptyIsZero
  memoryOk : s.MemoryOk
  conforming : s.Conforming
  statusOk : s.StatusOk
  heldOk : s.HeldOk
  scratchZero : s.scratch = Scratch.zero
  triesZero : s.run = .idle → s.streamTries = 0

/-! ### Frames -/

/-- No polynomial register changes. -/
def SamePolys (s t : State) : Prop := ∀ r : Reg, t.poly r = s.poly r

/-- No polynomial register but `rd` changes. -/
def SamePolysExcept (rd : Reg) (s t : State) : Prop := ∀ r : Reg, r ≠ rd → t.poly r = s.poly r

/-- No byte of M changes. -/
def SameMemory (s t : State) : Prop := ∀ a, Memory.read t.mem a = Memory.read s.mem a

/-- No byte of M outside `a .. a+n-1` changes. -/
def SameMemoryOutside (a n : Nat) (s t : State) : Prop :=
  ∀ b, (b < a ∨ a + n ≤ b) → Memory.read t.mem b = Memory.read s.mem b

/-- What no command changes, with or without an error: the command registers, CFG, IRQEN, MEM_BYTES, the ports and the
host's own fields. -/
structure SameControl (s t : State) : Prop where
  cmd0 : t.cmd0 = s.cmd0
  cmd1 : t.cmd1 = s.cmd1
  cmd2 : t.cmd2 = s.cmd2
  level : t.level = s.level
  doneIe : t.doneIe = s.doneIe
  memBytes : t.memBytes = s.memBytes
  csrRdata : t.csrRdata = s.csrRdata
  bufRdata : t.bufRdata = s.bufRdata
  held : t.held = s.held
  hostQueue : t.hostQueue = s.hostQueue
  sched : t.sched = s.sched

/-- The completion of R404 with code `c`: BUSY 0, DONE 1, ERR and ERRCODE from `c`; and what no command changes. NCAN,
P, M and the scratch are not spoken of here. -/
structure CompletedWith (c : ErrCode) (s t : State) : Prop where
  idle : t.run = .idle
  done : t.status.done = true
  err : t.status.err = decide (c ≠ .ok)
  errcode : t.status.errcode = c
  control : SameControl s t

/-- A command that ended in the error `c` and did nothing else (R402). -/
structure FailedWith (c : ErrCode) (s t : State) : Prop where
  isError : c ≠ .ok
  completed : CompletedWith c s t
  ncan : t.status.ncan = s.status.ncan
  polys : SamePolys s t
  memory : SameMemory s t
  scratch : t.scratch = s.scratch

/-- A command that completed without error and wrote the register `rd` only, with tag `tag` and polynomial `f`; NCAN is
set if `nc`, and otherwise kept. -/
structure WroteRegister (rd : Reg) (tag : Tag) (f : Poly) (nc : Bool) (s t : State) : Prop where
  completed : CompletedWith .ok s t
  result : t.poly rd = ⟨tag, f⟩
  others : SamePolysExcept rd s t
  memory : SameMemory s t
  scratch : t.scratch = s.scratch
  ncan : t.status.ncan = (s.status.ncan || nc)

/-- A command that completed without error and wrote the bytes `v` at address `a` only. -/
structure WroteBytes (a : Nat) (v : List Byte) (s t : State) : Prop where
  completed : CompletedWith .ok s t
  result : t.memRead a v.length = v
  outside : SameMemoryOutside a v.length s t
  polys : SamePolys s t
  scratch : t.scratch = s.scratch
  ncan : t.status.ncan = s.status.ncan

/-- A core step that only reads further in the uniform sampler's stream: the command is still running (R224). -/
def KeptSampling (s t : State) : Prop := t = { s with streamTries := s.streamTries + 1 }

/-- `k` steps of the machine behind the host's interface. -/
def State.after (s : State) (k : Nat) : Host.Outcome State Fault Refusal := Host.Core.run core k s

/-! ### What a command reads -/

/-- Two states agree on everything a command reads: P, M, MEM_BYTES, the level, the scratch, and how much of the
uniform-sampler stream is read (R465). -/
structure SameInputs (s s' : State) : Prop where
  polys : s.polys = s'.polys
  mem : s.mem = s'.mem
  memBytes : s.memBytes = s'.memBytes
  level : s.level = s'.level
  scratch : s.scratch = s'.scratch
  streamTries : s.streamTries = s'.streamTries

end Sys2Proof.Machine
end

