-- ==== Sys2Proof/Certificates/Slice0/Obligations.lean ====
section
/-! DEFINITION. The statements about the model, each an `Obligations.<Name> : Prop`, from the numbered rules of spec/.
`Sys2Proof.Statement` holds the few terms that several of them share, written from the rules and not from the model. -/

namespace Sys2Proof.Statement

open Sys2Proof.Machine

/-- The opcode of a word, its bits 7:0 (R101). -/
def wordOpcode (C : Command) : Byte := C.extractLsb' 0 8

/-- The bytes `B[a .. a+n-1]` of a string (R13). -/
def part (B : List Byte) (a n : Nat) : List Byte := (B.drop a).take n

/-- The word of a command as a number: the opcode of R106, and every field the command's format uses (R102) at the place
R101 gives it. -/
def wordValue : Instr → Nat
  | .nop => 0x00
  | .padd rd rs1 rs2 => 0x01 + 2 ^ 8 * rd.val + 2 ^ 12 * rs1.val + 2 ^ 16 * rs2.val
  | .psub rd rs1 rs2 => 0x02 + 2 ^ 8 * rd.val + 2 ^ 12 * rs1.val + 2 ^ 16 * rs2.val
  | .pbmul rd rs1 rs2 => 0x03 + 2 ^ 8 * rd.val + 2 ^ 12 * rs1.val + 2 ^ 16 * rs2.val
  | .pbmac rd rs1 rs2 => 0x04 + 2 ^ 8 * rd.val + 2 ^ 12 * rs1.val + 2 ^ 16 * rs2.val
  | .pzero rd d => 0x05 + 2 ^ 8 * rd.val + 2 ^ 20 * d.toNat
  | .pmov rd rs1 => 0x06 + 2 ^ 8 * rd.val + 2 ^ 12 * rs1.val
  | .ntt rd rs1 => 0x08 + 2 ^ 8 * rd.val + 2 ^ 12 * rs1.val
  | .intt rd rs1 => 0x09 + 2 ^ 8 * rd.val + 2 ^ 12 * rs1.val
  | .scbd rd d imm8 a => 0x10 + 2 ^ 8 * rd.val + 2 ^ 20 * d.toNat + 2 ^ 24 * imm8.toNat + 2 ^ 32 * a.toNat
  | .samu rd imm8 y a => 0x11 + 2 ^ 8 * rd.val + 2 ^ 24 * imm8.toNat + 2 ^ 32 * a.toNat + 2 ^ 64 * y.toNat
  | .enc12 rs1 a => 0x18 + 2 ^ 12 * rs1.val + 2 ^ 32 * a.toNat
  | .dec12 rd d a => 0x19 + 2 ^ 8 * rd.val + 2 ^ 20 * d.toNat + 2 ^ 32 * a.toNat
  | .cenc rs1 d a => 0x1A + 2 ^ 12 * rs1.val + 2 ^ 20 * d.toNat + 2 ^ 32 * a.toNat
  | .cdec rd d a => 0x1B + 2 ^ 8 * rd.val + 2 ^ 20 * d.toNat + 2 ^ 32 * a.toNat
  | .hash d a b len outlen =>
    0x20 + 2 ^ 20 * d.toNat + 2 ^ 32 * a.toNat + 2 ^ 48 * b.toNat + 2 ^ 64 * len.toNat + 2 ^ 80 * outlen.toNat
  | .keygen a b c => 0x28 + 2 ^ 32 * a.toNat + 2 ^ 48 * b.toNat + 2 ^ 64 * c.toNat
  | .encaps a b c => 0x29 + 2 ^ 32 * a.toNat + 2 ^ 48 * b.toNat + 2 ^ 64 * c.toNat
  | .decaps a b c => 0x2A + 2 ^ 32 * a.toNat + 2 ^ 48 * b.toNat + 2 ^ 64 * c.toNat
  | .zeroize => 0x30

/-- The word of `i` has the opcode `opc` and no bit outside its format's fields, it decodes to `i`, and a word with that
opcode and a reserved bit set raises RESERVED_FIELD (R102, R106, R107). -/
def EncodedBy (i : Instr) (opc : Byte) (reserved : Command) : Prop :=
  wordOpcode (encode i) = opc ∧ encode i &&& reserved = 0 ∧ decode (encode i) = .ok i ∧
  ∀ u : State, u.run = .busy → wordOpcode u.cur = opc → u.cur &&& reserved ≠ 0 →
    ∃ t, coreStep u = .next t ∧ FailedWith .reservedField u t

/-- The rows of the opcode table: the opcode, and the mask of the opcode byte and the reserved bits (R102, R106). -/
def opcodeTable : List (Byte × Command) := [
  (0x00, 0xFFFFFFFFFFFFFFFFFFFFFFFF), (0x01, 0xFFFFFFFFFFFFFFFFFFF000FF), (0x02, 0xFFFFFFFFFFFFFFFFFFF000FF),
  (0x03, 0xFFFFFFFFFFFFFFFFFFF000FF), (0x04, 0xFFFFFFFFFFFFFFFFFFF000FF), (0x05, 0xFFFFFFFFFFFFFFFFFF0FF0FF),
  (0x06, 0xFFFFFFFFFFFFFFFFFFFF00FF), (0x08, 0xFFFFFFFFFFFFFFFFFFFF00FF), (0x09, 0xFFFFFFFFFFFFFFFFFFFF00FF),
  (0x10, 0xFFFFFFFFFFFF0000000FF0FF), (0x11, 0xFFFFFF00FFFF000000FFF0FF), (0x18, 0xFFFFFFFFFFFF0000FFFF0FFF),
  (0x19, 0xFFFFFFFFFFFF0000FF0FF0FF), (0x1A, 0xFFFFFFFFFFFF0000FF0F0FFF), (0x1B, 0xFFFFFFFFFFFF0000FF0FF0FF),
  (0x20, 0x0000000000000000FF0FFFFF), (0x28, 0xFFFF000000000000FFFFFFFF), (0x29, 0xFFFF000000000000FFFFFFFF),
  (0x2A, 0xFFFF000000000000FFFFFFFF), (0x30, 0xFFFFFFFFFFFFFFFFFFFFFFFF)]

/-- The host performs the access `a` in this step: a held access first, else the next of its queue (R51, R82, R460). -/
def Performs (s : State) (a : HostAction) : Prop :=
  s.agent = .host ∧ s.ready a = true ∧ (s.held = some a ∨ s.held = none ∧ s.hostQueue.head? = some a)

/-- The 7-bit bit reversal of R182. -/
def br7 (i : Nat) : Nat := ∑ j ∈ Finset.range 7, if i.testBit j then 2 ^ (6 - j) else 0

/-- ZETA[i] by its formula (R182). -/
def zeta (i : Nat) : Nat := 17 ^ br7 i % 3329

/-- GAMMA[i] by its formula (R182). -/
def gamma (i : Nat) : Nat := 17 ^ (2 * br7 i + 1) % 3329

/-- Group `i` of a string of d-bit groups, by the formula of R241. -/
def group (E : List Byte) (d i : Nat) : Nat := ∑ j ∈ Finset.range d, (bit E (i * d + j)).toNat * 2 ^ j

/-- `ringDistance` of R246, for a and b below q. -/
def ringDistance (a b : Nat) : Nat := min ((a + 3329 - b) % 3329) ((b + 3329 - a) % 3329)

/-- Multiply every coefficient by `c`. -/
def scale (c : Coeff) (f : Poly) : Poly := ⟨f.coeffs.map (modmul c), by rw [List.length_map, f.size]⟩

/-- One turn of the inner loop of R183 or R184: the butterfly on entries `j` and `j + len`, in place. -/
def butterflyAt (bfly : Coeff → Coeff → Coeff → Coeff × Coeff) (z : Coeff) (len : Nat) (g : List Coeff) (j : Nat) :
    List Coeff :=
  let p := bfly (g.getD j 0) (g.getD (j + len) 0) z
  (g.set j p.1).set (j + len) p.2

/-- The two inner loops of R183 for one `len`: the array and `k`, counting up. -/
def nttLoopLayer (gk : List Coeff × Nat) (len : Nat) : List Coeff × Nat :=
  (List.range (128 / len)).foldl (fun gk b =>
    ((List.range' (2 * len * b) len).foldl (butterflyAt ctBfly (BitVec.ofNat 12 (zeta gk.2)) len) gk.1, gk.2 + 1)) gk

/-- The loop of R183, as the spec writes it. -/
def nttLoop (f : List Coeff) : List Coeff := ([128, 64, 32, 16, 8, 4, 2].foldl nttLoopLayer (f, 1)).1

/-- The two inner loops of R184 for one `len`: the array and `k`, counting down. -/
def inttLoopLayer (fk : List Coeff × Nat) (len : Nat) : List Coeff × Nat :=
  (List.range (128 / len)).foldl (fun fk b =>
    ((List.range' (2 * len * b) len).foldl (butterflyAt gsBfly (BitVec.ofNat 12 (zeta fk.2)) len) fk.1, fk.2 - 1)) fk

/-- The loop of R184, as the spec writes it. -/
def inttLoop (g : List Coeff) : List Coeff :=
  ([2, 4, 8, 16, 32, 64, 128].foldl inttLoopLayer (g, 127)).1.map fun x => modmul x (BitVec.ofNat 12 3303)

/-- The positions the generator of R282 visits. -/
def rhoWalk : Nat → Fin 5 × Fin 5
  | 0 => (1, 0)
  | t + 1 => ((rhoWalk t).2, 2 * (rhoWalk t).1 + 3 * (rhoWalk t).2)

/-- The state of the LFSR of R285 after `t` shifts: x^t modulo x^8 + x^6 + x^5 + x^4 + 1. -/
def lfsr : Nat → Nat
  | 0 => 1
  | t + 1 => if 128 ≤ lfsr t then (2 * lfsr t) ^^^ 0x171 else 2 * lfsr t

/-- RC[ir] from the LFSR (R285). -/
def roundConstant (ir : Nat) : Lane :=
  BitVec.ofNat 64 (∑ j ∈ Finset.range 7, (lfsr (j + 7 * ir) % 2) * 2 ^ (2 ^ j - 1))

/-- The rejection loop of R221 on the bytes of a stream that are read: `out` so far, until it has 256 entries. -/
def parseLoop : List Byte → List Nat → Option (List Nat)
  | b0 :: b1 :: b2 :: S, out =>
    if 256 ≤ out.length then some out
    else
      let d1 := b0.toNat + 256 * (b1.toNat % 16)
      let d2 := b1.toNat / 16 + 16 * b2.toNat
      let out1 := if d1 < 3329 then out ++ [d1] else out
      parseLoop S (if d2 < 3329 ∧ out1.length < 256 then out1 ++ [d2] else out1)
  | _, out => if 256 ≤ out.length then some out else none

/-- `g` is the sum of the base products of `a 0 .. a (k-1)` with `b 0 .. b (k-1)`, coefficient by coefficient mod q: the
`sum_{j} basemul(a[j], b[j])` of R321 to R323. -/
def SumOfProducts (k : Nat) (a b : Nat → Poly) (g : Poly) : Prop :=
  ∀ j < 256, (g.get j).toNat = (∑ l ∈ Finset.range k, ((basemul (a l) (b l)).get j).toNat) % 3329

/-- A KEM command that completed: the bytes `v` at address `a` are its output, NCAN is set if `nc`, the scratch is
zero, and nothing else changed (R332, R333). -/
structure WroteOutput (a : Nat) (v : List Byte) (nc : Bool) (s t : State) : Prop where
  completed : CompletedWith .ok s t
  result : t.memRead a v.length = v
  outside : SameMemoryOutside a v.length s t
  polys : SamePolys s t
  scratch : t.scratch = Scratch.zero
  ncan : t.status.ncan = (s.status.ncan || nc)

/-- A value of R48 for every piece of the block's state, MEM_BYTES apart. -/
structure IsReset (t : State) : Prop where
  polys : ∀ r : Reg, t.poly r = ⟨.empty, Poly.zero⟩
  memory : ∀ a, Memory.read t.mem a = 0
  cmd0 : t.cmd0 = 0
  cmd1 : t.cmd1 = 0
  cmd2 : t.cmd2 = 0
  cur : t.cur = 0
  level : t.level = .level1
  status : t.status = ⟨false, false, false, .ok⟩
  doneIe : t.doneIe = false
  idle : t.run = .idle
  irq : t.irq = false
  scratch : t.scratch = Scratch.zero
  nothingHeld : t.held = none

end Sys2Proof.Statement

open Sys2Proof Sys2Proof.Machine Sys2Proof.Statement

/-! ### Encoding (spec/30_encoding.md) -/

/-- Decoding the word of a command gives the command, with every operand at every value (R100-R102, R106). -/
def Obligations.DecodeOfEncode : Prop := ∀ i : Instr, decode (encode i) = .ok i

/-- A word that decodes is the word of the command it decodes to: no bit of it is dropped (R102, R107); and that word has
the opcode of R106 and every operand at the place R101 gives it. -/
def Obligations.EncodeOfDecode : Prop :=
  (∀ (C : Command) (i : Instr), decode C = .ok i → encode i = C) ∧ ∀ i : Instr, (encode i).toNat = wordValue i

/-- The ten worked encodings of R112: CMD2, CMD1, CMD0 from left to right. -/
def Obligations.WorkedEncodings : Prop :=
  decode ((0x00000000 : Word) ++ (0x00000000 : Word) ++ (0x00010201 : Word)) = .ok (.padd 2 0 1) ∧
  decode ((0x00000000 : Word) ++ (0x00000000 : Word) ++ (0x00065704 : Word)) = .ok (.pbmac 7 5 6) ∧
  decode ((0x00000000 : Word) ++ (0x00000000 : Word) ++ (0x00000108 : Word)) = .ok (.ntt 1 0) ∧
  decode ((0x00000000 : Word) ++ (0x00000100 : Word) ++ (0x05200310 : Word)) = .ok (.scbd 3 2 5 0x0100) ∧
  decode ((0x00000000 : Word) ++ (0x00000020 : Word) ++ (0x01000411 : Word)) = .ok (.samu 4 1 0 0x0020) ∧
  decode ((0x00000000 : Word) ++ (0x00000180 : Word) ++ (0x00100019 : Word)) = .ok (.dec12 0 1 0x0180) ∧
  decode ((0x00000000 : Word) ++ (0x00000400 : Word) ++ (0x00A0201A : Word)) = .ok (.cenc 2 10 0x0400) ∧
  decode ((0x00000020 : Word) ++ (0x02000000 : Word) ++ (0x00000020 : Word)) = .ok (.hash 0 0x0000 0x0200 32 0) ∧
  decode ((0x00400021 : Word) ++ (0x03000000 : Word) ++ (0x00300020 : Word)) = .ok (.hash 3 0x0000 0x0300 33 64) ∧
  decode ((0x00000360 : Word) ++ (0x00400000 : Word) ++ (0x00000028 : Word)) = .ok (.keygen 0x0000 0x0040 0x0360)

/-- Every opcode outside the map raises ILLEGAL_OPCODE, there are 236 of them, and no other word does (R108). -/
def Obligations.IllegalOpcodes : Prop :=
  (∀ s : State, s.run = .busy →
    ((wordOpcode s.cur ∉ opcodeTable.map Prod.fst →
        ∃ t, coreStep s = .next t ∧ FailedWith .illegalOpcode s t) ∧
     (wordOpcode s.cur ∈ opcodeTable.map Prod.fst →
        ∀ t, coreStep s = .next t → ¬ FailedWith .illegalOpcode s t))) ∧
  ((List.range 256).filter fun x => BitVec.ofNat 8 x ∉ opcodeTable.map Prod.fst).length = 236

/-- A legal opcode with a reserved bit set raises RESERVED_FIELD, whatever else is wrong with the command; with none
set the word is a command (R102, R107, the masks of the opcode table). -/
def Obligations.ReservedBits : Prop :=
  ∀ row ∈ opcodeTable, ∀ s : State, s.run = .busy → wordOpcode s.cur = row.1 →
    (s.cur &&& row.2 ≠ row.1.setWidth 96 → ∃ t, coreStep s = .next t ∧ FailedWith .reservedField s t) ∧
    (s.cur &&& row.2 = row.1.setWidth 96 → ∃ i, decode s.cur = .ok i ∧ coreStep s = exec i s)

/-! ### Steps (spec/20_memory.md R82; spec/60_exceptions.md; spec/70_reset_and_hazards.md R460-R467) -/

/-- The core's step executes the latched command; and the state `withFetchWord` gives runs exactly the command whose
word it is given (R465, R466; the schedule is the model's, log 5, log 13). -/
def Obligations.StepRunsLatchedCommand : Prop :=
  (∀ (s : State) (i : Instr), s.agent = .core → s.run = .busy → decode s.cur = .ok i →
    step s = exec i { s with sched := s.sched.tail }) ∧
  (∀ (s : State) (i : Instr),
    step (s.withFetchWord 96 (encode i).toNat) = exec i { s with cur := encode i, run := .busy })

/-- The issue step: a CMD2 write while IDLE latches the command and sets BUSY; while BUSY the write is held and
changes nothing (R410, R461). -/
def Obligations.CommandIssue : Prop :=
  ∀ (s : State) (addr : Byte) (wdata : Word), addr.toNat / 4 = 0x28 / 4 →
    (Performs s (.csrWrite addr wdata) →
      ∃ t, step s = .next t ∧ t.cmd2 = wdata ∧ t.cur = wdata ++ s.cmd1 ++ s.cmd0 ∧
        t.status = ⟨false, false, s.status.ncan, .ok⟩ ∧ t.run = .busy ∧
        t.cmd0 = s.cmd0 ∧ t.cmd1 = s.cmd1 ∧ t.level = s.level ∧ t.doneIe = s.doneIe ∧ t.memBytes = s.memBytes ∧
        SamePolys s t ∧ SameMemory s t ∧ t.scratch = s.scratch ∧ t.csrRdata = s.csrRdata ∧ t.bufRdata = s.bufRdata) ∧
    (s.run = .busy → s.agent = .host → s.held = none → ∀ rest, s.hostQueue = .csrWrite addr wdata :: rest →
      step s = .next { s with held := some (.csrWrite addr wdata), hostQueue := rest, sched := s.sched.tail })

/-- Holds (R460): while BUSY every buffer access and every write to CMD0, CMD1, CMD2 or CFG is held, every other access
is performed at once; a held access stays held while BUSY and is performed in the first step after completion,
whoever the schedule names. -/
def Obligations.HoldsWhileBusy : Prop :=
  (∀ (s : State) (a : HostAction) (rest : List HostAction),
    s.run = .busy → s.agent = .host → s.held = none → s.hostQueue = a :: rest →
      (((∃ i, a = .bufRead i) ∨ (∃ i be w, a = .bufWrite i be w) ∨
          (∃ addr w, a = .csrWrite addr w ∧ addr.toNat / 4 * 4 ∈ [0x08, 0x20, 0x24, 0x28])) →
        step s = .next { s with held := some a, hostQueue := rest, sched := s.sched.tail }) ∧
      (((∃ addr, a = .csrRead addr) ∨ (∃ addr w, a = .csrWrite addr w ∧ addr.toNat / 4 * 4 ∉ [0x08, 0x20, 0x24, 0x28])) →
        step s = .next (perform a { s with hostQueue := rest, sched := s.sched.tail }))) ∧
  (∀ (s : State) (a : HostAction), s.run = .busy → s.agent = .host → s.held = some a → a.holds = true →
    step s = .next { s with sched := s.sched.tail }) ∧
  (∀ (s : State) (a : HostAction), s.run = .idle → s.held = some a → s.sched.head? ≠ some .reset →
    step s = .next (perform a { s with held := none, sched := s.sched.tail }))

/-- The scheduler never changes any value in M, P or CFG: however many steps the host takes between issue and the core's
step, the command ends with the same registers, memory, level and outcome (R460, R467; the schedule is the model's,
log 5). -/
def Obligations.SchedulerNeverChangesData : Prop :=
  ∀ (s : State) (n : Nat), s.run = .busy →
    ∃ t u, State.after { s with sched := [.core] } 1 = .next t ∧
      State.after { s with sched := List.replicate n .host ++ [.core] } (n + 1) = .next u ∧
      u.polys = t.polys ∧ u.mem = t.mem ∧ u.level = t.level ∧ u.cmd0 = t.cmd0 ∧ u.cmd1 = t.cmd1 ∧ u.cmd2 = t.cmd2 ∧
      u.run = t.run ∧ u.scratch = t.scratch ∧
      (t.run = .idle → u.status.done = t.status.done ∧ u.status.err = t.status.err ∧
        u.status.errcode = t.status.errcode)

/-- A command's effect is a function of P, M, MEM_BYTES, the level and the command alone: two states that agree on
those end alike (R335, R465; how much of the sampler's stream has been read is the model's, log 4). -/
def Obligations.CommandReadsOnlyItsInputs : Prop :=
  ∀ (i : Instr) (s s' : State), SameInputs s s' →
    ∃ t t', exec i s = .next t ∧ exec i s' = .next t' ∧ t.polys = t'.polys ∧ t.mem = t'.mem ∧
      t.scratch = t'.scratch ∧ (s.status.ncan = s'.status.ncan → t.status.ncan = t'.status.ncan) ∧
      (KeptSampling s t ∧ KeptSampling s' t' ∨ ∃ c, CompletedWith c s t ∧ CompletedWith c s' t')

/-- No error depends on the content of M or on the coefficients in P: two states with the same CUR, level, MEM_BYTES
and register tags raise the same error or none (R401). -/
def Obligations.ErrorsReadOnlyTags : Prop :=
  ∀ s s' : State, s.run = .busy → s'.run = .busy → s.cur = s'.cur → s.level = s'.level → s.memBytes = s'.memBytes →
    (∀ r : Reg, (s.poly r).tag = (s'.poly r).tag) →
    ∃ t t', coreStep s = .next t ∧ coreStep s' = .next t' ∧ ∀ c, FailedWith c s t ↔ FailedWith c s' t'

/-- Everything a core step can be: an error with no effect but completion, a completion with code 0, or, for the uniform
sampler only, reading further (R402, R404, R465; the last is the model's, log 4). It is never a fault or a refusal. -/
def Obligations.CommandOutcomes : Prop :=
  ∀ s : State, s.run = .busy →
    ∃ t, coreStep s = .next t ∧
      ((∃ c, FailedWith c s t) ∨ CompletedWith .ok s t ∨
        KeptSampling s t ∧ ∃ i, decode s.cur = .ok i ∧
          ((∃ rd x y a, i = .samu rd x y a) ∨ (∃ a b c, i = .keygen a b c) ∨ (∃ a b c, i = .encaps a b c) ∨
            (∃ a b c, i = .decaps a b c)))

/-- BUSY is set only by an issue and cleared only by a completion or by reset (R38, R43). -/
def Obligations.BusyChanges : Prop :=
  ∀ s t : State, step s = .next t →
    (s.run = .idle → t.run = .busy → ∃ addr w, addr.toNat / 4 = 0x28 / 4 ∧ Performs s (.csrWrite addr w)) ∧
    (s.run = .busy → t.run = .idle → s.agent = .reset ∨ s.agent = .core ∧ t.status.done = true)

/-- NCAN is sticky: only a write of 1 to it or reset clears it, and only DEC12, ENCAPS and DECAPS set it (R407, R451). -/
def Obligations.NcanChanges : Prop :=
  ∀ s t : State, step s = .next t →
    (s.status.ncan = true → t.status.ncan = false →
      s.agent = .reset ∨
        ∃ addr w, addr.toNat / 4 = 0x0C / 4 ∧ w.getLsbD 3 = true ∧ Performs s (.csrWrite addr w)) ∧
    (s.status.ncan = false → t.status.ncan = true →
      s.agent = .core ∧ t.status.done = true ∧ t.status.err = false ∧
        ((∃ rd d a, decode s.cur = .ok (.dec12 rd d a)) ∨ (∃ a b c, decode s.cur = .ok (.encaps a b c)) ∨
          (∃ a b c, decode s.cur = .ok (.decaps a b c))))

/-- irq is DONE AND DONE_IE (R44); it rises at a completion with DONE_IE set or when DONE_IE is set while DONE is 1, and
falls at a write of 1 to DONE, a write that clears DONE_IE, an issue, or reset, and nothing else moves it (R408). -/
def Obligations.InterruptChanges : Prop :=
  ∀ s t : State, s.Inv → step s = .next t →
    t.irq = (t.status.done && t.doneIe) ∧
    (s.irq = false → t.irq = true →
      s.agent = .core ∧ s.doneIe = true ∧ s.run = .busy ∧ t.run = .idle ∨
      s.status.done = true ∧ ∃ addr w, addr.toNat / 4 = 0x10 / 4 ∧ w.getLsbD 0 = true ∧ Performs s (.csrWrite addr w)) ∧
    (s.irq = true → t.irq = false →
      s.agent = .reset ∨ ∃ addr w, Performs s (.csrWrite addr w) ∧
        (addr.toNat / 4 = 0x0C / 4 ∧ w.getLsbD 1 = true ∨ addr.toNat / 4 = 0x10 / 4 ∧ w.getLsbD 0 = false ∨
          addr.toNat / 4 = 0x28 / 4)) ∧
    (s.agent = .core → s.run = .busy → t.run = .idle → s.doneIe = true → t.irq = true) ∧
    (s.agent = .reset → t.irq = false) ∧
    (∀ addr w, Performs s (.csrWrite addr w) →
      (addr.toNat / 4 = 0x10 / 4 → w.getLsbD 0 = true → s.status.done = true → t.irq = true) ∧
      (addr.toNat / 4 = 0x0C / 4 ∧ w.getLsbD 1 = true ∨ addr.toNat / 4 = 0x10 / 4 ∧ w.getLsbD 0 = false ∨
        addr.toNat / 4 = 0x28 / 4 → t.irq = false))

/-! ### The invariant -/

/-- Every step answers a next state and keeps the invariant: canonical coefficients, EMPTY registers zero, the memory
in canonical form and inside M, a conforming MEM_BYTES, a consistent STATUS, only holding accesses held, a zero scratch
(R10, R16, R31, R34, R38, R45, R460; the form of the memory and the last clause are the model's). -/
def Obligations.InvariantKept : Prop := ∀ s : State, s.Inv → ∃ t, step s = .next t ∧ t.Inv

/-- The invariant holds at reset. -/
def Obligations.InvariantAtReset : Prop := State.reset.Inv

/-! ### Reset and the host's two ports (spec/10_state.md R36-R42, R48; spec/20_memory.md R71, R72;
spec/70_reset_and_hazards.md R450-R454) -/

/-- The reset values of R48; the zero polynomial and the zero scratch, written out. -/
def Obligations.ResetValues : Prop :=
  Poly.zero.coeffs = List.replicate 256 0 ∧
  Scratch.zero = { a := Vector.replicate 16 Poly.zero, s := Vector.replicate 4 Poly.zero,
                   e := Vector.replicate 4 Poly.zero, r := Vector.replicate 4 Poly.zero,
                   e1 := Vector.replicate 4 Poly.zero, t := Vector.replicate 4 Poly.zero,
                   u := Vector.replicate 4 Poly.zero, e2 := Poly.zero, v := Poly.zero, w := Poly.zero,
                   m := Vector.replicate 32 0, kbar := Vector.replicate 32 0, coins := Vector.replicate 32 0,
                   ct := Vector.replicate 1568 0 } ∧
  IsReset State.reset ∧ State.reset.csrWord 0x00 = 0x4B594252 ∧ State.reset.csrWord 0x04 = 0x00200110 ∧
    ∀ addr : Byte, 2 ≤ addr.toNat / 4 → State.reset.csrWord addr = 0

/-- The reset step takes every state, whatever the core or the host is doing, to the reset values, and MEM_BYTES stays;
after it nothing but the host's accesses is to come (R450-R454; the queue stays by log 5). -/
def Obligations.ResetStep : Prop :=
  ∀ (s : State) (rest : List Agent), s.sched = .reset :: rest →
    ∃ t, step s = .next t ∧ IsReset t ∧ t.memBytes = s.memBytes ∧ t.hostQueue = s.hostQueue ∧ t.sched = rest ∧
      ((∀ addr, s.held ≠ some (.csrRead addr)) → t.csrRdata = s.csrRdata) ∧
      ((∀ i, s.held ≠ some (.bufRead i)) → t.bufRdata = s.bufRdata)

/-- What a CSR read returns at each of the 256 offsets, and that it has no side effect (R36-R42, R71, R78). -/
def Obligations.CsrRead : Prop :=
  ∀ (s : State) (addr : Byte), s.Conforming → Performs s (.csrRead addr) →
    ∃ t, step s = .next t ∧
      t.csrRdata.toNat =
        (match addr.toNat / 4 * 4 with
        | 0x00 => 0x4B594252
        | 0x04 => 16 + 2 ^ 8 * 1 + 2 ^ 16 * (s.memBytes / 256)
        | 0x08 => (match s.level with | .level1 => 0 | .level3 => 1 | .level5 => 2)
        | 0x0C => s.isBusy.toNat + 2 * s.status.done.toNat + 4 * s.status.err.toNat + 8 * s.status.ncan.toNat +
            2 ^ 8 * (match s.status.errcode with
              | .ok => 0 | .illegalOpcode => 1 | .reservedField => 2 | .badParam => 3 | .addrRange => 4
              | .uninit => 5 | .domain => 6)
        | 0x10 => s.doneIe.toNat
        | 0x20 => s.cmd0.toNat
        | 0x24 => s.cmd1.toNat
        | 0x28 => s.cmd2.toNat
        | _ => 0) ∧
      t = { s with csrRdata := t.csrRdata, held := none, sched := s.sched.tail,
                   hostQueue := if s.held.isSome then s.hostQueue else s.hostQueue.tail }

/-- What a performed CSR write does at each offset but CMD2's, and that it changes nothing else: CFG takes LEVEL unless
it is 3, STATUS clears DONE and NCAN where 1 is written, IRQEN takes bit 0, CMD0 and CMD1 take the word, and every
other offset ignores the write (R36-R42, R71). -/
def Obligations.CsrWrite : Prop :=
  ∀ (s : State) (addr : Byte) (w : Word), Performs s (.csrWrite addr w) → addr.toNat / 4 ≠ 0x28 / 4 →
    ∃ t, step s = .next t ∧
      t.level = (if addr.toNat / 4 * 4 = 0x08 then
        (match w.toNat % 4 with | 0 => .level1 | 1 => .level3 | 2 => .level5 | _ => s.level) else s.level) ∧
      t.status = (if addr.toNat / 4 * 4 = 0x0C then
        ⟨s.status.done && !w.getLsbD 1, s.status.err, s.status.ncan && !w.getLsbD 3, s.status.errcode⟩
        else s.status) ∧
      t.doneIe = (if addr.toNat / 4 * 4 = 0x10 then w.getLsbD 0 else s.doneIe) ∧
      t.cmd0 = (if addr.toNat / 4 * 4 = 0x20 then w else s.cmd0) ∧
      t.cmd1 = (if addr.toNat / 4 * 4 = 0x24 then w else s.cmd1) ∧
      t = { s with level := t.level, status := t.status, doneIe := t.doneIe, cmd0 := t.cmd0, cmd1 := t.cmd1,
                   held := none, sched := s.sched.tail,
                   hostQueue := if s.held.isSome then s.hostQueue else s.hostQueue.tail }

/-- The buffer port (R72): little-endian words, byte enables, 0 and no effect outside M, held while BUSY and performed
after it, no other effect; and `MemRead` of R74 is a string of the same bytes. -/
def Obligations.BufferPort : Prop :=
  (∀ (s : State) (a n : Nat), s.memRead a n = (List.range n).map fun i => Memory.read s.mem (a + i)) ∧
  (∀ (s : State) (w : BitVec 14), Performs s (.bufRead w) →
    ∃ t, step s = .next t ∧
      t.bufRdata.toNat = (if 4 * w.toNat + 3 < s.memBytes then
        (Memory.read s.mem (4 * w.toNat)).toNat + 2 ^ 8 * (Memory.read s.mem (4 * w.toNat + 1)).toNat +
          2 ^ 16 * (Memory.read s.mem (4 * w.toNat + 2)).toNat + 2 ^ 24 * (Memory.read s.mem (4 * w.toNat + 3)).toNat
        else 0) ∧
      t = { s with bufRdata := t.bufRdata, held := none, sched := s.sched.tail,
                   hostQueue := if s.held.isSome then s.hostQueue else s.hostQueue.tail }) ∧
  (∀ (s : State) (w : BitVec 14) (be : BitVec 4) (wdata : Word), Memory.wf s.mem = true →
    Performs s (.bufWrite w be wdata) →
    ∃ t, step s = .next t ∧
      (∀ a, Memory.read t.mem a =
        if 4 * w.toNat + 3 < s.memBytes ∧ 4 * w.toNat ≤ a ∧ a ≤ 4 * w.toNat + 3 ∧ be.getLsbD (a - 4 * w.toNat) = true
        then wdata.extractLsb' (8 * (a - 4 * w.toNat)) 8 else Memory.read s.mem a) ∧
      t = { s with mem := t.mem, held := none, sched := s.sched.tail,
                   hostQueue := if s.held.isSome then s.hostQueue else s.hostQueue.tail }) ∧
  (∀ (s : State) (a : HostAction) (rest : List HostAction),
    (∃ w, a = .bufRead w) ∨ (∃ w be wdata, a = .bufWrite w be wdata) →
    s.run = .busy → s.agent = .host → s.held = none → s.hostQueue = a :: rest →
    step s = .next { s with held := some a, hostQueue := rest, sched := s.sched.tail }) ∧
  (∀ (s : State) (a : HostAction), (∃ w, a = .bufRead w) ∨ (∃ w be wdata, a = .bufWrite w be wdata) →
    s.run = .idle → s.held = some a → s.sched.head? ≠ some .reset → Performs s a)

/-! ### The arithmetic units (spec/41_modular_arith.md, spec/42_ntt.md) -/

/-- The coefficient units and the two butterflies, exact mod q (R140-R142, R180, R181), addition and subtraction lane by
lane, and base multiplication pair by pair (R143). -/
def Obligations.CoefficientUnits : Prop :=
  (∀ a b z : Coeff,
    (modadd a b).toNat = (a.toNat + b.toNat) % 3329 ∧
    ((modsub a b).toNat : Int) = ((a.toNat : Int) - b.toNat) % 3329 ∧
    (modmul a b).toNat = a.toNat * b.toNat % 3329 ∧
    ctBfly a b z = (modadd a (modmul z b), modsub a (modmul z b)) ∧
    gsBfly a b z = (modadd a b, modmul z (modsub b a))) ∧
  (∀ (f g : Poly), ∀ j < 256, (polyAdd f g).get j = modadd (f.get j) (g.get j) ∧
    (polySub f g).get j = modsub (f.get j) (g.get j)) ∧
  ∀ (f g : Poly), ∀ i < 128,
    ((basemul f g).get (2 * i)).toNat = ((f.get (2 * i)).toNat * (g.get (2 * i)).toNat +
      (f.get (2 * i + 1)).toNat * (g.get (2 * i + 1)).toNat * gamma i) % 3329 ∧
    ((basemul f g).get (2 * i + 1)).toNat = ((f.get (2 * i)).toNat * (g.get (2 * i + 1)).toNat +
      (f.get (2 * i + 1)).toNat * (g.get (2 * i)).toNat) % 3329

/-- The arithmetic laws of R152. -/
def Obligations.ArithmeticLaws : Prop :=
  (∀ a b : Coeff, modadd a b = modadd b a ∧ modmul a b = modmul b a) ∧
  (∀ a b c : Coeff, modadd (modadd a b) c = modadd a (modadd b c) ∧ modmul (modmul a b) c = modmul a (modmul b c) ∧
    modmul a (modadd b c) = modadd (modmul a b) (modmul a c)) ∧
  (∀ a b : Coeff, modsub a b = modadd a (modsub 0 b)) ∧
  (∀ a b : Coeff, a.toNat < 3329 → modsub (modadd a b) b = a) ∧
  (∀ f g : Poly, basemul f g = basemul g f) ∧
  (∀ f f' g : Poly, basemul (polyAdd f f') g = polyAdd (basemul f g) (basemul f' g)) ∧
  (∀ (c : Coeff) (f g : Poly), basemul (scale c f) g = scale c (basemul f g)) ∧
  (∀ a b : Coeff, (modadd a b).toNat < 3329 ∧ (modsub a b).toNat < 3329 ∧ (modmul a b).toNat < 3329) ∧
  (∀ f g : Poly, (basemul f g).canonical)

/-- The constant tables are those of their generators: the powers of 17 in bit-reversed order, the inverse of 128, the
rotation offsets and the LFSR's round constants (R182, R282, R285); and the parameters of the three levels are those of
R8, with the byte sizes that R9 gives as numbers. -/
def Obligations.ConstantTables : Prop :=
  (Config.n = 256 ∧ Config.q = 3329 ∧
    ∀ lv : Level, (lv.code, lv.k, lv.eta1, lv.eta2, lv.du, lv.dv) =
        (match lv with
          | .level1 => (0, 2, 3, 2, 10, 4)
          | .level3 => (1, 3, 2, 2, 10, 4)
          | .level5 => (2, 4, 2, 2, 11, 5)) ∧
      (lv.pkBytes, lv.skBytes, lv.ctBytes) =
        (match lv with
          | .level1 => (800, 1632, 768)
          | .level3 => (1184, 2400, 1088)
          | .level5 => (1568, 3168, 1568)) ∧
      lv.pkBytes = 384 * lv.k + 32 ∧ lv.skBytes = 768 * lv.k + 96 ∧ lv.ctBytes = 32 * (lv.k * lv.du + lv.dv)) ∧
  (zetaTable.length = 128 ∧ gammaTable.length = 128 ∧
    ∀ i < 128, (zetaTable.getD i 0).toNat = zeta i ∧ (gammaTable.getD i 0).toNat = gamma i) ∧
  (17 ^ 128 % 3329 = 3328 ∧ 17 ^ 256 % 3329 = 1 ∧ br7 1 = 64 ∧ br7 2 = 32 ∧ 3 ^ 1937 % 3329 = 17 ∧
    (∀ e, 0 < e → e < 3328 → 3 ^ e % 3329 ≠ 1) ∧
    ninv.toNat = 3303 ∧ 128 * ninv.toNat % 3329 = 1 ∧
    ∀ j < 64, (gammaTable.getD (2 * j + 1) 0).toNat = 3329 - (gammaTable.getD (2 * j) 0).toNat) ∧
  (rotationOffsets[0][0] = 0 ∧
    (∀ t < 24, rotationOffsets[(rhoWalk t).2][(rhoWalk t).1] = (t + 1) * (t + 2) / 2 % 64) ∧
    ∀ x y : Fin 5, (x, y) = (0, 0) ∨ ∃ t < 24, rhoWalk t = (x, y)) ∧
  roundConstants = (List.range 24).map roundConstant

/-- The transform and its inverse are the loops of R183 and R184, in place, with k counting up and down. -/
def Obligations.TransformLoops : Prop :=
  ∀ f : Poly, (ntt f).coeffs = nttLoop f.coeffs ∧ (intt f).coeffs = inttLoop f.coeffs

/-- The round-trip laws (R187). -/
def Obligations.TransformRoundTrip : Prop :=
  ∀ f : Poly, f.canonical → intt (ntt f) = f ∧ ntt (intt f) = f

/-- The meaning of the NTT domain: pair i holds the coefficients of f mod (X^2 - GAMMA[i]) (R189). -/
def Obligations.TransformResidues : Prop :=
  ∀ (f : Poly), ∀ i < 128,
    ((ntt f).get (2 * i)).toNat = (∑ j ∈ Finset.range 128, (f.get (2 * j)).toNat * gamma i ^ j) % 3329 ∧
    ((ntt f).get (2 * i + 1)).toNat = (∑ j ∈ Finset.range 128, (f.get (2 * j + 1)).toNat * gamma i ^ j) % 3329

/-- The product law: the transform carries base multiplication to the product in Z_q[X]/(X^256 + 1) (R188). -/
def Obligations.TransformProduct : Prop :=
  ∀ (a b : Poly), ∀ m < 256,
    (((intt (basemul (ntt a) (ntt b))).get m).toNat : Int) =
      (∑ i ∈ Finset.range 256, ∑ j ∈ Finset.range 256,
        if i + j = m then ((a.get i).toNat : Int) * (b.get j).toNat
        else if i + j = m + 256 then -(((a.get i).toNat : Int) * (b.get j).toNat) else 0) % 3329

/-! ### Hashing (spec/45_hash.md) -/

/-- The lanes of a 200-byte string and the steps θ, ρ and π, χ, ι of a round, lane by lane, and the 24 rounds
(R280, R281, R283, R284, R286). -/
def Obligations.KeccakPermutation : Prop :=
  (∀ (S : List Byte) (x y : Fin 5) (j b : Nat), S.length = 200 → j < 8 → b < 8 →
    (lane (lanesOfBytes S) x y).getLsbD (8 * j + b) = (S.getD (8 * (x.val + 5 * y.val) + j) 0).getLsbD b) ∧
  (∀ A : KState, (bytesOfLanes A).length = 200 ∧ lanesOfBytes (bytesOfLanes A) = A) ∧
  (∀ (A : KState) (x y : Fin 5),
    lane (theta A) x y = lane A x y ^^^
      ((lane A (x - 1) 0 ^^^ lane A (x - 1) 1 ^^^ lane A (x - 1) 2 ^^^ lane A (x - 1) 3 ^^^ lane A (x - 1) 4) ^^^
        (lane A (x + 1) 0 ^^^ lane A (x + 1) 1 ^^^ lane A (x + 1) 2 ^^^ lane A (x + 1) 3 ^^^
          lane A (x + 1) 4).rotateLeft 1) ∧
    lane (rhoPi A) y (2 * x + 3 * y) = (lane A x y).rotateLeft (rotationOffsets[y][x]) ∧
    lane (chi A) x y = lane A x y ^^^ (~~~(lane A (x + 1) y) &&& lane A (x + 2) y) ∧
    ∀ rc : Lane, lane (iota rc A) x y = if x = 0 ∧ y = 0 then lane A 0 0 ^^^ rc else lane A x y) ∧
  (∀ A : KState, keccakF A =
    (List.range 24).foldl (fun A ir => iota (roundConstants.getD ir 0) (chi (rhoPi (theta A)))) A)

/-- The sponge: the padding byte by byte, the XOR of a block and the absorption block by block (R287), and every byte of
the output, so that a shorter output begins a longer one (R288); `keccak_f` on a string of 200 bytes is the permutation of
its lanes (R280, R286, R287); and the hashes bound to it: the four instances of R289, the PRF (R291), H, G with its first
half first, and KDF (R292). -/
def Obligations.SpongeBytes : Prop :=
  (∀ (r : Nat) (sfx : Byte) (Mg : List Byte), 0 < r → r < 200 → 8 ∣ r →
    (∃ z < r, (pad Mg r sfx).length = Mg.length + 1 + z ∧ r ∣ Mg.length + 1 + z ∧
      ∀ i < Mg.length + 1 + z, (pad Mg r sfx).getD i 0 =
        (if i < Mg.length then Mg.getD i 0 else if i = Mg.length then sfx else 0) |||
          (if i = Mg.length + z then 0x80 else 0)) ∧
    (∀ (S block : List Byte), S.length = 200 → block.length = r → ∀ i < 200,
      (xorBlock S block).getD i 0 = if i < r then S.getD i 0 ^^^ block.getD i 0 else S.getD i 0) ∧
    absorb Mg r sfx = (List.range ((pad Mg r sfx).length / r)).foldl
      (fun S i => keccakBytes (xorBlock S (((pad Mg r sfx).drop (r * i)).take r))) (List.replicate 200 0) ∧
    (∀ l : Nat, (sponge r sfx Mg l).length = l ∧
      ∀ i < l, (sponge r sfx Mg l).getD i 0 = ((keccakBytes^[i / r]) (absorb Mg r sfx)).getD (i % r) 0) ∧
    (∀ l l' : Nat, l ≤ l' → sponge r sfx Mg l = (sponge r sfx Mg l').take l)) ∧
  (∀ S : List Byte, keccakBytes S = bytesOfLanes (keccakF (lanesOfBytes S))) ∧
  (∀ (Mg : List Byte) (l : Nat), sha3_256 Mg = sponge 136 0x06 Mg 32 ∧ sha3_512 Mg = sponge 72 0x06 Mg 64 ∧
    shake128 Mg l = sponge 168 0x1F Mg l ∧ shake256 Mg l = sponge 136 0x1F Mg l) ∧
  (∀ (seed : List Byte) (nonce : Byte) (eta : Nat),
    prf seed nonce eta = sponge 136 0x1F (seed ++ [nonce]) (64 * eta)) ∧
  (∀ Mg : List Byte,
    hashH Mg = sponge 136 0x06 Mg 32 ∧ (hashH Mg).length = 32 ∧
    (hashG Mg).1 ++ (hashG Mg).2 = sponge 72 0x06 Mg 64 ∧ (hashG Mg).1.length = 32 ∧ (hashG Mg).2.length = 32 ∧
    kdf Mg = sponge 136 0x1F Mg 32 ∧ (kdf Mg).length = 32)

/-! ### Sampling (spec/43_sampling.md) -/

/-- The centered binomial sampler's formula and its range (R210), and one noise polynomial from a seed and a nonce (R211,
R212). -/
def Obligations.CenteredBinomial : Prop :=
  (∀ (seed : List Byte) (nonce : Byte) (eta : Nat), sampleCbd seed nonce eta =
    cbd (sponge 136 0x1F (seed ++ [nonce]) (64 * eta)) eta) ∧
  ∀ (eta : Nat) (B : List Byte), eta ∈ [2, 3] → B.length = 64 * eta → ∀ i < 256,
    (((cbd B eta).get i).toNat : Int) =
      (∑ j ∈ Finset.range eta, ((bit B (2 * i * eta + j)).toNat : Int) -
        ∑ j ∈ Finset.range eta, ((bit B (2 * i * eta + eta + j)).toNat : Int)) % 3329 ∧
    (((cbd B eta).get i).toNat ≤ eta ∨
      3329 - eta ≤ ((cbd B eta).get i).toNat ∧ ((cbd B eta).get i).toNat < 3329)

/-- `parse` is the rejection loop of R221 with the candidates of R220, on the part of the stream that is read, and
`sample_uniform` is `parse` of the first blocks of the SHAKE128 stream of rho ‖ x ‖ y (R222, R290; how many blocks are read
is the model's, log 4). -/
def Obligations.RejectionLoop : Prop :=
  (∀ S : List Byte, (parse S).map (fun f => f.coeffs.map BitVec.toNat) = parseLoop S []) ∧
  ∀ (blocks : Nat) (rho : List Byte) (x y : Byte),
    sampleUniform blocks rho x y = parse (sponge 168 0x1F (rho ++ [x, y]) (168 * blocks))

/-! ### The codec (spec/44_codec.md) -/

/-- Bit packing: bit t of a string is bit t mod 8 of byte t / 8; the bits of `byte_encode`, the sums of `byte_decode`, and
that each undoes the other (R240, R241). -/
def Obligations.BitPacking : Prop :=
  (∀ (B : List Byte) (t : Nat), bit B t = (B.getD (t / 8) 0).toNat.testBit (t % 8)) ∧
  ∀ d, 1 ≤ d → d ≤ 12 →
    (∀ f : List Nat, f.length = 256 → (∀ x ∈ f, x < 2 ^ d) →
      (byteEncode f d).length = 32 * d ∧
      (∀ i < 256, ∀ j < d, bit (byteEncode f d) (i * d + j) = (f.getD i 0).testBit j) ∧
      byteDecode (byteEncode f d) d = f) ∧
    (∀ E : List Byte, E.length = 32 * d →
      (byteDecode E d).length = 256 ∧ (∀ i < 256, (byteDecode E d).getD i 0 = group E d i ∧ group E d i < 2 ^ d) ∧
      byteEncode (byteDecode E d) d = E)

/-- Compression and decompression are the rounded quotients of R244 and R245, with R15's rounding: no tie in
compression, the one tie of decompression rounds up, and every output is in range. -/
def Obligations.CompressionRounding : Prop :=
  ∀ d, 1 ≤ d → d ≤ 11 →
    (∀ x < 3329, compress x d = ⌊(x : ℚ) * 2 ^ d / 3329 + 1 / 2⌋₊ % 2 ^ d ∧
      ∀ k : ℕ, (x : ℚ) * 2 ^ d / 3329 ≠ k + 1 / 2) ∧
    (∀ y < 2 ^ d, decompress y d = ⌊(y : ℚ) * 3329 / 2 ^ d + 1 / 2⌋₊ ∧ decompress y d < 3329 ∧
      ((∃ k : ℕ, (y : ℚ) * 3329 / 2 ^ d = k + 1 / 2) ↔ y = 2 ^ (d - 1)))

/-- The error bound of compression, and that it is reached at every width (R246). -/
def Obligations.CompressionErrorBound : Prop :=
  ∀ d, 1 ≤ d → d ≤ 11 →
    (∀ x < 3329, ringDistance (decompress (compress x d) d) x ≤ ⌊(3329 : ℚ) / 2 ^ (d + 1) + 1 / 2⌋₊) ∧
    (∃ x < 3329, ringDistance (decompress (compress x d) d) x = ⌊(3329 : ℚ) / 2 ^ (d + 1) + 1 / 2⌋₊)

/-- The message codec: bit i of an encoded polynomial is `compress(w[i], 1)` whatever the polynomial, bits decode to 0 or
1665, and 833..2496 become 1 (R249). So a polynomial within 831 of a decoded message in every coefficient encodes to that
message: this margin is in no rule, and follows from R244, R245 and R249. -/
def Obligations.MessageCodec : Prop :=
  (∀ x < 3329, compress x 1 = 1 ↔ 833 ≤ x ∧ x ≤ 2496) ∧
  (∀ m : List Byte, m.length = 32 → ∀ i < 256,
    ((msgDecode m).get i).toNat = if bit m i then 1665 else 0) ∧
  (∀ w : Poly, (msgEncode w).length = 32 ∧
    ∀ i < 256, (bit (msgEncode w) i).toNat = compress (w.get i).toNat 1) ∧
  (∀ (m : List Byte) (w : Poly), m.length = 32 → w.canonical →
    (∀ i < 256, ringDistance (w.get i).toNat ((msgDecode m).get i).toNat ≤ 831) → msgEncode w = m)

/-! ### The KEM (spec/46_kem.md) -/

/-- The compare and the select of DECAPS: equality of equally long strings, and a choice (R328). -/
def Obligations.CompareAndSelect : Prop :=
  (∀ a b : List Byte, a.length = b.length → (ctEqual a b = true ↔ a = b)) ∧
  (∀ (eq : Bool) (x y : List Byte), x.length = 32 → y.length = 32 → ctSelect eq x y = if eq then x else y)

/-- A key pair: its sizes and layout, and, group by group, that the secret key packs s and the public key packs
t = A∘s + e, both canonical and in the NTT domain (R9, R320, R321, R324, R325). -/
def Obligations.KeyPair : Prop :=
  ∀ (lv : Level) (blocks : Nat) (d z pk sk : List Byte), z.length = 32 → kemKeygen lv blocks d z = some (pk, sk) →
    pk.length = 384 * lv.k + 32 ∧ sk.length = 768 * lv.k + 96 ∧
    part pk (384 * lv.k) 32 = (hashG d).1 ∧
    part sk (384 * lv.k) (384 * lv.k + 32) = pk ∧ part sk (768 * lv.k + 32) 32 = hashH pk ∧
    part sk (768 * lv.k + 64) 32 = z ∧
    ∃ (A : Nat → Nat → Poly) (s e : Nat → Poly),
      (∀ i < lv.k, ∀ j < lv.k, sampleUniform blocks (hashG d).1 (BitVec.ofNat 8 j) (BitVec.ofNat 8 i) = some (A i j)) ∧
      (∀ i < lv.k, s i = ntt (sampleCbd (hashG d).2 (BitVec.ofNat 8 i) lv.eta1) ∧
        e i = ntt (sampleCbd (hashG d).2 (BitVec.ofNat 8 (lv.k + i)) lv.eta1)) ∧
      ∀ i < lv.k, ∃ g, SumOfProducts lv.k (A i) s g ∧ ∀ j < 256,
        group sk 12 (256 * i + j) = ((s i).get j).toNat ∧
        group pk 12 (256 * i + j) = ((g.get j).toNat + ((e i).get j).toNat) % 3329

/-- A ciphertext: its size, and, group by group, that it packs u = Aᵗ∘r + e1 and v = tᵗ∘r + e2 + the message, with t from
the key's 12-bit groups mod q, in the order and with the nonces and widths of R322 and R324. -/
def Obligations.Ciphertext : Prop :=
  ∀ (lv : Level) (blocks : Nat) (pk m coins c : List Byte), cpaEncrypt lv blocks pk m coins = some c →
    c.length = 32 * (lv.k * lv.du + lv.dv) ∧
    ∃ (A : Nat → Nat → Poly) (t r : Nat → Poly),
      (∀ i < lv.k, ∀ j < lv.k,
        sampleUniform blocks (part pk (384 * lv.k) 32) (BitVec.ofNat 8 i) (BitVec.ofNat 8 j) = some (A i j)) ∧
      (∀ i < lv.k, r i = ntt (sampleCbd coins (BitVec.ofNat 8 i) lv.eta1) ∧
        ∀ j < 256, ((t i).get j).toNat = group pk 12 (256 * i + j) % 3329) ∧
      (∀ i < lv.k, ∃ g, SumOfProducts lv.k (A i) r g ∧ ∀ j < 256,
        group c lv.du (256 * i + j) =
          compress ((((intt g).get j).toNat +
            ((sampleCbd coins (BitVec.ofNat 8 (lv.k + i)) lv.eta2).get j).toNat) % 3329) lv.du) ∧
      ∃ g, SumOfProducts lv.k t r g ∧ ∀ j < 256,
        group (c.drop (32 * lv.du * lv.k)) lv.dv j =
          compress ((((intt g).get j).toNat + ((sampleCbd coins (BitVec.ofNat 8 (2 * lv.k)) lv.eta2).get j).toNat +
            if bit m j then 1665 else 0) % 3329) lv.dv

/-- Decryption: bit j of the result is `compress(w[j], 1)` with w = v - intt(the sum of the base products of s with
ntt(u)), u and v decompressed from the ciphertext's groups, and s the key's 12-bit groups mod q; every secret key and
every ciphertext gives 32 bytes (R323). -/
def Obligations.Decryption : Prop :=
  ∀ (lv : Level) (sk c : List Byte),
    (cpaDecrypt lv sk c).length = 32 ∧
    ∃ (s u : Nat → Poly) (g : Poly),
      (∀ i < lv.k, ∀ j < 256, ((s i).get j).toNat = group sk 12 (256 * i + j) % 3329 ∧
        ((u i).get j).toNat = decompress (group c lv.du (256 * i + j)) lv.du) ∧
      SumOfProducts lv.k s (fun i => ntt (u i)) g ∧
      ∀ j < 256, (bit (cpaDecrypt lv sk c) j).toNat =
        compress (((decompress (group (c.drop (32 * lv.du * lv.k)) lv.dv j) lv.dv : Int) - ((intt g).get j).toNat) %
          3329).toNat 1

/-- The KEM procedures give a result exactly when the part of the streams that is read fills the whole matrix, whatever
the other inputs are: nothing else can keep a KEM command from completing (R320, R325-R327; how much of the streams is
read is the model's, log 4). -/
def Obligations.KemStreams : Prop :=
  ∀ (lv : Level) (blocks : Nat),
    (∀ d z : List Byte, (kemKeygen lv blocks d z).isSome ↔
      ∀ i < lv.k, ∀ j < lv.k, (sampleUniform blocks (hashG d).1 (BitVec.ofNat 8 j) (BitVec.ofNat 8 i)).isSome) ∧
    (∀ pk m : List Byte, (kemEncaps lv blocks pk m).isSome ↔
      ∀ i < lv.k, ∀ j < lv.k,
        (sampleUniform blocks (part pk (384 * lv.k) 32) (BitVec.ofNat 8 i) (BitVec.ofNat 8 j)).isSome) ∧
    (∀ sk c : List Byte, (kemDecaps lv blocks sk c).isSome ↔
      ∀ i < lv.k, ∀ j < lv.k,
        (sampleUniform blocks (part sk (768 * lv.k) 32) (BitVec.ofNat 8 i) (BitVec.ofNat 8 j)).isSome)

/-- Decapsulation gives KDF(Kbar' ‖ H(c)) when the re-encryption matches and KDF(z ‖ H(c)) when it does not
(R327, R335). -/
def Obligations.ImplicitRejection : Prop :=
  ∀ (lv : Level) (blocks : Nat) (sk c c' m' : List Byte), sk.length = 768 * lv.k + 96 →
    c.length = 32 * (lv.k * lv.du + lv.dv) →
    m' = cpaDecrypt lv (part sk 0 (384 * lv.k)) c →
    cpaEncrypt lv blocks (part sk (384 * lv.k) (384 * lv.k + 32)) m' (hashG (m' ++ part sk (768 * lv.k + 32) 32)).2 =
      some c' →
    (c = c' → kemDecaps lv blocks sk c =
      some (kdf ((hashG (m' ++ part sk (768 * lv.k + 32) 32)).1 ++ hashH c))) ∧
    (c ≠ c' → kemDecaps lv blocks sk c = some (kdf (part sk (768 * lv.k + 64) 32 ++ hashH c)))

/-- The KEM round trip: for a public key and a secret key that holds it and its hash, as every key pair does (KeyPair),
decapsulating an encapsulation gives the encapsulated secret, wherever the CPA primitive decrypts correctly, which is
R335's caveat. -/
def Obligations.KemRoundTrip : Prop :=
  ∀ (lv : Level) (blocks : Nat) (pk sk m c K : List Byte), sk.length = 768 * lv.k + 96 →
    part sk (384 * lv.k) (384 * lv.k + 32) = pk → part sk (768 * lv.k + 32) 32 = hashH pk →
    kemEncaps lv blocks pk m = some (c, K) → cpaDecrypt lv (part sk 0 (384 * lv.k)) c = m →
    kemDecaps lv blocks sk c = some K

/-! ### The commands: completion, result, frame and errors -/

/-- NOP and ZEROIZE (R370, R371): NOP completes and does nothing else; ZEROIZE completes, wipes M, P and the scratch,
and changes nothing else. -/
def Obligations.NopAndZeroize : Prop :=
  EncodedBy .nop 0x00 0xFFFFFFFFFFFFFFFFFFFFFF00 ∧ encode .nop = 0 ∧
  EncodedBy .zeroize 0x30 0xFFFFFFFFFFFFFFFFFFFFFF00 ∧
  ∀ s : State,
    (∃ t, exec .nop s = .next t ∧ CompletedWith .ok s t ∧ SamePolys s t ∧ SameMemory s t ∧ t.scratch = s.scratch ∧
      t.status.ncan = s.status.ncan) ∧
    (∃ t, exec .zeroize s = .next t ∧ CompletedWith .ok s t ∧ (∀ r : Reg, t.poly r = ⟨.empty, Poly.zero⟩) ∧
      (∀ a, Memory.read t.mem a = 0) ∧ t.scratch = Scratch.zero ∧ t.status.ncan = s.status.ncan)

/-- PADD and PSUB (R146, R147): lane by lane with the sources' tag; UNINIT if a source is EMPTY, DOMAIN if the tags
differ. -/
def Obligations.PaddAndPsub : Prop :=
  ∀ (rd rs1 rs2 : Reg) (s : State),
    EncodedBy (.padd rd rs1 rs2) 0x01 0xFFFFFFFFFFFFFFFFFFF00000 ∧
    EncodedBy (.psub rd rs1 rs2) 0x02 0xFFFFFFFFFFFFFFFFFFF00000 ∧
    ((s.poly rs1).tag ≠ .empty → (s.poly rs2).tag ≠ .empty → (s.poly rs1).tag = (s.poly rs2).tag →
      (∃ t f, exec (.padd rd rs1 rs2) s = .next t ∧ WroteRegister rd (s.poly rs1).tag f false s t ∧
        ∀ j < 256, (f.get j).toNat = (((s.poly rs1).f.get j).toNat + ((s.poly rs2).f.get j).toNat) % 3329) ∧
      (∃ t f, exec (.psub rd rs1 rs2) s = .next t ∧ WroteRegister rd (s.poly rs1).tag f false s t ∧
        ∀ j < 256, ((f.get j).toNat : Int) =
          ((((s.poly rs1).f.get j).toNat : Int) - ((s.poly rs2).f.get j).toNat) % 3329)) ∧
    ((s.poly rs1).tag = .empty ∨ (s.poly rs2).tag = .empty →
      (∃ t, exec (.padd rd rs1 rs2) s = .next t ∧ FailedWith .uninit s t) ∧
      (∃ t, exec (.psub rd rs1 rs2) s = .next t ∧ FailedWith .uninit s t)) ∧
    ((s.poly rs1).tag ≠ .empty → (s.poly rs2).tag ≠ .empty → (s.poly rs1).tag ≠ (s.poly rs2).tag →
      (∃ t, exec (.padd rd rs1 rs2) s = .next t ∧ FailedWith .domain s t) ∧
      (∃ t, exec (.psub rd rs1 rs2) s = .next t ∧ FailedWith .domain s t))

/-- PBMUL and PBMAC (R143, R148, R149): the product of the two residues of every pair, added to the old rd by PBMAC;
UNINIT if a source (for PBMAC also rd) is EMPTY, DOMAIN if one is NORMAL. -/
def Obligations.PbmulAndPbmac : Prop :=
  ∀ (rd rs1 rs2 : Reg) (s : State),
    EncodedBy (.pbmul rd rs1 rs2) 0x03 0xFFFFFFFFFFFFFFFFFFF00000 ∧
    EncodedBy (.pbmac rd rs1 rs2) 0x04 0xFFFFFFFFFFFFFFFFFFF00000 ∧
    ((s.poly rs1).tag = .ntt → (s.poly rs2).tag = .ntt →
      ∃ t f, exec (.pbmul rd rs1 rs2) s = .next t ∧ WroteRegister rd .ntt f false s t ∧
        ∀ i < 128,
          (f.get (2 * i)).toNat =
            (((s.poly rs1).f.get (2 * i)).toNat * ((s.poly rs2).f.get (2 * i)).toNat +
              ((s.poly rs1).f.get (2 * i + 1)).toNat * ((s.poly rs2).f.get (2 * i + 1)).toNat * gamma i) % 3329 ∧
          (f.get (2 * i + 1)).toNat =
            (((s.poly rs1).f.get (2 * i)).toNat * ((s.poly rs2).f.get (2 * i + 1)).toNat +
              ((s.poly rs1).f.get (2 * i + 1)).toNat * ((s.poly rs2).f.get (2 * i)).toNat) % 3329) ∧
    ((s.poly rs1).tag = .ntt → (s.poly rs2).tag = .ntt → (s.poly rd).tag = .ntt →
      ∃ t f, exec (.pbmac rd rs1 rs2) s = .next t ∧ WroteRegister rd .ntt f false s t ∧
        ∀ i < 128,
          (f.get (2 * i)).toNat = (((s.poly rd).f.get (2 * i)).toNat +
            (((s.poly rs1).f.get (2 * i)).toNat * ((s.poly rs2).f.get (2 * i)).toNat +
              ((s.poly rs1).f.get (2 * i + 1)).toNat * ((s.poly rs2).f.get (2 * i + 1)).toNat * gamma i)) % 3329 ∧
          (f.get (2 * i + 1)).toNat = (((s.poly rd).f.get (2 * i + 1)).toNat +
            (((s.poly rs1).f.get (2 * i)).toNat * ((s.poly rs2).f.get (2 * i + 1)).toNat +
              ((s.poly rs1).f.get (2 * i + 1)).toNat * ((s.poly rs2).f.get (2 * i)).toNat)) % 3329) ∧
    ((s.poly rs1).tag = .empty ∨ (s.poly rs2).tag = .empty →
      ∃ t, exec (.pbmul rd rs1 rs2) s = .next t ∧ FailedWith .uninit s t) ∧
    ((s.poly rs1).tag ≠ .empty → (s.poly rs2).tag ≠ .empty →
      (s.poly rs1).tag = .normal ∨ (s.poly rs2).tag = .normal →
      ∃ t, exec (.pbmul rd rs1 rs2) s = .next t ∧ FailedWith .domain s t) ∧
    ((s.poly rs1).tag = .empty ∨ (s.poly rs2).tag = .empty ∨ (s.poly rd).tag = .empty →
      ∃ t, exec (.pbmac rd rs1 rs2) s = .next t ∧ FailedWith .uninit s t) ∧
    ((s.poly rs1).tag ≠ .empty → (s.poly rs2).tag ≠ .empty → (s.poly rd).tag ≠ .empty →
      (s.poly rs1).tag = .normal ∨ (s.poly rs2).tag = .normal ∨ (s.poly rd).tag = .normal →
      ∃ t, exec (.pbmac rd rs1 rs2) s = .next t ∧ FailedWith .domain s t)

/-- PZERO and PMOV (R150, R151). -/
def Obligations.PzeroAndPmov : Prop :=
  ∀ (rd rs1 : Reg) (d : BitVec 4) (s : State),
    EncodedBy (.pzero rd d) 0x05 0xFFFFFFFFFFFFFFFFFF0FF000 ∧
    EncodedBy (.pmov rd rs1) 0x06 0xFFFFFFFFFFFFFFFFFFFF0000 ∧
    (d = 0 → ∃ t, exec (.pzero rd d) s = .next t ∧ WroteRegister rd .normal Poly.zero false s t) ∧
    (d = 1 → ∃ t, exec (.pzero rd d) s = .next t ∧ WroteRegister rd .ntt Poly.zero false s t) ∧
    (2 ≤ d.toNat → ∃ t, exec (.pzero rd d) s = .next t ∧ FailedWith .badParam s t) ∧
    ((s.poly rs1).tag ≠ .empty →
      ∃ t, exec (.pmov rd rs1) s = .next t ∧ WroteRegister rd (s.poly rs1).tag (s.poly rs1).f false s t) ∧
    ((s.poly rs1).tag = .empty → ∃ t, exec (.pmov rd rs1) s = .next t ∧ FailedWith .uninit s t)

/-- NTT and INTT (R185, R186). -/
def Obligations.NttAndIntt : Prop :=
  ∀ (rd rs1 : Reg) (s : State),
    EncodedBy (.ntt rd rs1) 0x08 0xFFFFFFFFFFFFFFFFFFFF0000 ∧
    EncodedBy (.intt rd rs1) 0x09 0xFFFFFFFFFFFFFFFFFFFF0000 ∧
    ((s.poly rs1).tag = .normal →
      (∃ t, exec (.ntt rd rs1) s = .next t ∧ WroteRegister rd .ntt (ntt (s.poly rs1).f) false s t) ∧
      (∃ t, exec (.intt rd rs1) s = .next t ∧ FailedWith .domain s t)) ∧
    ((s.poly rs1).tag = .ntt →
      (∃ t, exec (.intt rd rs1) s = .next t ∧ WroteRegister rd .normal (intt (s.poly rs1).f) false s t) ∧
      (∃ t, exec (.ntt rd rs1) s = .next t ∧ FailedWith .domain s t)) ∧
    ((s.poly rs1).tag = .empty →
      (∃ t, exec (.ntt rd rs1) s = .next t ∧ FailedWith .uninit s t) ∧
      (∃ t, exec (.intt rd rs1) s = .next t ∧ FailedWith .uninit s t))

/-- SCBD (R211-R213). -/
def Obligations.Scbd : Prop :=
  ∀ (rd : Reg) (d : BitVec 4) (imm8 : Byte) (a : Half) (s : State),
    EncodedBy (.scbd rd d imm8 a) 0x10 0xFFFFFFFFFFFF0000000FF000 ∧
    (d = 2 ∨ d = 3 → a.toNat + 32 ≤ s.memBytes →
      ∃ t, exec (.scbd rd d imm8 a) s = .next t ∧
        WroteRegister rd .normal (cbd (shake256 (s.memRead a.toNat 32 ++ [imm8]) (64 * d.toNat)) d.toNat) false s t) ∧
    (d ≠ 2 → d ≠ 3 → ∃ t, exec (.scbd rd d imm8 a) s = .next t ∧ FailedWith .badParam s t) ∧
    (d = 2 ∨ d = 3 → s.memBytes < a.toNat + 32 →
      ∃ t, exec (.scbd rd d imm8 a) s = .next t ∧ FailedWith .addrRange s t)

/-- SAMU (R222, R223): where the part of the stream read in the step yields 256 candidates below q, the command completes
with them; in every case inside M it completes or reads further (R224, log 4). -/
def Obligations.Samu : Prop :=
  ∀ (rd : Reg) (x y : Byte) (a : Half) (s : State),
    EncodedBy (.samu rd x y a) 0x11 0xFFFFFF00FFFF000000FFF000 ∧
    (∀ f, a.toNat + 32 ≤ s.memBytes →
      parse (shake128 (s.memRead a.toNat 32 ++ [x, y]) (168 * s.streamBlocks)) = some f →
      ∃ t, exec (.samu rd x y a) s = .next t ∧ WroteRegister rd .ntt f false s t) ∧
    (a.toNat + 32 ≤ s.memBytes →
      ∃ t, exec (.samu rd x y a) s = .next t ∧
        ((∃ f : Poly, f.canonical ∧ WroteRegister rd .ntt f false s t) ∨ KeptSampling s t)) ∧
    (s.memBytes < a.toNat + 32 → ∃ t, exec (.samu rd x y a) s = .next t ∧ FailedWith .addrRange s t)

/-- SAMU ends as soon as the stream yields: if some number of blocks of the stream gives a polynomial, the core steps of
a running SAMU complete with that polynomial after at most that many steps more (R224). The tries of 37 blocks are the
model's (log 4), and so is that the core moves while BUSY when no schedule is given (log 6). -/
def Obligations.SamuCompletes : Prop :=
  ∀ (rd : Reg) (x y : Byte) (a : Half) (s : State) (n : Nat) (f : Poly),
    s.run = .busy → s.sched = [] → decode s.cur = .ok (.samu rd x y a) → a.toNat + 32 ≤ s.memBytes →
    sampleUniform n (s.memRead a.toNat 32) x y = some f →
    ∃ k t, k ≤ n ∧ s.after (k + 1) = .next t ∧ WroteRegister rd .ntt f false s t

/-- ENC12 (R242): 384 bytes whose 12-bit groups are the coefficients; either tag. -/
def Obligations.Enc12 : Prop :=
  ∀ (rs1 : Reg) (a : Half) (s : State), Memory.wf s.mem = true →
    EncodedBy (.enc12 rs1 a) 0x18 0xFFFFFFFFFFFF0000FFFF0F00 ∧
    (a.toNat + 384 ≤ s.memBytes → (s.poly rs1).tag ≠ .empty →
      ∃ t v, exec (.enc12 rs1 a) s = .next t ∧ v.length = 384 ∧ WroteBytes a.toNat v s t ∧
        ∀ i < 256, group v 12 i = ((s.poly rs1).f.get i).toNat) ∧
    (s.memBytes < a.toNat + 384 → ∃ t, exec (.enc12 rs1 a) s = .next t ∧ FailedWith .addrRange s t) ∧
    (a.toNat + 384 ≤ s.memBytes → (s.poly rs1).tag = .empty →
      ∃ t, exec (.enc12 rs1 a) s = .next t ∧ FailedWith .uninit s t)

/-- DEC12 (R243): each 12-bit group reduced mod q; NCAN is set if some group is 3329 or more and otherwise kept; and
DEC12 after ENC12 with the same tag restores the register exactly. -/
def Obligations.Dec12 : Prop :=
  (∀ (rd : Reg) (d : BitVec 4) (a : Half) (s : State),
    EncodedBy (.dec12 rd d a) 0x19 0xFFFFFFFFFFFF0000FF0FF000 ∧
    (d.toNat ≤ 1 → a.toNat + 384 ≤ s.memBytes →
      ∃ t f nc, exec (.dec12 rd d a) s = .next t ∧
        WroteRegister rd (if d = 0 then .normal else .ntt) f nc s t ∧
        (∀ i < 256, (f.get i).toNat = group (s.memRead a.toNat 384) 12 i % 3329) ∧
        (nc = true ↔ ∃ i < 256, 3329 ≤ group (s.memRead a.toNat 384) 12 i)) ∧
    (2 ≤ d.toNat → ∃ t, exec (.dec12 rd d a) s = .next t ∧ FailedWith .badParam s t) ∧
    (d.toNat ≤ 1 → s.memBytes < a.toNat + 384 →
      ∃ t, exec (.dec12 rd d a) s = .next t ∧ FailedWith .addrRange s t)) ∧
  (∀ (r : Reg) (d : BitVec 4) (a : Half) (s : State), s.Inv → d.toNat ≤ 1 →
    (s.poly r).tag = (if d = 0 then Tag.normal else Tag.ntt) → a.toNat + 384 ≤ s.memBytes →
    ∃ t u, exec (.enc12 r a) s = .next t ∧ exec (.dec12 r d a) t = .next u ∧ u.poly r = s.poly r ∧
      SamePolys s u ∧ u.status.ncan = s.status.ncan)

/-- CENC (R247): 32·d bytes whose d-bit groups are the compressed coefficients. -/
def Obligations.Cenc : Prop :=
  ∀ (rs1 : Reg) (d : BitVec 4) (a : Half) (s : State), Memory.wf s.mem = true →
    EncodedBy (.cenc rs1 d a) 0x1A 0xFFFFFFFFFFFF0000FF0F0F00 ∧
    (1 ≤ d.toNat → d.toNat ≤ 11 → a.toNat + 32 * d.toNat ≤ s.memBytes → (s.poly rs1).tag = .normal →
      ∃ t v, exec (.cenc rs1 d a) s = .next t ∧ v.length = 32 * d.toNat ∧ WroteBytes a.toNat v s t ∧
        ∀ i < 256, group v d.toNat i = compress ((s.poly rs1).f.get i).toNat d.toNat) ∧
    (d.toNat = 0 ∨ 12 ≤ d.toNat → ∃ t, exec (.cenc rs1 d a) s = .next t ∧ FailedWith .badParam s t) ∧
    (1 ≤ d.toNat → d.toNat ≤ 11 →
      (s.memBytes < a.toNat + 32 * d.toNat → ∃ t, exec (.cenc rs1 d a) s = .next t ∧ FailedWith .addrRange s t) ∧
      (a.toNat + 32 * d.toNat ≤ s.memBytes → (s.poly rs1).tag = .empty →
        ∃ t, exec (.cenc rs1 d a) s = .next t ∧ FailedWith .uninit s t) ∧
      (a.toNat + 32 * d.toNat ≤ s.memBytes → (s.poly rs1).tag = .ntt →
        ∃ t, exec (.cenc rs1 d a) s = .next t ∧ FailedWith .domain s t))

/-- CDEC (R248): each d-bit group decompressed; every group is a legal input. -/
def Obligations.Cdec : Prop :=
  ∀ (rd : Reg) (d : BitVec 4) (a : Half) (s : State),
    EncodedBy (.cdec rd d a) 0x1B 0xFFFFFFFFFFFF0000FF0FF000 ∧
    (1 ≤ d.toNat → d.toNat ≤ 11 → a.toNat + 32 * d.toNat ≤ s.memBytes →
      ∃ t f, exec (.cdec rd d a) s = .next t ∧ WroteRegister rd .normal f false s t ∧
        ∀ i < 256, (f.get i).toNat =
          decompress (group (s.memRead a.toNat (32 * d.toNat)) d.toNat i) d.toNat) ∧
    (d.toNat = 0 ∨ 12 ≤ d.toNat → ∃ t, exec (.cdec rd d a) s = .next t ∧ FailedWith .badParam s t) ∧
    (1 ≤ d.toNat → d.toNat ≤ 11 → s.memBytes < a.toNat + 32 * d.toNat →
      ∃ t, exec (.cdec rd d a) s = .next t ∧ FailedWith .addrRange s t)

/-- HASH (R293): the digest of the bytes as they stood, also where the ranges overlap; OUTLEN is the output length of
the SHAKE functions. -/
def Obligations.Hash : Prop :=
  ∀ (d : BitVec 4) (a b len outlen : Half) (s : State), Memory.wf s.mem = true →
    EncodedBy (.hash d a b len outlen) 0x20 0x0000000000000000FF0FFF00 ∧
    (d = 0 → outlen = 0 → a.toNat + len.toNat ≤ s.memBytes → b.toNat + 32 ≤ s.memBytes →
      ∃ t, exec (.hash d a b len outlen) s = .next t ∧
        WroteBytes b.toNat (sponge 136 0x06 (s.memRead a.toNat len.toNat) 32) s t) ∧
    (d = 1 → outlen = 0 → a.toNat + len.toNat ≤ s.memBytes → b.toNat + 64 ≤ s.memBytes →
      ∃ t, exec (.hash d a b len outlen) s = .next t ∧
        WroteBytes b.toNat (sponge 72 0x06 (s.memRead a.toNat len.toNat) 64) s t) ∧
    (d = 2 → a.toNat + len.toNat ≤ s.memBytes → b.toNat + outlen.toNat ≤ s.memBytes →
      ∃ t, exec (.hash d a b len outlen) s = .next t ∧
        WroteBytes b.toNat (sponge 168 0x1F (s.memRead a.toNat len.toNat) outlen.toNat) s t) ∧
    (d = 3 → a.toNat + len.toNat ≤ s.memBytes → b.toNat + outlen.toNat ≤ s.memBytes →
      ∃ t, exec (.hash d a b len outlen) s = .next t ∧
        WroteBytes b.toNat (sponge 136 0x1F (s.memRead a.toNat len.toNat) outlen.toNat) s t) ∧
    (4 ≤ d.toNat ∨ d.toNat ≤ 1 ∧ outlen ≠ 0 →
      ∃ t, exec (.hash d a b len outlen) s = .next t ∧ FailedWith .badParam s t) ∧
    (d = 0 ∧ outlen = 0 ∧ (s.memBytes < a.toNat + len.toNat ∨ s.memBytes < b.toNat + 32) ∨
      d = 1 ∧ outlen = 0 ∧ (s.memBytes < a.toNat + len.toNat ∨ s.memBytes < b.toNat + 64) ∨
      (d = 2 ∨ d = 3) ∧ (s.memBytes < a.toNat + len.toNat ∨ s.memBytes < b.toNat + outlen.toNat) →
      ∃ t, exec (.hash d a b len outlen) s = .next t ∧ FailedWith .addrRange s t)

/-- KEYGEN (R329, R332, R333): the key pair of the 64 input bytes; where the two outputs overlap sk's bytes remain. -/
def Obligations.Keygen : Prop :=
  ∀ (a b c : Half) (s : State), Memory.wf s.mem = true →
    EncodedBy (.keygen a b c) 0x28 0xFFFF000000000000FFFFFF00 ∧
    (∀ pk sk, a.toNat + 64 ≤ s.memBytes → b.toNat + (384 * s.level.k + 32) ≤ s.memBytes →
      c.toNat + (768 * s.level.k + 96) ≤ s.memBytes →
      kemKeygen s.level s.streamBlocks (s.memRead a.toNat 32) (s.memRead (a.toNat + 32) 32) = some (pk, sk) →
      ∃ t, exec (.keygen a b c) s = .next t ∧ CompletedWith .ok s t ∧ SamePolys s t ∧ t.scratch = Scratch.zero ∧
        t.status.ncan = s.status.ncan ∧ pk.length = 384 * s.level.k + 32 ∧ sk.length = 768 * s.level.k + 96 ∧
        ∀ x, Memory.read t.mem x =
          if c.toNat ≤ x ∧ x < c.toNat + sk.length then sk.getD (x - c.toNat) 0
          else if b.toNat ≤ x ∧ x < b.toNat + pk.length then pk.getD (x - b.toNat) 0
          else Memory.read s.mem x) ∧
    (s.memBytes < a.toNat + 64 ∨ s.memBytes < b.toNat + (384 * s.level.k + 32) ∨
      s.memBytes < c.toNat + (768 * s.level.k + 96) →
      ∃ t, exec (.keygen a b c) s = .next t ∧ FailedWith .addrRange s t)

/-- ENCAPS (R326, R330, R332, R333): ct ‖ ss at ADDR_C, where ct is the encryption of m with the coins of G(m ‖ H(pk)) and
ss is KDF(Kbar ‖ H(ct)); NCAN is set if the key holds a 12-bit group of 3329 or more. -/
def Obligations.Encaps : Prop :=
  ∀ (a b c : Half) (s : State), Memory.wf s.mem = true →
    EncodedBy (.encaps a b c) 0x29 0xFFFF000000000000FFFFFF00 ∧
    (∀ pk m G ct : List Byte, a.toNat + (384 * s.level.k + 32) ≤ s.memBytes → b.toNat + 32 ≤ s.memBytes →
      c.toNat + (32 * (s.level.k * s.level.du + s.level.dv) + 32) ≤ s.memBytes →
      pk = s.memRead a.toNat (384 * s.level.k + 32) → m = s.memRead b.toNat 32 →
      G = sponge 72 0x06 (m ++ sponge 136 0x06 pk 32) 64 →
      cpaEncrypt s.level s.streamBlocks pk m (G.drop 32) = some ct →
      ∃ t nc K, exec (.encaps a b c) s = .next t ∧ WroteOutput c.toNat (ct ++ K) nc s t ∧
        K = sponge 136 0x1F (G.take 32 ++ sponge 136 0x06 ct 32) 32 ∧
        kemEncaps s.level s.streamBlocks pk m = some (ct, K) ∧
        ct.length = 32 * (s.level.k * s.level.du + s.level.dv) ∧ K.length = 32 ∧
        (nc = true ↔ ∃ i < 256 * s.level.k, 3329 ≤ group pk 12 i)) ∧
    (s.memBytes < a.toNat + (384 * s.level.k + 32) ∨ s.memBytes < b.toNat + 32 ∨
      s.memBytes < c.toNat + (32 * (s.level.k * s.level.du + s.level.dv) + 32) →
      ∃ t, exec (.encaps a b c) s = .next t ∧ FailedWith .addrRange s t)

/-- DECAPS (R331-R334, R406): ss at ADDR_C and no error for any ciphertext or key; NCAN is set if the s or t encoding in
sk holds a 12-bit group of 3329 or more. -/
def Obligations.Decaps : Prop :=
  ∀ (a b c : Half) (s : State), Memory.wf s.mem = true →
    EncodedBy (.decaps a b c) 0x2A 0xFFFF000000000000FFFFFF00 ∧
    (∀ K, a.toNat + (768 * s.level.k + 96) ≤ s.memBytes →
      b.toNat + 32 * (s.level.k * s.level.du + s.level.dv) ≤ s.memBytes → c.toNat + 32 ≤ s.memBytes →
      kemDecaps s.level s.streamBlocks (s.memRead a.toNat (768 * s.level.k + 96))
        (s.memRead b.toNat (32 * (s.level.k * s.level.du + s.level.dv))) = some K →
      ∃ t nc, exec (.decaps a b c) s = .next t ∧ WroteOutput c.toNat K nc s t ∧ K.length = 32 ∧
        (nc = true ↔ ∃ i < 512 * s.level.k, 3329 ≤ group (s.memRead a.toNat (768 * s.level.k)) 12 i)) ∧
    (s.memBytes < a.toNat + (768 * s.level.k + 96) ∨
      s.memBytes < b.toNat + 32 * (s.level.k * s.level.du + s.level.dv) ∨ s.memBytes < c.toNat + 32 →
      ∃ t, exec (.decaps a b c) s = .next t ∧ FailedWith .addrRange s t)
end

