-- ==== Sys2Proof/Laws/Bits.lean ====
section
/-! SUPPORT. Bit strings and byte strings: lengths, entries, and the round trips between numbers, bits and bytes
(spec/20_memory.md R75). -/

namespace Sys2Proof.Machine

/-! ### chunks -/

@[simp] theorem length_chunks {α : Type} (m count : Nat) (l : List α) : (chunks m count l).length = count := by
  induction count generalizing l with
  | zero => rfl
  | succ n ih => simp [chunks, ih]

theorem getElem_chunks {α : Type} (m count : Nat) (l : List α) (i : Nat) (h : i < (chunks m count l).length) :
    (chunks m count l)[i] = (l.drop (m * i)).take m := by
  induction count generalizing l i with
  | zero => simp [chunks] at h
  | succ n ih =>
    cases i with
    | zero => simp [chunks]
    | succ i =>
      simp only [chunks, List.getElem_cons_succ]
      rw [ih]
      rw [List.drop_drop, Nat.mul_succ, Nat.add_comm]

theorem flatten_chunks {α : Type} (m count : Nat) (l : List α) : (chunks m count l).flatten = l.take (m * count) := by
  induction count generalizing l with
  | zero => simp [chunks]
  | succ n ih =>
    rw [chunks, List.flatten_cons, ih, Nat.mul_succ, Nat.add_comm, List.take_add]

theorem length_of_mem_chunks {α : Type} {m count : Nat} {l c : List α} (hl : m * count ≤ l.length)
    (hc : c ∈ chunks m count l) : c.length = m := by
  induction count generalizing l with
  | zero => simp [chunks] at hc
  | succ n ih =>
    rw [Nat.mul_succ] at hl
    rcases List.mem_cons.mp hc with rfl | hc
    · rw [List.length_take]; omega
    · exact ih (by rw [List.length_drop]; omega) hc

/-- Cutting a concatenation of equal pieces gives the pieces back. -/
theorem chunks_flatten {α : Type} {m : Nat} {L : List (List α)} (h : ∀ c ∈ L, c.length = m) :
    chunks m L.length L.flatten = L := by
  induction L with
  | nil => rfl
  | cons c L ih =>
    have hc : c.length = m := h c (by simp)
    rw [List.length_cons, chunks, List.flatten_cons, ← hc, List.take_left, List.drop_left, hc,
      ih fun d hd => h d (List.mem_cons_of_mem _ hd)]

/-! ### Bits and numbers -/

@[simp] theorem length_natToBits (d v : Nat) : (natToBits d v).length = d := by simp [natToBits]

theorem bitsToNat_lt (l : List Bool) : bitsToNat l < 2 ^ l.length := by
  induction l with
  | nil => simp [bitsToNat]
  | cons b l ih =>
    rw [bitsToNat, List.length_cons, Nat.pow_succ]
    cases b <;> simp <;> omega

theorem testBit_bitsToNat (l : List Bool) (j : Nat) : (bitsToNat l).testBit j = l.getD j false := by
  induction l generalizing j with
  | nil => simp [bitsToNat]
  | cons b l ih =>
    cases j with
    | zero => cases b <;> simp [bitsToNat, Nat.testBit_zero]
    | succ j =>
      rw [List.getD_cons_succ, ← ih, Nat.testBit_succ, bitsToNat]
      congr 1
      cases b
      · simp
      · simp; omega

theorem getD_natToBits (d v j : Nat) (h : j < d) : (natToBits d v).getD j false = v.testBit j := by
  simp [natToBits, List.getD, h]

/-- Packing and unpacking a number's bits. -/
theorem bitsToNat_natToBits (d v : Nat) : bitsToNat (natToBits d v) = v % 2 ^ d := by
  apply Nat.eq_of_testBit_eq
  intro j
  rw [testBit_bitsToNat, Nat.testBit_mod_two_pow]
  by_cases h : j < d
  · rw [getD_natToBits _ _ _ h]; simp [h]
  · simp [List.getD, h]

theorem natToBits_bitsToNat (l : List Bool) : natToBits l.length (bitsToNat l) = l := by
  apply List.ext_getElem (by simp)
  intro j h1 h2
  simp [natToBits, testBit_bitsToNat, List.getD, h2]

/-! ### Bits and bytes -/

@[simp] theorem length_bytesToBits (B : List Byte) : (bytesToBits B).length = 8 * B.length := by
  induction B with
  | nil => rfl
  | cons b B ih =>
    rw [bytesToBits, List.flatMap_cons, List.length_append, length_natToBits, List.length_cons]
    have : (B.flatMap fun b => natToBits 8 b.toNat).length = 8 * B.length := ih
    omega

@[simp] theorem length_bitsToBytes (count : Nat) (l : List Bool) : (bitsToBytes count l).length = count := by
  simp [bitsToBytes]

theorem chunks_bytesToBits (B : List Byte) :
    chunks 8 B.length (bytesToBits B) = B.map fun b => natToBits 8 b.toNat := by
  have h := chunks_flatten (m := 8) (L := B.map fun b => natToBits 8 b.toNat) (by simp)
  rw [List.length_map] at h
  rw [bytesToBits, List.flatMap_def, h]

/-- The bits of a byte string make up the byte string. -/
theorem bitsToBytes_bytesToBits (B : List Byte) : bitsToBytes B.length (bytesToBits B) = B := by
  rw [bitsToBytes, chunks_bytesToBits, List.map_map]
  conv_rhs => rw [← List.map_id B]
  apply List.map_congr_left
  intro b _
  apply BitVec.eq_of_toNat_eq
  simp only [Function.comp, bitsToNat_natToBits, BitVec.toNat_ofNat, id]
  have := b.isLt
  omega

/-- The bytes of a bit string of whole bytes make up the bit string. -/
theorem bytesToBits_bitsToBytes {count : Nat} {l : List Bool} (h : l.length = 8 * count) :
    bytesToBits (bitsToBytes count l) = l := by
  have hc : ∀ c ∈ chunks 8 count l, c.length = 8 := fun c hc => length_of_mem_chunks (by omega) hc
  have : (chunks 8 count l).map (fun c => natToBits 8 (BitVec.ofNat 8 (bitsToNat c)).toNat) = chunks 8 count l := by
    conv_rhs => rw [← List.map_id (chunks 8 count l)]
    apply List.map_congr_left
    intro c hcm
    have h8 := hc c hcm
    have hlt := bitsToNat_lt c
    rw [h8] at hlt
    rw [BitVec.toNat_ofNat, Nat.mod_eq_of_lt hlt]
    conv_lhs => rw [← h8]
    exact natToBits_bitsToNat c
  rw [bytesToBits, bitsToBytes, List.flatMap_map, List.flatMap_def, this, flatten_chunks, List.take_of_length_le (by omega)]

/-- Entry `t` of the bit string is `bit(B, t)`. -/
theorem getD_bytesToBits (B : List Byte) (t : Nat) : (bytesToBits B).getD t false = bit B t := by
  induction B generalizing t with
  | nil => simp [bytesToBits, bit]
  | cons b B ih =>
    rw [bytesToBits, List.flatMap_cons]
    by_cases h : t < 8
    · have h0 : t / 8 = 0 := by omega
      have h1 : t % 8 = t := by omega
      rw [List.getD_append _ _ _ _ (by simpa using h), getD_natToBits _ _ _ h]
      simp [bit, h0, h1, BitVec.testBit_toNat]
    · rw [List.getD_append_right _ _ _ _ (by simp; omega), length_natToBits]
      have := ih (t - 8)
      rw [bytesToBits] at this
      rw [this]
      obtain ⟨u, rfl⟩ : ∃ u, t = u + 8 := ⟨t - 8, by omega⟩
      simp [bit]

theorem bytesToNat_lt (B : List Byte) : bytesToNat B < 256 ^ B.length := by
  induction B with
  | nil => simp [bytesToNat]
  | cons b B ih =>
    rw [bytesToNat, List.length_cons, Nat.pow_succ]
    have := b.isLt
    omega

@[simp] theorem length_laneToBytes (w : Lane) : (laneToBytes w).length = 8 := by simp [laneToBytes]

/-! ### Lists of options -/

theorem length_allSome {α : Type} {l : List (Option α)} {xs : List α} (h : allSome l = some xs) :
    xs.length = l.length := by
  induction l generalizing xs with
  | nil => simp [allSome] at h; simp [← h]
  | cons o l ih =>
    cases o with
    | none => simp [allSome] at h
    | some x =>
      cases hl : allSome l with
      | none => simp [allSome, hl] at h
      | some ys => simp [allSome, hl] at h; simp [← h, ih hl]

theorem allSome_eq_some {α : Type} {l : List (Option α)} {xs : List α} :
    allSome l = some xs ↔ l = xs.map some := by
  induction l generalizing xs with
  | nil => cases xs <;> simp [allSome]
  | cons o l ih =>
    cases o with
    | none => cases xs <;> simp [allSome]
    | some x =>
      cases hl : allSome l with
      | none =>
        cases xs with
        | nil => simp [allSome, hl]
        | cons y ys =>
          simp only [allSome, hl, List.map_cons, List.cons.injEq]
          constructor
          · simp
          · intro ⟨_, h2⟩
            rw [ih.mpr h2] at hl
            exact absurd hl (by simp)
      | some ys =>
        have hys := ih.mp hl
        cases xs with
        | nil => simp [allSome, hl]
        | cons z zs =>
          simp only [allSome, hl, List.map_cons, List.cons.injEq, Option.some.injEq]
          constructor
          · rintro ⟨rfl, rfl⟩; exact ⟨rfl, hys⟩
          · rintro ⟨rfl, h2⟩
            rw [hys] at h2
            exact ⟨rfl, (List.map_inj_right (fun _ _ h => Option.some.inj h)).mp h2⟩

end Sys2Proof.Machine
end

