-- ==== Sys2Proof/Laws/State.lean ====
section
/-! SUPPORT. One lemma per field per update of the state, and the small lemmas of the STATUS updates, so that no later
proof unfolds a record update. -/

namespace Sys2Proof.Machine

/-! ### setPoly -/

@[simp] theorem setPoly_polys (s : State) (r : Reg) (tag : Tag) (f : Poly) : (s.setPoly r tag f).polys = s.polys.set r ⟨tag, f⟩ := rfl
@[simp] theorem setPoly_mem (s : State) (r : Reg) (tag : Tag) (f : Poly) : (s.setPoly r tag f).mem = s.mem := rfl
@[simp] theorem setPoly_memBytes (s : State) (r : Reg) (tag : Tag) (f : Poly) : (s.setPoly r tag f).memBytes = s.memBytes := rfl
@[simp] theorem setPoly_cmd0 (s : State) (r : Reg) (tag : Tag) (f : Poly) : (s.setPoly r tag f).cmd0 = s.cmd0 := rfl
@[simp] theorem setPoly_cmd1 (s : State) (r : Reg) (tag : Tag) (f : Poly) : (s.setPoly r tag f).cmd1 = s.cmd1 := rfl
@[simp] theorem setPoly_cmd2 (s : State) (r : Reg) (tag : Tag) (f : Poly) : (s.setPoly r tag f).cmd2 = s.cmd2 := rfl
@[simp] theorem setPoly_cur (s : State) (r : Reg) (tag : Tag) (f : Poly) : (s.setPoly r tag f).cur = s.cur := rfl
@[simp] theorem setPoly_level (s : State) (r : Reg) (tag : Tag) (f : Poly) : (s.setPoly r tag f).level = s.level := rfl
@[simp] theorem setPoly_status (s : State) (r : Reg) (tag : Tag) (f : Poly) : (s.setPoly r tag f).status = s.status := rfl
@[simp] theorem setPoly_doneIe (s : State) (r : Reg) (tag : Tag) (f : Poly) : (s.setPoly r tag f).doneIe = s.doneIe := rfl
@[simp] theorem setPoly_run (s : State) (r : Reg) (tag : Tag) (f : Poly) : (s.setPoly r tag f).run = s.run := rfl
@[simp] theorem setPoly_scratch (s : State) (r : Reg) (tag : Tag) (f : Poly) : (s.setPoly r tag f).scratch = s.scratch := rfl
@[simp] theorem setPoly_csrRdata (s : State) (r : Reg) (tag : Tag) (f : Poly) : (s.setPoly r tag f).csrRdata = s.csrRdata := rfl
@[simp] theorem setPoly_bufRdata (s : State) (r : Reg) (tag : Tag) (f : Poly) : (s.setPoly r tag f).bufRdata = s.bufRdata := rfl
@[simp] theorem setPoly_held (s : State) (r : Reg) (tag : Tag) (f : Poly) : (s.setPoly r tag f).held = s.held := rfl
@[simp] theorem setPoly_hostQueue (s : State) (r : Reg) (tag : Tag) (f : Poly) : (s.setPoly r tag f).hostQueue = s.hostQueue := rfl
@[simp] theorem setPoly_sched (s : State) (r : Reg) (tag : Tag) (f : Poly) : (s.setPoly r tag f).sched = s.sched := rfl
@[simp] theorem setPoly_streamTries (s : State) (r : Reg) (tag : Tag) (f : Poly) : (s.setPoly r tag f).streamTries = s.streamTries := rfl
@[simp] theorem setPoly_freeCount (s : State) (r : Reg) (tag : Tag) (f : Poly) : (s.setPoly r tag f).freeCount = s.freeCount := rfl

/-! ### memWrite -/

@[simp] theorem memWrite_polys (s : State) (a : Nat) (v : List Byte) : (s.memWrite a v).polys = s.polys := rfl
@[simp] theorem memWrite_mem (s : State) (a : Nat) (v : List Byte) : (s.memWrite a v).mem = Memory.writeBytes s.mem a v := rfl
@[simp] theorem memWrite_memBytes (s : State) (a : Nat) (v : List Byte) : (s.memWrite a v).memBytes = s.memBytes := rfl
@[simp] theorem memWrite_cmd0 (s : State) (a : Nat) (v : List Byte) : (s.memWrite a v).cmd0 = s.cmd0 := rfl
@[simp] theorem memWrite_cmd1 (s : State) (a : Nat) (v : List Byte) : (s.memWrite a v).cmd1 = s.cmd1 := rfl
@[simp] theorem memWrite_cmd2 (s : State) (a : Nat) (v : List Byte) : (s.memWrite a v).cmd2 = s.cmd2 := rfl
@[simp] theorem memWrite_cur (s : State) (a : Nat) (v : List Byte) : (s.memWrite a v).cur = s.cur := rfl
@[simp] theorem memWrite_level (s : State) (a : Nat) (v : List Byte) : (s.memWrite a v).level = s.level := rfl
@[simp] theorem memWrite_status (s : State) (a : Nat) (v : List Byte) : (s.memWrite a v).status = s.status := rfl
@[simp] theorem memWrite_doneIe (s : State) (a : Nat) (v : List Byte) : (s.memWrite a v).doneIe = s.doneIe := rfl
@[simp] theorem memWrite_run (s : State) (a : Nat) (v : List Byte) : (s.memWrite a v).run = s.run := rfl
@[simp] theorem memWrite_scratch (s : State) (a : Nat) (v : List Byte) : (s.memWrite a v).scratch = s.scratch := rfl
@[simp] theorem memWrite_csrRdata (s : State) (a : Nat) (v : List Byte) : (s.memWrite a v).csrRdata = s.csrRdata := rfl
@[simp] theorem memWrite_bufRdata (s : State) (a : Nat) (v : List Byte) : (s.memWrite a v).bufRdata = s.bufRdata := rfl
@[simp] theorem memWrite_held (s : State) (a : Nat) (v : List Byte) : (s.memWrite a v).held = s.held := rfl
@[simp] theorem memWrite_hostQueue (s : State) (a : Nat) (v : List Byte) : (s.memWrite a v).hostQueue = s.hostQueue := rfl
@[simp] theorem memWrite_sched (s : State) (a : Nat) (v : List Byte) : (s.memWrite a v).sched = s.sched := rfl
@[simp] theorem memWrite_streamTries (s : State) (a : Nat) (v : List Byte) : (s.memWrite a v).streamTries = s.streamTries := rfl
@[simp] theorem memWrite_freeCount (s : State) (a : Nat) (v : List Byte) : (s.memWrite a v).freeCount = s.freeCount := rfl

/-! ### wipeScratch -/

@[simp] theorem wipeScratch_polys (s : State) : s.wipeScratch.polys = s.polys := rfl
@[simp] theorem wipeScratch_mem (s : State) : s.wipeScratch.mem = s.mem := rfl
@[simp] theorem wipeScratch_memBytes (s : State) : s.wipeScratch.memBytes = s.memBytes := rfl
@[simp] theorem wipeScratch_cmd0 (s : State) : s.wipeScratch.cmd0 = s.cmd0 := rfl
@[simp] theorem wipeScratch_cmd1 (s : State) : s.wipeScratch.cmd1 = s.cmd1 := rfl
@[simp] theorem wipeScratch_cmd2 (s : State) : s.wipeScratch.cmd2 = s.cmd2 := rfl
@[simp] theorem wipeScratch_cur (s : State) : s.wipeScratch.cur = s.cur := rfl
@[simp] theorem wipeScratch_level (s : State) : s.wipeScratch.level = s.level := rfl
@[simp] theorem wipeScratch_status (s : State) : s.wipeScratch.status = s.status := rfl
@[simp] theorem wipeScratch_doneIe (s : State) : s.wipeScratch.doneIe = s.doneIe := rfl
@[simp] theorem wipeScratch_run (s : State) : s.wipeScratch.run = s.run := rfl
@[simp] theorem wipeScratch_scratch (s : State) : s.wipeScratch.scratch = Scratch.zero := rfl
@[simp] theorem wipeScratch_csrRdata (s : State) : s.wipeScratch.csrRdata = s.csrRdata := rfl
@[simp] theorem wipeScratch_bufRdata (s : State) : s.wipeScratch.bufRdata = s.bufRdata := rfl
@[simp] theorem wipeScratch_held (s : State) : s.wipeScratch.held = s.held := rfl
@[simp] theorem wipeScratch_hostQueue (s : State) : s.wipeScratch.hostQueue = s.hostQueue := rfl
@[simp] theorem wipeScratch_sched (s : State) : s.wipeScratch.sched = s.sched := rfl
@[simp] theorem wipeScratch_streamTries (s : State) : s.wipeScratch.streamTries = s.streamTries := rfl
@[simp] theorem wipeScratch_freeCount (s : State) : s.wipeScratch.freeCount = s.freeCount := rfl

/-! ### noteNcan -/

@[simp] theorem noteNcan_polys (s : State) (b : Bool) : (s.noteNcan b).polys = s.polys := rfl
@[simp] theorem noteNcan_mem (s : State) (b : Bool) : (s.noteNcan b).mem = s.mem := rfl
@[simp] theorem noteNcan_memBytes (s : State) (b : Bool) : (s.noteNcan b).memBytes = s.memBytes := rfl
@[simp] theorem noteNcan_cmd0 (s : State) (b : Bool) : (s.noteNcan b).cmd0 = s.cmd0 := rfl
@[simp] theorem noteNcan_cmd1 (s : State) (b : Bool) : (s.noteNcan b).cmd1 = s.cmd1 := rfl
@[simp] theorem noteNcan_cmd2 (s : State) (b : Bool) : (s.noteNcan b).cmd2 = s.cmd2 := rfl
@[simp] theorem noteNcan_cur (s : State) (b : Bool) : (s.noteNcan b).cur = s.cur := rfl
@[simp] theorem noteNcan_level (s : State) (b : Bool) : (s.noteNcan b).level = s.level := rfl
@[simp] theorem noteNcan_status (s : State) (b : Bool) : (s.noteNcan b).status = s.status.noteNcan b := rfl
@[simp] theorem noteNcan_doneIe (s : State) (b : Bool) : (s.noteNcan b).doneIe = s.doneIe := rfl
@[simp] theorem noteNcan_run (s : State) (b : Bool) : (s.noteNcan b).run = s.run := rfl
@[simp] theorem noteNcan_scratch (s : State) (b : Bool) : (s.noteNcan b).scratch = s.scratch := rfl
@[simp] theorem noteNcan_csrRdata (s : State) (b : Bool) : (s.noteNcan b).csrRdata = s.csrRdata := rfl
@[simp] theorem noteNcan_bufRdata (s : State) (b : Bool) : (s.noteNcan b).bufRdata = s.bufRdata := rfl
@[simp] theorem noteNcan_held (s : State) (b : Bool) : (s.noteNcan b).held = s.held := rfl
@[simp] theorem noteNcan_hostQueue (s : State) (b : Bool) : (s.noteNcan b).hostQueue = s.hostQueue := rfl
@[simp] theorem noteNcan_sched (s : State) (b : Bool) : (s.noteNcan b).sched = s.sched := rfl
@[simp] theorem noteNcan_streamTries (s : State) (b : Bool) : (s.noteNcan b).streamTries = s.streamTries := rfl
@[simp] theorem noteNcan_freeCount (s : State) (b : Bool) : (s.noteNcan b).freeCount = s.freeCount := rfl

/-! ### wipeData -/

@[simp] theorem wipeData_polys (s : State) : s.wipeData.polys = Vector.replicate 16 PolyReg.reset := rfl
@[simp] theorem wipeData_mem (s : State) : s.wipeData.mem = [] := rfl
@[simp] theorem wipeData_memBytes (s : State) : s.wipeData.memBytes = s.memBytes := rfl
@[simp] theorem wipeData_cmd0 (s : State) : s.wipeData.cmd0 = s.cmd0 := rfl
@[simp] theorem wipeData_cmd1 (s : State) : s.wipeData.cmd1 = s.cmd1 := rfl
@[simp] theorem wipeData_cmd2 (s : State) : s.wipeData.cmd2 = s.cmd2 := rfl
@[simp] theorem wipeData_cur (s : State) : s.wipeData.cur = s.cur := rfl
@[simp] theorem wipeData_level (s : State) : s.wipeData.level = s.level := rfl
@[simp] theorem wipeData_status (s : State) : s.wipeData.status = s.status := rfl
@[simp] theorem wipeData_doneIe (s : State) : s.wipeData.doneIe = s.doneIe := rfl
@[simp] theorem wipeData_run (s : State) : s.wipeData.run = s.run := rfl
@[simp] theorem wipeData_scratch (s : State) : s.wipeData.scratch = Scratch.zero := rfl
@[simp] theorem wipeData_csrRdata (s : State) : s.wipeData.csrRdata = s.csrRdata := rfl
@[simp] theorem wipeData_bufRdata (s : State) : s.wipeData.bufRdata = s.bufRdata := rfl
@[simp] theorem wipeData_held (s : State) : s.wipeData.held = s.held := rfl
@[simp] theorem wipeData_hostQueue (s : State) : s.wipeData.hostQueue = s.hostQueue := rfl
@[simp] theorem wipeData_sched (s : State) : s.wipeData.sched = s.sched := rfl
@[simp] theorem wipeData_streamTries (s : State) : s.wipeData.streamTries = s.streamTries := rfl
@[simp] theorem wipeData_freeCount (s : State) : s.wipeData.freeCount = s.freeCount := rfl

/-! ### complete -/

@[simp] theorem complete_polys (c : ErrCode) (s : State) : (complete c s).polys = s.polys := rfl
@[simp] theorem complete_mem (c : ErrCode) (s : State) : (complete c s).mem = s.mem := rfl
@[simp] theorem complete_memBytes (c : ErrCode) (s : State) : (complete c s).memBytes = s.memBytes := rfl
@[simp] theorem complete_cmd0 (c : ErrCode) (s : State) : (complete c s).cmd0 = s.cmd0 := rfl
@[simp] theorem complete_cmd1 (c : ErrCode) (s : State) : (complete c s).cmd1 = s.cmd1 := rfl
@[simp] theorem complete_cmd2 (c : ErrCode) (s : State) : (complete c s).cmd2 = s.cmd2 := rfl
@[simp] theorem complete_cur (c : ErrCode) (s : State) : (complete c s).cur = Config.freeCur s.freeCount := rfl
@[simp] theorem complete_level (c : ErrCode) (s : State) : (complete c s).level = s.level := rfl
@[simp] theorem complete_status (c : ErrCode) (s : State) : (complete c s).status = s.status.completed c := rfl
@[simp] theorem complete_doneIe (c : ErrCode) (s : State) : (complete c s).doneIe = s.doneIe := rfl
@[simp] theorem complete_run (c : ErrCode) (s : State) : (complete c s).run = .idle := rfl
@[simp] theorem complete_scratch (c : ErrCode) (s : State) : (complete c s).scratch = s.scratch := rfl
@[simp] theorem complete_csrRdata (c : ErrCode) (s : State) : (complete c s).csrRdata = s.csrRdata := rfl
@[simp] theorem complete_bufRdata (c : ErrCode) (s : State) : (complete c s).bufRdata = s.bufRdata := rfl
@[simp] theorem complete_held (c : ErrCode) (s : State) : (complete c s).held = s.held := rfl
@[simp] theorem complete_hostQueue (c : ErrCode) (s : State) : (complete c s).hostQueue = s.hostQueue := rfl
@[simp] theorem complete_sched (c : ErrCode) (s : State) : (complete c s).sched = s.sched := rfl
@[simp] theorem complete_streamTries (c : ErrCode) (s : State) : (complete c s).streamTries = 0 := rfl
@[simp] theorem complete_freeCount (c : ErrCode) (s : State) : (complete c s).freeCount = s.freeCount + 1 := rfl

/-! ### keepSampling -/

@[simp] theorem keepSampling_polys (s : State) : (keepSampling s).polys = s.polys := rfl
@[simp] theorem keepSampling_mem (s : State) : (keepSampling s).mem = s.mem := rfl
@[simp] theorem keepSampling_memBytes (s : State) : (keepSampling s).memBytes = s.memBytes := rfl
@[simp] theorem keepSampling_cmd0 (s : State) : (keepSampling s).cmd0 = s.cmd0 := rfl
@[simp] theorem keepSampling_cmd1 (s : State) : (keepSampling s).cmd1 = s.cmd1 := rfl
@[simp] theorem keepSampling_cmd2 (s : State) : (keepSampling s).cmd2 = s.cmd2 := rfl
@[simp] theorem keepSampling_cur (s : State) : (keepSampling s).cur = s.cur := rfl
@[simp] theorem keepSampling_level (s : State) : (keepSampling s).level = s.level := rfl
@[simp] theorem keepSampling_status (s : State) : (keepSampling s).status = s.status := rfl
@[simp] theorem keepSampling_doneIe (s : State) : (keepSampling s).doneIe = s.doneIe := rfl
@[simp] theorem keepSampling_run (s : State) : (keepSampling s).run = s.run := rfl
@[simp] theorem keepSampling_scratch (s : State) : (keepSampling s).scratch = s.scratch := rfl
@[simp] theorem keepSampling_csrRdata (s : State) : (keepSampling s).csrRdata = s.csrRdata := rfl
@[simp] theorem keepSampling_bufRdata (s : State) : (keepSampling s).bufRdata = s.bufRdata := rfl
@[simp] theorem keepSampling_held (s : State) : (keepSampling s).held = s.held := rfl
@[simp] theorem keepSampling_hostQueue (s : State) : (keepSampling s).hostQueue = s.hostQueue := rfl
@[simp] theorem keepSampling_sched (s : State) : (keepSampling s).sched = s.sched := rfl
@[simp] theorem keepSampling_streamTries (s : State) : (keepSampling s).streamTries = s.streamTries + 1 := rfl
@[simp] theorem keepSampling_freeCount (s : State) : (keepSampling s).freeCount = s.freeCount := rfl

/-! ### issue -/

@[simp] theorem issue_polys (s : State) (w : Word) : (issue s w).polys = s.polys := rfl
@[simp] theorem issue_mem (s : State) (w : Word) : (issue s w).mem = s.mem := rfl
@[simp] theorem issue_memBytes (s : State) (w : Word) : (issue s w).memBytes = s.memBytes := rfl
@[simp] theorem issue_cmd0 (s : State) (w : Word) : (issue s w).cmd0 = s.cmd0 := rfl
@[simp] theorem issue_cmd1 (s : State) (w : Word) : (issue s w).cmd1 = s.cmd1 := rfl
@[simp] theorem issue_cmd2 (s : State) (w : Word) : (issue s w).cmd2 = w := rfl
@[simp] theorem issue_cur (s : State) (w : Word) : (issue s w).cur = w ++ s.cmd1 ++ s.cmd0 := rfl
@[simp] theorem issue_level (s : State) (w : Word) : (issue s w).level = s.level := rfl
@[simp] theorem issue_status (s : State) (w : Word) : (issue s w).status = s.status.issued := rfl
@[simp] theorem issue_doneIe (s : State) (w : Word) : (issue s w).doneIe = s.doneIe := rfl
@[simp] theorem issue_run (s : State) (w : Word) : (issue s w).run = .busy := rfl
@[simp] theorem issue_scratch (s : State) (w : Word) : (issue s w).scratch = s.scratch := rfl
@[simp] theorem issue_csrRdata (s : State) (w : Word) : (issue s w).csrRdata = s.csrRdata := rfl
@[simp] theorem issue_bufRdata (s : State) (w : Word) : (issue s w).bufRdata = s.bufRdata := rfl
@[simp] theorem issue_held (s : State) (w : Word) : (issue s w).held = s.held := rfl
@[simp] theorem issue_hostQueue (s : State) (w : Word) : (issue s w).hostQueue = s.hostQueue := rfl
@[simp] theorem issue_sched (s : State) (w : Word) : (issue s w).sched = s.sched := rfl
@[simp] theorem issue_streamTries (s : State) (w : Word) : (issue s w).streamTries = 0 := rfl
@[simp] theorem issue_freeCount (s : State) (w : Word) : (issue s w).freeCount = s.freeCount := rfl

/-! ### STATUS -/

@[simp] theorem completed_done (st : Status) (c : ErrCode) : (st.completed c).done = true := rfl
@[simp] theorem completed_err (st : Status) (c : ErrCode) : (st.completed c).err = decide (c ≠ .ok) := rfl
@[simp] theorem completed_ncan (st : Status) (c : ErrCode) : (st.completed c).ncan = st.ncan := rfl
@[simp] theorem completed_errcode (st : Status) (c : ErrCode) : (st.completed c).errcode = c := rfl
@[simp] theorem issued_done (st : Status) : st.issued.done = false := rfl
@[simp] theorem issued_err (st : Status) : st.issued.err = false := rfl
@[simp] theorem issued_ncan (st : Status) : st.issued.ncan = st.ncan := rfl
@[simp] theorem issued_errcode (st : Status) : st.issued.errcode = .ok := rfl
@[simp] theorem noteNcan_done (st : Status) (b : Bool) : (st.noteNcan b).done = st.done := rfl
@[simp] theorem noteNcan_err (st : Status) (b : Bool) : (st.noteNcan b).err = st.err := rfl
@[simp] theorem noteNcan_ncan (st : Status) (b : Bool) : (st.noteNcan b).ncan = (st.ncan || b) := rfl
@[simp] theorem noteNcan_errcode (st : Status) (b : Bool) : (st.noteNcan b).errcode = st.errcode := rfl
@[simp] theorem write_err (st : Status) (w : Word) : (st.write w).err = st.err := rfl
@[simp] theorem write_errcode (st : Status) (w : Word) : (st.write w).errcode = st.errcode := rfl
@[simp] theorem write_done (st : Status) (w : Word) : (st.write w).done = (st.done && !w.getLsbD 1) := rfl
@[simp] theorem write_ncan (st : Status) (w : Word) : (st.write w).ncan = (st.ncan && !w.getLsbD 3) := rfl

/-! ### Registers and bytes of an updated state -/

/-- Register `r` of a state whose register `rd` was written. -/
theorem setPoly_poly (s : State) (rd r : Reg) (tag : Tag) (f : Poly) :
    (s.setPoly rd tag f).poly r = if r = rd then ⟨tag, f⟩ else s.poly r := by
  unfold State.poly
  rw [setPoly_polys, Fin.getElem_fin, Fin.getElem_fin, Vector.getElem_set]
  by_cases h : r = rd
  · subst h; simp
  · have : ¬ rd.val = r.val := fun e => h (Fin.ext e.symm)
    simp [h, this]

@[simp] theorem setPoly_poly_same (s : State) (rd : Reg) (tag : Tag) (f : Poly) :
    (s.setPoly rd tag f).poly rd = ⟨tag, f⟩ := by simp [setPoly_poly]

theorem setPoly_poly_ne (s : State) {rd r : Reg} (tag : Tag) (f : Poly) (h : r ≠ rd) :
    (s.setPoly rd tag f).poly r = s.poly r := by simp [setPoly_poly, h]

@[simp] theorem wipeData_poly (s : State) (r : Reg) : s.wipeData.poly r = PolyReg.reset := by
  unfold State.poly; simp

@[simp] theorem memWrite_poly (s : State) (a : Nat) (v : List Byte) (r : Reg) : (s.memWrite a v).poly r = s.poly r := rfl
@[simp] theorem complete_poly (c : ErrCode) (s : State) (r : Reg) : (complete c s).poly r = s.poly r := rfl
@[simp] theorem keepSampling_poly (s : State) (r : Reg) : (keepSampling s).poly r = s.poly r := rfl
@[simp] theorem wipeScratch_poly (s : State) (r : Reg) : s.wipeScratch.poly r = s.poly r := rfl
@[simp] theorem noteNcan_poly (s : State) (b : Bool) (r : Reg) : (s.noteNcan b).poly r = s.poly r := rfl

end Sys2Proof.Machine
end

