-- ==== Sys2Proof/Laws/Memory.lean ====
section
/-! SUPPORT. The buffer memory: what a read sees after a write, and that every operation keeps the canonical form and
stays inside M (spec/20_memory.md R72, R74). -/

namespace Sys2Proof.Machine

/-- Every cell's address is below `n`. -/
def Memory.below (n : Nat) (m : Memory) : Bool := m.all fun c => decide (c.1 < n)

/-- Every cell's address is above `a`. -/
theorem Memory.wf_cons {a : Nat} {v : Byte} {m : Memory} (h : Memory.wf ((a, v) :: m) = true) :
    v ≠ 0 ∧ Memory.wf m = true ∧ ∀ c ∈ m, a < c.1 := by
  induction m generalizing a v with
  | nil => simpa [Memory.wf] using h
  | cons c m ih =>
    obtain ⟨b, w⟩ := c
    simp only [Memory.wf, Bool.and_eq_true, decide_eq_true_eq] at h
    obtain ⟨⟨hab, hv⟩, hm⟩ := h
    refine ⟨hv, hm, fun c hc => ?_⟩
    rcases List.mem_cons.mp hc with rfl | hc
    · exact hab
    · exact Nat.lt_trans hab ((ih hm).2.2 c hc)

theorem Memory.wf_cons_of {a : Nat} {v : Byte} {m : Memory} (hv : v ≠ 0) (hm : Memory.wf m = true)
    (ha : ∀ c ∈ m, a < c.1) : Memory.wf ((a, v) :: m) = true := by
  cases m with
  | nil => simpa [Memory.wf] using hv
  | cons c m =>
    obtain ⟨b, w⟩ := c
    have hab : a < b := ha (b, w) (by simp)
    simp only [Memory.wf, hm, Bool.and_eq_true, decide_eq_true_eq]
    exact ⟨⟨hab, hv⟩, trivial⟩

/-- Every address a set leaves is one of before or the one set. -/
theorem Memory.mem_set {m : Memory} {a : Nat} {v : Byte} {c : Host.Cell} (h : c ∈ Memory.set m a v) :
    c ∈ m ∨ c.1 = a := by
  induction m with
  | nil =>
    by_cases hv : v = 0 <;> simp_all [Memory.set]
  | cons d m ih =>
    obtain ⟨b, w⟩ := d
    unfold Memory.set at h
    split at h
    · split at h
      · exact .inl h
      · rcases List.mem_cons.mp h with rfl | h
        · exact .inr rfl
        · exact .inl h
    · split at h
      · split at h
        · exact .inl (List.mem_cons_of_mem _ h)
        · rcases List.mem_cons.mp h with rfl | h
          · exact .inr rfl
          · exact .inl (List.mem_cons_of_mem _ h)
      · rcases List.mem_cons.mp h with rfl | h
        · exact .inl (by simp)
        · exact (ih h).imp (List.mem_cons_of_mem _) id

theorem Memory.wf_set {m : Memory} (h : Memory.wf m = true) (a : Nat) (v : Byte) :
    Memory.wf (Memory.set m a v) = true := by
  induction m with
  | nil =>
    unfold Memory.set
    split
    · rfl
    · rename_i hv; simpa [Memory.wf] using hv
  | cons d m ih =>
    obtain ⟨b, w⟩ := d
    obtain ⟨hw, hm, hb⟩ := Memory.wf_cons h
    unfold Memory.set
    split
    · rename_i hab
      split
      · exact h
      · rename_i hv
        refine Memory.wf_cons_of hv h fun c hc => ?_
        rcases List.mem_cons.mp hc with rfl | hc
        · exact hab
        · exact Nat.lt_trans hab (hb c hc)
    · split
      · rename_i hab
        subst hab
        split
        · exact hm
        · rename_i hv; exact Memory.wf_cons_of hv hm hb
      · rename_i h1 h2
        refine Memory.wf_cons_of hw (ih hm) fun c hc => ?_
        rcases Memory.mem_set hc with hc | hc
        · exact hb c hc
        · simp only [hc]; omega

theorem Memory.below_set {m : Memory} {n : Nat} (h : Memory.below n m = true) {a : Nat} (ha : a < n) (v : Byte) :
    Memory.below n (Memory.set m a v) = true := by
  simp only [Memory.below, List.all_eq_true, decide_eq_true_eq] at *
  intro c hc
  rcases Memory.mem_set hc with hc | hc
  · exact h c hc
  · rw [hc]; exact ha

theorem Memory.read_of_lt {m : Memory} {a : Nat} (h : ∀ c ∈ m, a < c.1) : Memory.read m a = 0 := by
  induction m with
  | nil => rfl
  | cons c m ih =>
    obtain ⟨b, w⟩ := c
    have : a < b := h (b, w) (by simp)
    rw [Memory.read, if_neg (by omega), ih fun c hc => h c (List.mem_cons_of_mem _ hc)]

/-- A read after a write of one byte. -/
theorem Memory.read_set {m : Memory} (h : Memory.wf m = true) (a b : Nat) (v : Byte) :
    Memory.read (Memory.set m a v) b = if b = a then v else Memory.read m b := by
  induction m with
  | nil =>
    unfold Memory.set
    split
    · rename_i hv; simp [Memory.read, hv]
    · simp only [Memory.read]
  | cons d m ih =>
    obtain ⟨c, w⟩ := d
    obtain ⟨hw, hm, hc⟩ := Memory.wf_cons h
    unfold Memory.set
    split
    · rename_i hac
      split
      · rename_i hv
        by_cases hb : b = a
        · subst hb
          rw [if_pos rfl, hv]
          refine Memory.read_of_lt fun e he => ?_
          rcases List.mem_cons.mp he with rfl | he
          · exact hac
          · exact Nat.lt_trans hac (hc e he)
        · rw [if_neg hb]
      · rw [Memory.read]
    · split
      · rename_i hac
        subst hac
        split
        · rename_i hv
          by_cases hb : b = a
          · subst hb
            rw [if_pos rfl, hv, Memory.read_of_lt hc]
          · rw [if_neg hb, Memory.read, if_neg hb]
        · by_cases hb : b = a <;> simp [Memory.read, hb]
      · rename_i h1 h2
        by_cases hb : b = c
        · subst hb
          rw [Memory.read, if_pos rfl, if_neg (fun e => h2 e.symm), Memory.read, if_pos rfl]
        · rw [Memory.read, if_neg hb, ih hm, Memory.read, if_neg hb]

theorem Memory.wf_writeBytes {m : Memory} (h : Memory.wf m = true) (a : Nat) (v : List Byte) :
    Memory.wf (Memory.writeBytes m a v) = true := by
  induction v generalizing m a with
  | nil => exact h
  | cons x v ih => exact ih (Memory.wf_set h a x) (a + 1)

theorem Memory.below_writeBytes {m : Memory} {n : Nat} (h : Memory.below n m = true) {a : Nat} {v : List Byte}
    (ha : a + v.length ≤ n) : Memory.below n (Memory.writeBytes m a v) = true := by
  induction v generalizing m a with
  | nil => exact h
  | cons x v ih =>
    simp only [List.length_cons] at ha
    exact ih (Memory.below_set h (by omega) x) (by omega)

/-- A read after a write of a byte string: the byte written there, or the byte of before outside it. -/
theorem Memory.read_writeBytes {m : Memory} (h : Memory.wf m = true) (a b : Nat) (v : List Byte) :
    Memory.read (Memory.writeBytes m a v) b =
      if a ≤ b ∧ b < a + v.length then v.getD (b - a) 0 else Memory.read m b := by
  induction v generalizing m a with
  | nil =>
    rw [Memory.writeBytes, if_neg]
    simp
  | cons x v ih =>
    rw [Memory.writeBytes, ih (Memory.wf_set h a x), Memory.read_set h]
    by_cases h1 : b = a
    · subst h1; simp
    · by_cases h2 : a + 1 ≤ b ∧ b < a + 1 + v.length
      · have h3 : a ≤ b ∧ b < a + (x :: v).length := by simp only [List.length_cons]; omega
        rw [if_pos h2, if_pos h3]
        obtain ⟨k, rfl⟩ : ∃ k, b = a + 1 + k := ⟨b - (a + 1), by omega⟩
        rw [show a + 1 + k - (a + 1) = k by omega, show a + 1 + k - a = k + 1 by omega, List.getD_cons_succ]
      · have h3 : ¬(a ≤ b ∧ b < a + (x :: v).length) := by simp only [List.length_cons]; omega
        rw [if_neg h2, if_neg h3, if_neg h1]

@[simp] theorem Memory.length_readBytes (m : Memory) (a n : Nat) : (Memory.readBytes m a n).length = n := by
  simp [Memory.readBytes]

@[simp] theorem memRead_length (s : State) (a n : Nat) : (s.memRead a n).length = n :=
  Memory.length_readBytes _ _ _

theorem Memory.getD_readBytes (m : Memory) (a n i : Nat) (h : i < n) :
    (Memory.readBytes m a n).getD i 0 = Memory.read m (a + i) := by
  simp [Memory.readBytes, List.getD, h]

/-- Reading back the bytes just written (R74). -/
theorem Memory.readBytes_writeBytes {m : Memory} (h : Memory.wf m = true) (a : Nat) (v : List Byte) :
    Memory.readBytes (Memory.writeBytes m a v) a v.length = v := by
  apply List.ext_getElem (by simp)
  intro i h1 h2
  have h3 : i < v.length := h2
  simp [Memory.readBytes, Memory.read_writeBytes h, h3]

/-- `MemRead` depends only on the bytes of its range. -/
theorem Memory.readBytes_congr {m m' : Memory} {a n : Nat}
    (h : ∀ b, a ≤ b → b < a + n → Memory.read m b = Memory.read m' b) :
    Memory.readBytes m a n = Memory.readBytes m' a n := by
  apply List.map_congr_left
  intro i hi
  have := List.mem_range.mp hi
  exact h _ (by omega) (by omega)

/-- Two canonical memories that read the same everywhere are equal data. -/
theorem Memory.ext_of_wf {m m' : Memory} (h : Memory.wf m = true) (h' : Memory.wf m' = true)
    (he : ∀ a, Memory.read m a = Memory.read m' a) : m = m' := by
  induction m generalizing m' with
  | nil =>
    cases m' with
    | nil => rfl
    | cons d m' =>
      obtain ⟨b, w⟩ := d
      have := he b
      simp [Memory.read] at this
      exact absurd this.symm (Memory.wf_cons h').1
  | cons c m ih =>
    obtain ⟨a, v⟩ := c
    obtain ⟨hv, hm, ha⟩ := Memory.wf_cons h
    cases m' with
    | nil =>
      have := he a
      simp [Memory.read] at this
      exact absurd this hv
    | cons d m' =>
      obtain ⟨b, w⟩ := d
      obtain ⟨hw, hm', hb⟩ := Memory.wf_cons h'
      have hab : a = b := by
        rcases Nat.lt_trichotomy a b with hlt | heq | hgt
        · have h1 := he a
          rw [Memory.read, if_pos rfl, Memory.read, if_neg (by omega),
            Memory.read_of_lt fun e he => Nat.lt_trans hlt (hb e he)] at h1
          exact absurd h1 hv
        · exact heq
        · have h1 := he b
          rw [Memory.read, if_neg (by omega), Memory.read, if_pos rfl,
            Memory.read_of_lt fun e he => Nat.lt_trans hgt (ha e he)] at h1
          exact absurd h1.symm hw
      subst hab
      have hvw : v = w := by simpa [Memory.read] using he a
      subst hvw
      congr 1
      refine ih hm hm' fun e => ?_
      by_cases hea : e = a
      · subst hea
        rw [Memory.read_of_lt ha, Memory.read_of_lt hb]
      · simpa [Memory.read, hea] using he e

end Sys2Proof.Machine
end

