-- ==== Sys2Proof/Laws/Ops.lean ====
section
/-! SUPPORT. What a command can do: the lemmas of the checks, of `command` and of `samplingCommand`, which later proofs
cite instead of unfolding them (spec/60_exceptions.md R402-R404). -/

namespace Sys2Proof.Machine

/-! ### Checks -/

@[simp] theorem firstError_nil : firstError [] = none := rfl
@[simp] theorem firstError_none (cs : List (Option ErrCode)) : firstError (none :: cs) = firstError cs := rfl
@[simp] theorem firstError_some (e : ErrCode) (cs : List (Option ErrCode)) : firstError (some e :: cs) = some e := rfl

theorem checkRange_pass {s : State} {a n : Nat} (h : a + n ≤ s.memBytes) : checkRange s a n = none := if_pos h
theorem checkRange_fail {s : State} {a n : Nat} (h : s.memBytes < a + n) : checkRange s a n = some .addrRange :=
  if_neg (by omega)
theorem checkRange_eq_none {s : State} {a n : Nat} : checkRange s a n = none ↔ a + n ≤ s.memBytes := by
  unfold checkRange; split <;> simp_all
theorem checkSrc_pass {s : State} {r : Reg} (h : (s.poly r).tag ≠ .empty) : checkSrc s r = none := if_neg h
theorem checkSrc_fail {s : State} {r : Reg} (h : (s.poly r).tag = .empty) : checkSrc s r = some .uninit := if_pos h
theorem checkTag_pass {s : State} {r : Reg} {t : Tag} (h : (s.poly r).tag = t) : checkTag s r t = none := if_pos h
theorem checkTag_fail {s : State} {r : Reg} {t : Tag} (h : (s.poly r).tag ≠ t) : checkTag s r t = some .domain :=
  if_neg h
theorem checkSameTag_pass {s : State} {r1 r2 : Reg} (h : (s.poly r1).tag = (s.poly r2).tag) :
    checkSameTag s r1 r2 = none := if_pos h
theorem checkSameTag_fail {s : State} {r1 r2 : Reg} (h : (s.poly r1).tag ≠ (s.poly r2).tag) :
    checkSameTag s r1 r2 = some .domain := if_neg h
@[simp] theorem checkParam_true : checkParam true = none := rfl
@[simp] theorem checkParam_false : checkParam false = some .badParam := rfl

/-- The first error of a list of checks is one of the checks' errors, and with none every check passes. -/
theorem firstError_eq_none {cs : List (Option ErrCode)} : firstError cs = none ↔ ∀ c ∈ cs, c = none := by
  induction cs with
  | nil => simp
  | cons c cs ih => cases c <;> simp [ih]

theorem firstError_mem {cs : List (Option ErrCode)} {e : ErrCode} (h : firstError cs = some e) : some e ∈ cs := by
  induction cs with
  | nil => simp at h
  | cons c cs ih =>
    cases c with
    | none => simp at h; simp [ih h]
    | some d => simp at h; simp [h]

/-! ### Commands -/

theorem command_pass {s : State} {checks : List (Option ErrCode)} (effect : State) (h : firstError checks = none) :
    command s checks effect = .next (complete .ok effect) := by simp [command, h]

theorem command_fail {s : State} {checks : List (Option ErrCode)} {e : ErrCode} (effect : State)
    (h : firstError checks = some e) : command s checks effect = .next (complete e s) := by
  simp [command, h, raiseError]

theorem samplingCommand_pass {s : State} {checks : List (Option ErrCode)} (effect : Option State)
    (h : firstError checks = none) : samplingCommand s checks effect = .next (completeOrSample s effect) := by
  simp [samplingCommand, h]

theorem samplingCommand_fail {s : State} {checks : List (Option ErrCode)} {e : ErrCode} (effect : Option State)
    (h : firstError checks = some e) : samplingCommand s checks effect = .next (complete e s) := by
  simp [samplingCommand, h, raiseError]

@[simp] theorem completeOrSample_some (s s' : State) : completeOrSample s (some s') = complete .ok s' := rfl
@[simp] theorem completeOrSample_none (s : State) : completeOrSample s none = keepSampling s := rfl

/-- Everything `command` can do: the first failing check's error, or the effect. -/
theorem command_cases (s : State) (checks : List (Option ErrCode)) (effect : State) :
    (∃ e, firstError checks = some e ∧ command s checks effect = .next (complete e s)) ∨
    (firstError checks = none ∧ command s checks effect = .next (complete .ok effect)) := by
  cases h : firstError checks with
  | none => exact .inr ⟨rfl, command_pass effect h⟩
  | some e => exact .inl ⟨e, rfl, command_fail effect h⟩

/-- Everything `samplingCommand` can do: an error, the effect, or reading further. -/
theorem samplingCommand_cases (s : State) (checks : List (Option ErrCode)) (effect : Option State) :
    (∃ e, firstError checks = some e ∧ samplingCommand s checks effect = .next (complete e s)) ∨
    (∃ s', firstError checks = none ∧ effect = some s' ∧
      samplingCommand s checks effect = .next (complete .ok s')) ∨
    (firstError checks = none ∧ effect = none ∧ samplingCommand s checks effect = .next (keepSampling s)) := by
  cases h : firstError checks with
  | some e => exact .inl ⟨e, rfl, samplingCommand_fail effect h⟩
  | none =>
    cases effect with
    | none => exact .inr (.inr ⟨rfl, rfl, samplingCommand_pass none h⟩)
    | some s' => exact .inr (.inl ⟨s', rfl, rfl, samplingCommand_pass _ h⟩)

/-! ### Completion -/

theorem SameControl.refl (s : State) : SameControl s s := ⟨rfl, rfl, rfl, rfl, rfl, rfl, rfl, rfl, rfl, rfl, rfl⟩

theorem SameControl.trans {s t u : State} (h : SameControl s t) (h' : SameControl t u) : SameControl s u :=
  ⟨h'.cmd0.trans h.cmd0, h'.cmd1.trans h.cmd1, h'.cmd2.trans h.cmd2, h'.level.trans h.level, h'.doneIe.trans h.doneIe,
    h'.memBytes.trans h.memBytes, h'.csrRdata.trans h.csrRdata, h'.bufRdata.trans h.bufRdata, h'.held.trans h.held,
    h'.hostQueue.trans h.hostQueue, h'.sched.trans h.sched⟩

theorem sameControl_complete (c : ErrCode) (s : State) : SameControl s (complete c s) :=
  ⟨rfl, rfl, rfl, rfl, rfl, rfl, rfl, rfl, rfl, rfl, rfl⟩

theorem sameControl_setPoly (s : State) (r : Reg) (tag : Tag) (f : Poly) : SameControl s (s.setPoly r tag f) :=
  ⟨rfl, rfl, rfl, rfl, rfl, rfl, rfl, rfl, rfl, rfl, rfl⟩

theorem sameControl_memWrite (s : State) (a : Nat) (v : List Byte) : SameControl s (s.memWrite a v) :=
  ⟨rfl, rfl, rfl, rfl, rfl, rfl, rfl, rfl, rfl, rfl, rfl⟩

/-- Completing the effect `s'` of a command of `s`. -/
theorem completedWith_complete {s s' : State} (c : ErrCode) (h : SameControl s s') :
    CompletedWith c s (complete c s') :=
  ⟨rfl, rfl, rfl, rfl, h.trans (sameControl_complete c s')⟩

/-- A failing command does nothing but complete (R402). -/
theorem failedWith_complete {c : ErrCode} (h : c ≠ .ok) (s : State) : FailedWith c s (complete c s) :=
  ⟨h, completedWith_complete c (SameControl.refl s), rfl, fun _ => rfl, fun _ => rfl, rfl⟩

/-- A command that only writes a register. -/
theorem wroteRegister_complete (s : State) (rd : Reg) (tag : Tag) (f : Poly) :
    WroteRegister rd tag f false s (complete .ok (s.setPoly rd tag f)) where
  completed := completedWith_complete _ (sameControl_setPoly _ _ _ _)
  result := by simp
  others := fun r h => by simp [setPoly_poly, h]
  memory := fun _ => rfl
  scratch := rfl
  ncan := by simp

/-- A command that only writes bytes. -/
theorem wroteBytes_complete {s : State} (hm : Memory.wf s.mem = true) (a : Nat) (v : List Byte) :
    WroteBytes a v s (complete .ok (s.memWrite a v)) where
  completed := completedWith_complete _ (sameControl_memWrite _ _ _)
  result := Memory.readBytes_writeBytes hm a v
  outside := fun b hb => by
    simp only [complete_mem, memWrite_mem, Memory.read_writeBytes hm]
    rw [if_neg (by omega)]
  polys := fun _ => rfl
  scratch := rfl
  ncan := rfl

end Sys2Proof.Machine
end

