-- ==== Sys2Proof/Laws/Units.lean ====
section
/-! SUPPORT. The pure units: the values of the coefficient units, the lengths of what the codec, the hashes and the
KEM procedures give, and that every polynomial a unit gives is canonical. -/

namespace Sys2Proof.Machine

/-! ### Coefficients -/

theorem coeff_toNat {x : Nat} (h : x < 4096) : (coeff x).toNat = x := by
  rw [coeff, BitVec.toNat_ofNat, Nat.mod_eq_of_lt (by simpa using h)]

theorem coeff_toNat_of_lt {x : Nat} (h : x < Config.q) : (coeff x).toNat = x :=
  coeff_toNat (Nat.lt_trans h (by decide))

theorem coeff_of_toNat (x : Coeff) : coeff x.toNat = x := by simp [coeff]

theorem coeff_mod_lt (x : Nat) : (coeff (x % Config.q)).toNat < Config.q := by
  rw [coeff_toNat_of_lt (Nat.mod_lt _ (by decide))]
  exact Nat.mod_lt _ (by decide)

/-- modular_adder (R140). -/
theorem modadd_toNat (a b : Coeff) : (modadd a b).toNat = (a.toNat + b.toNat) % Config.q :=
  coeff_toNat_of_lt (Nat.mod_lt _ (by decide))

/-- modular_multiplier (R142). -/
theorem modmul_toNat (a b : Coeff) : (modmul a b).toNat = a.toNat * b.toNat % Config.q :=
  coeff_toNat_of_lt (Nat.mod_lt _ (by decide))

theorem int_emod_toNat_lt (x : Int) : (x % (Config.q : Int)).toNat < Config.q := by
  have h1 : x % (Config.q : Int) < Config.q := Int.emod_lt_of_pos _ (by decide)
  have h2 : Config.q = 3329 := rfl
  omega

/-- modular_subtracter (R141). -/
theorem modsub_toNat (a b : Coeff) : ((modsub a b).toNat : Int) = ((a.toNat : Int) - b.toNat) % Config.q := by
  rw [modsub, coeff_toNat_of_lt (int_emod_toNat_lt _)]
  exact Int.toNat_of_nonneg (Int.emod_nonneg _ (by decide))

theorem modadd_lt (a b : Coeff) : (modadd a b).toNat < Config.q := coeff_mod_lt _
theorem modmul_lt (a b : Coeff) : (modmul a b).toNat < Config.q := coeff_mod_lt _
theorem modsub_lt (a b : Coeff) : (modsub a b).toNat < Config.q := by
  rw [modsub, coeff_toNat_of_lt (int_emod_toNat_lt _)]; exact int_emod_toNat_lt _

/-! ### Polynomials -/

theorem Poly.ext_coeffs {a b : Poly} (h : a.coeffs = b.coeffs) : a = b := by
  cases a; cases b; simp_all

theorem Poly.ofList_coeffs {l : List Coeff} (h : l.length = 256) : (Poly.ofList l).coeffs = l := by
  rw [Poly.ofList]
  exact List.take_left' h

theorem Poly.ofList_of_coeffs (p : Poly) : Poly.ofList p.coeffs = p := Poly.ext_coeffs (Poly.ofList_coeffs p.size)

theorem Poly.get_eq_getElem (p : Poly) {i : Nat} (h : i < 256) : p.get i = p.coeffs[i]'(by rw [p.size]; exact h) := by
  have : i < p.coeffs.length := by rw [p.size]; exact h
  simp [Poly.get, List.getD, this]

/-- Two polynomials with the same 256 coefficients are equal. -/
theorem Poly.ext_get {a b : Poly} (h : ∀ i, i < 256 → a.get i = b.get i) : a = b := by
  apply Poly.ext_coeffs
  apply List.ext_getElem (by rw [a.size, b.size])
  intro i h1 h2
  have hi : i < 256 := by rw [a.size] at h1; exact h1
  have := h i hi
  rwa [Poly.get_eq_getElem _ hi, Poly.get_eq_getElem _ hi] at this

theorem Poly.get_map2 (f : Coeff → Coeff → Coeff) (a b : Poly) {i : Nat} (h : i < 256) :
    (Poly.map2 f a b).get i = f (a.get i) (b.get i) := by
  rw [Poly.get_eq_getElem _ h, Poly.get_eq_getElem _ h, Poly.get_eq_getElem _ h]
  simp [Poly.map2]

theorem Poly.get_zero (i : Nat) : Poly.zero.get i = 0 := by
  show (List.replicate 256 (0 : Coeff)).getD i 0 = 0
  generalize 256 = n
  by_cases h : i < n
  · rw [List.getD_replicate _ h]
  · rw [List.getD_eq_default _ _ (by simpa using h)]

/-- Lane `i` of a canonical polynomial. -/
theorem Poly.canonical.get {p : Poly} (h : p.canonical) (i : Nat) : (p.get i).toNat < Config.q := by
  by_cases hi : i < 256
  · rw [Poly.get_eq_getElem _ hi]
    exact h _ (List.getElem_mem _)
  · have : p.coeffs.length ≤ i := by rw [p.size]; omega
    simp [Poly.get, List.getD, this]
    decide

theorem Poly.canonical_of_get {p : Poly} (h : ∀ i, i < 256 → (p.get i).toNat < Config.q) : p.canonical := by
  intro x hx
  obtain ⟨i, hi, rfl⟩ := List.getElem_of_mem hx
  have hi' : i < 256 := by rw [p.size] at hi; exact hi
  have := h i hi'
  rwa [Poly.get_eq_getElem _ hi'] at this

theorem Poly.ofList_canonical {l : List Coeff} (h : ∀ x ∈ l, x.toNat < Config.q) : (Poly.ofList l).canonical := by
  intro x hx
  have hx' := List.mem_of_mem_take hx
  rcases List.mem_append.mp hx' with hx' | hx'
  · exact h x hx'
  · rw [List.eq_of_mem_replicate hx']; decide

theorem Poly.ofNats_canonical {l : List Nat} (h : ∀ x ∈ l, x < Config.q) : (Poly.ofNats l).canonical := by
  apply Poly.ofList_canonical
  intro x hx
  obtain ⟨y, hy, rfl⟩ := List.mem_map.mp hx
  rw [coeff_toNat_of_lt (h y hy)]
  exact h y hy

theorem Poly.zero_canonical : Poly.zero.canonical := by
  intro x hx
  rw [List.eq_of_mem_replicate hx]; decide

theorem Poly.map2_canonical {f : Coeff → Coeff → Coeff} (hf : ∀ a b, (f a b).toNat < Config.q) (a b : Poly) :
    (Poly.map2 f a b).canonical :=
  Poly.canonical_of_get fun i hi => by rw [Poly.get_map2 _ _ _ hi]; exact hf _ _

theorem Poly.length_toNats (p : Poly) : p.toNats.length = 256 := by simp [Poly.toNats, p.size]

theorem Poly.toNats_ofNats {l : List Nat} (hl : l.length = 256) (h : ∀ x ∈ l, x < 4096) :
    (Poly.ofNats l).toNats = l := by
  rw [Poly.ofNats, Poly.toNats, Poly.ofList_coeffs (by simpa using hl), List.map_map]
  conv_rhs => rw [← List.map_id l]
  exact List.map_congr_left fun x hx => coeff_toNat (h x hx)

theorem Poly.ofNats_toNats (p : Poly) : Poly.ofNats p.toNats = p := by
  apply Poly.ext_coeffs
  rw [Poly.ofNats, Poly.ofList_coeffs (by simp [Poly.length_toNats]), Poly.toNats, List.map_map]
  conv_rhs => rw [← List.map_id p.coeffs]
  exact List.map_congr_left fun x _ => coeff_of_toNat x

/-! ### Base multiplication -/

theorem basemulPairs_lt (g a b : List Coeff) : ∀ x ∈ basemulPairs g a b, x.toNat < Config.q := by
  induction g generalizing a b with
  | nil => intro x hx; simp [basemulPairs] at hx
  | cons g gs ih =>
    intro x hx
    match a, b with
    | a0 :: a1 :: as, b0 :: b1 :: bs =>
      rw [basemulPairs] at hx
      rcases List.mem_append.mp hx with hx | hx
      · rcases List.mem_cons.mp hx with rfl | hx
        · exact coeff_mod_lt _
        · rw [List.mem_singleton.mp hx]; exact coeff_mod_lt _
      · exact ih as bs x hx
    | [], _ => simp [basemulPairs] at hx
    | [_], _ => simp [basemulPairs] at hx
    | _ :: _ :: _, [] => simp [basemulPairs] at hx
    | _ :: _ :: _, [_] => simp [basemulPairs] at hx

theorem length_basemulPairs (g a b : List Coeff) (ha : a.length = 2 * g.length) (hb : b.length = 2 * g.length) :
    (basemulPairs g a b).length = 2 * g.length := by
  induction g generalizing a b with
  | nil => simp [basemulPairs]
  | cons g gs ih =>
    match a, b with
    | a0 :: a1 :: as, b0 :: b1 :: bs =>
      simp only [List.length_cons] at ha hb
      rw [basemulPairs, List.length_append, ih as bs (by omega) (by omega)]
      simp [basemulPair]; omega
    | [], _ => simp at ha
    | [_], _ => simp at ha; omega
    | _ :: _ :: _, [] => simp at hb
    | _ :: _ :: _, [_] => simp at hb; omega

theorem basemul_canonical (a b : Poly) : (basemul a b).canonical := Poly.ofList_canonical (basemulPairs_lt _ _ _)

theorem length_gammaTable : gammaTable.length = 128 := by simp [gammaTable, gammaNats]
theorem length_zetaTable : zetaTable.length = 128 := by simp [zetaTable, zetaNats]

theorem basemul_coeffs (a b : Poly) : (basemul a b).coeffs = basemulPairs gammaTable a.coeffs b.coeffs :=
  Poly.ofList_coeffs (by
    rw [length_basemulPairs _ _ _ (by rw [a.size, length_gammaTable]) (by rw [b.size, length_gammaTable]),
      length_gammaTable])

/-- The two entries of pair `i` of a base multiplication. -/
theorem getD_basemulPairs (g a b : List Coeff) (ha : a.length = 2 * g.length) (hb : b.length = 2 * g.length) (i : Nat)
    (hi : i < g.length) :
    (basemulPairs g a b).getD (2 * i) 0 =
        coeff (((a.getD (2 * i) 0).toNat * (b.getD (2 * i) 0).toNat +
          (a.getD (2 * i + 1) 0).toNat * (b.getD (2 * i + 1) 0).toNat * (g.getD i 0).toNat) % Config.q) ∧
      (basemulPairs g a b).getD (2 * i + 1) 0 =
        coeff (((a.getD (2 * i) 0).toNat * (b.getD (2 * i + 1) 0).toNat +
          (a.getD (2 * i + 1) 0).toNat * (b.getD (2 * i) 0).toNat) % Config.q) := by
  induction g generalizing a b i with
  | nil => simp at hi
  | cons g gs ih =>
    match a, b with
    | a0 :: a1 :: as, b0 :: b1 :: bs =>
      simp only [List.length_cons] at ha hb hi
      rw [basemulPairs]
      cases i with
      | zero => simp [basemulPair]
      | succ i =>
        have h1 : 2 * (i + 1) = 2 * i + 2 := by omega
        have h2 : 2 * (i + 1) + 1 = 2 * i + 1 + 2 := by omega
        simpa [basemulPair, h1, h2] using ih as bs (by omega) (by omega) i (by omega)
    | [], _ => simp at ha
    | [_], _ => simp at ha; omega
    | _ :: _ :: _, [] => simp at hb
    | _ :: _ :: _, [_] => simp at hb; omega

/-! ### The transform -/

/-- A butterfly gives canonical coefficients. -/
theorem ctBfly_lt (a b z : Coeff) : (ctBfly a b z).1.toNat < Config.q ∧ (ctBfly a b z).2.toNat < Config.q :=
  ⟨modadd_lt _ _, modsub_lt _ _⟩

theorem gsBfly_lt (a b z : Coeff) : (gsBfly a b z).1.toNat < Config.q ∧ (gsBfly a b z).2.toNat < Config.q :=
  ⟨modadd_lt _ _, modmul_lt _ _⟩

theorem butterflyLayer_lt {bfly : Coeff → Coeff → Coeff → Coeff × Coeff}
    (hb : ∀ a b z, (bfly a b z).1.toNat < Config.q ∧ (bfly a b z).2.toNat < Config.q) (len : Nat)
    (factors g : List Coeff) : ∀ x ∈ butterflyLayer bfly len factors g, x.toNat < Config.q := by
  intro x hx
  obtain ⟨blk, hblk, hx⟩ := List.mem_flatten.mp hx
  rw [List.zipWith_eq_zipWith_take_min, List.mem_iff_getElem] at hblk
  obtain ⟨i, hi, rfl⟩ := hblk
  simp only [List.getElem_zipWith, butterflyBlock, List.mem_append, List.mem_map] at hx
  rcases hx with ⟨p, hp, rfl⟩ | ⟨p, hp, rfl⟩ <;>
  · obtain ⟨j, hj, rfl⟩ := List.mem_iff_getElem.mp hp
    rw [List.getElem_zipWith]
    first | exact (hb _ _ _).1 | exact (hb _ _ _).2

theorem nttLayer_lt (g : List Coeff) (len : Nat) : ∀ x ∈ nttLayer g len, x.toNat < Config.q :=
  butterflyLayer_lt ctBfly_lt len _ g

theorem inttLayer_lt (g : List Coeff) (len : Nat) : ∀ x ∈ inttLayer g len, x.toNat < Config.q :=
  butterflyLayer_lt gsBfly_lt len _ g

theorem ntt_canonical (f : Poly) : (ntt f).canonical := by
  unfold ntt
  simp only [List.foldl_cons, List.foldl_nil]
  exact Poly.ofList_canonical (nttLayer_lt _ 2)

theorem intt_canonical (g : Poly) : (intt g).canonical := by
  apply Poly.ofList_canonical
  intro x hx
  obtain ⟨y, _, rfl⟩ := List.mem_map.mp hx
  exact modmul_lt _ _

/-! ### Sampling -/

theorem cbd_canonical (B : List Byte) (eta : Nat) : (cbd B eta).canonical := by
  apply Poly.ofList_canonical
  intro x hx
  obtain ⟨c, _, rfl⟩ := List.mem_map.mp hx
  rw [cbdCoeff, coeff_toNat_of_lt (int_emod_toNat_lt _)]
  exact int_emod_toNat_lt _

theorem sampleCbd_canonical (seed : List Byte) (nonce : Byte) (eta : Nat) : (sampleCbd seed nonce eta).canonical :=
  cbd_canonical _ _

/-- What `parse` gives is the first 256 candidates below q. -/
theorem parse_coeffs {S : List Byte} {p : Poly} (h : parse S = some p) :
    p.coeffs = (((candidates S).filter (· < Config.q)).map coeff).take 256 := by
  unfold parse at h
  simp only at h
  split at h
  · rw [← Option.some.inj h]
  · exact absurd h (by simp)

theorem parse_canonical {S : List Byte} {p : Poly} (h : parse S = some p) : p.canonical := by
  intro x hx
  rw [parse_coeffs h] at hx
  obtain ⟨y, hy, rfl⟩ := List.mem_map.mp (List.mem_of_mem_take hx)
  have := (List.mem_filter.mp hy).2
  simp only [decide_eq_true_eq] at this
  rw [coeff_toNat_of_lt this]
  exact this

/-! ### The codec -/

@[simp] theorem length_byteEncode (f : List Nat) (d : Nat) : (byteEncode f d).length = 32 * d := by simp [byteEncode]
@[simp] theorem length_enc12 (f : Poly) : (enc12 f).length = 384 := by simp [enc12]
@[simp] theorem length_cenc (f : Poly) (d : Nat) : (cenc f d).length = 32 * d := by simp [cenc]
@[simp] theorem length_msgEncode (w : Poly) : (msgEncode w).length = 32 := by simp [msgEncode]
@[simp] theorem length_byteDecode (E : List Byte) (d : Nat) : (byteDecode E d).length = 256 := by simp [byteDecode]

/-- Every group of `byte_decode(E, d)` is below 2^d (R241). -/
theorem byteDecode_lt (E : List Byte) (d : Nat) : ∀ x ∈ byteDecode E d, x < 2 ^ d := by
  intro x hx
  obtain ⟨c, hc, rfl⟩ := List.mem_map.mp hx
  refine Nat.lt_of_lt_of_le (bitsToNat_lt c) (Nat.pow_le_pow_right (by decide) ?_)
  obtain ⟨i, hi, rfl⟩ := List.getElem_of_mem hc
  rw [getElem_chunks]
  exact List.length_take_le _ _

theorem dec12_canonical (B : List Byte) : (dec12 B).canonical := by
  apply Poly.ofNats_canonical
  intro x hx
  obtain ⟨y, _, rfl⟩ := List.mem_map.mp hx
  exact Nat.mod_lt _ (by decide)

/-- Every output of decompress is below q (R245). -/
theorem decompress_lt {y d : Nat} (hy : y < 2 ^ d) (hd : d ≤ 11) : decompress y d < Config.q := by
  unfold decompress
  rw [Nat.div_lt_iff_lt_mul (Nat.pow_pos (by decide)), Nat.pow_succ]
  have h2 : 2 ^ d ≤ 2 ^ 11 := Nat.pow_le_pow_right (by decide) hd
  generalize hN : 2 ^ d = N at *
  have h3 : y + 1 ≤ N := hy
  show 2 * y * 3329 + N < 3329 * (N * 2)
  norm_num at h2
  omega

theorem cdec_canonical (B : List Byte) {d : Nat} (hd : d ≤ 11) : (cdec B d).canonical := by
  apply Poly.ofNats_canonical
  intro x hx
  obtain ⟨y, hy, rfl⟩ := List.mem_map.mp hx
  exact decompress_lt (byteDecode_lt _ _ y hy) hd

theorem compress_lt (x d : Nat) : compress x d < 2 ^ d := Nat.mod_lt _ (Nat.pow_pos (by decide))

/-! ### Hashes -/

@[simp] theorem length_bytesOfLanes (A : KState) : (bytesOfLanes A).length = 200 := by
  obtain ⟨⟨rows⟩, h⟩ := A
  simp only [List.size_toArray] at h
  match rows, h with
  | [a, b, c, d, e], _ =>
    have h5 : ∀ row : Vector Lane 5, (row.toList.flatMap laneToBytes).length = 40 := by
      intro row
      obtain ⟨⟨ls⟩, h⟩ := row
      simp only [List.size_toArray] at h
      match ls, h with
      | [a, b, c, d, e], _ => simp [Vector.toList]
    simp [bytesOfLanes, Vector.toList] at h5 ⊢

@[simp] theorem length_keccakBytes (S : List Byte) : (keccakBytes S).length = 200 := by simp [keccakBytes]

theorem length_xorBlock (S block : List Byte) (h : block.length ≤ S.length) : (xorBlock S block).length = S.length := by
  simp [xorBlock]; omega

theorem length_absorb (Mg : List Byte) (r : Nat) (sfx : Byte) : (absorb Mg r sfx).length = 200 := by
  unfold absorb
  simp only
  generalize chunks r ((pad Mg r sfx).length / r) (pad Mg r sfx) = L
  have : ∀ (L : List (List Byte)) (S : List Byte), S.length = 200 →
      (L.foldl (fun S block => keccakBytes (xorBlock S block)) S).length = 200 := by
    intro L
    induction L with
    | nil => exact fun S h => h
    | cons b L ih => exact fun S _ => ih _ (length_keccakBytes _)
  exact this L _ List.length_replicate

theorem length_squeezeBlocks {r : Nat} (hr : r ≤ 200) (count : Nat) (S : List Byte) (hS : S.length = 200) :
    (squeezeBlocks r count S).length = r * count := by
  induction count generalizing S with
  | zero => rfl
  | succ n ih =>
    cases n with
    | zero => simp [squeezeBlocks, hS, hr]
    | succ n =>
      rw [squeezeBlocks, List.length_append, ih _ (length_keccakBytes _), List.length_take, hS, Nat.min_eq_left hr,
        Nat.mul_succ r (n + 1)]
      omega

/-- The sponge gives as many bytes as asked (R288). -/
theorem length_sponge {r : Nat} (h0 : 0 < r) (hr : r ≤ 200) (sfx : Byte) (Mg : List Byte) (l : Nat) :
    (sponge r sfx Mg l).length = l := by
  rw [sponge, squeeze, List.length_take, length_squeezeBlocks hr _ _ (length_absorb _ _ _)]
  apply Nat.min_eq_left
  have h := Nat.div_add_mod (l + r - 1) r
  have h2 := Nat.mod_lt (l + r - 1) h0
  omega

@[simp] theorem length_sha3_256 (Mg : List Byte) : (sha3_256 Mg).length = 32 :=
  length_sponge (by decide) (by decide) _ _ _
@[simp] theorem length_sha3_512 (Mg : List Byte) : (sha3_512 Mg).length = 64 :=
  length_sponge (by decide) (by decide) _ _ _
@[simp] theorem length_shake128 (Mg : List Byte) (l : Nat) : (shake128 Mg l).length = l :=
  length_sponge (by decide) (by decide) _ _ _
@[simp] theorem length_shake256 (Mg : List Byte) (l : Nat) : (shake256 Mg l).length = l :=
  length_sponge (by decide) (by decide) _ _ _
@[simp] theorem length_hashH (Mg : List Byte) : (hashH Mg).length = 32 := length_sha3_256 Mg
@[simp] theorem length_hashG_fst (Mg : List Byte) : (hashG Mg).1.length = 32 := by simp [hashG]
@[simp] theorem length_hashG_snd (Mg : List Byte) : (hashG Mg).2.length = 32 := by simp [hashG]
@[simp] theorem length_kdf (Mg : List Byte) : (kdf Mg).length = 32 := length_shake256 Mg 32

theorem length_hashOutput (d : BitVec 4) (outlen : Half) (Mg : List Byte) :
    (hashOutput d (hashOutLen d outlen) Mg).length = hashOutLen d outlen := by
  unfold hashOutput hashOutLen
  split
  · simp
  · split
    · simp
    · split <;> simp

/-! ### The KEM procedures -/

@[simp] theorem length_noiseVector (lv : Level) (seed : List Byte) (first eta : Nat) :
    (noiseVector lv seed first eta).length = lv.k := by simp [noiseVector]

@[simp] theorem length_decVector (lv : Level) (B : List Byte) : (decVector lv B).length = lv.k := by simp [decVector]

theorem length_genA {lv : Level} {blocks : Nat} {rho : List Byte} {tr : Bool} {A : List (List Poly)}
    (h : genA lv blocks rho tr = some A) : A.length = lv.k := by
  have := length_allSome h
  simpa using this

theorem length_flatMap_const {α β : Type} {f : α → List β} {m : Nat} (h : ∀ x, (f x).length = m) (l : List α) :
    (l.flatMap f).length = m * l.length := by
  induction l with
  | nil => rfl
  | cons x l ih => rw [List.flatMap_cons, List.length_append, h, ih, List.length_cons, Nat.mul_succ, Nat.add_comm]

theorem cpaKeygen_lengths {lv : Level} {blocks : Nat} {d pk sk : List Byte}
    (h : cpaKeygen lv blocks d = some (pk, sk)) : pk.length = lv.pkBytes ∧ sk.length = 384 * lv.k := by
  unfold cpaKeygen at h
  simp only at h
  split at h
  · exact absurd h (by simp)
  · rename_i A hA
    have hl := length_genA hA
    simp only [Option.some.injEq, Prod.mk.injEq] at h
    obtain ⟨rfl, rfl⟩ := h
    constructor
    · rw [List.length_append, length_flatMap_const length_enc12]
      simp [hl, Level.pkBytes]
    · rw [length_flatMap_const length_enc12]; simp

/-- The sizes of a key pair (R9, R324). -/
theorem kemKeygen_lengths {lv : Level} {blocks : Nat} {d z pk sk : List Byte} (hz : z.length = 32)
    (h : kemKeygen lv blocks d z = some (pk, sk)) : pk.length = lv.pkBytes ∧ sk.length = lv.skBytes := by
  unfold kemKeygen at h
  split at h
  · exact absurd h (by simp)
  · rename_i pk' sk' hk
    simp only [Option.some.injEq, Prod.mk.injEq] at h
    obtain ⟨rfl, rfl⟩ := h
    obtain ⟨h1, h2⟩ := cpaKeygen_lengths hk
    refine ⟨h1, ?_⟩
    simp [h1, h2, hz, Level.pkBytes, Level.skBytes]; omega

/-- The size of a ciphertext (R9, R322). -/
theorem length_cpaEncrypt {lv : Level} {blocks : Nat} {pk m coins c : List Byte}
    (h : cpaEncrypt lv blocks pk m coins = some c) : c.length = lv.ctBytes := by
  unfold cpaEncrypt at h
  simp only at h
  split at h
  · exact absurd h (by simp)
  · rename_i A hA
    have hl := length_genA hA
    rw [← Option.some.inj h, List.length_append, length_flatMap_const fun x => length_cenc x lv.du]
    simp [hl, Level.ctBytes]
    ring

theorem kemEncaps_lengths {lv : Level} {blocks : Nat} {pk m c k : List Byte}
    (h : kemEncaps lv blocks pk m = some (c, k)) : c.length = lv.ctBytes ∧ k.length = 32 := by
  unfold kemEncaps at h
  simp only at h
  split at h
  · exact absurd h (by simp)
  · rename_i c' hc
    simp only [Option.some.injEq, Prod.mk.injEq] at h
    obtain ⟨rfl, rfl⟩ := h
    exact ⟨length_cpaEncrypt hc, length_kdf _⟩

theorem length_kemDecaps {lv : Level} {blocks : Nat} {sk c k : List Byte} (h : kemDecaps lv blocks sk c = some k) :
    k.length = 32 := by
  unfold kemDecaps at h
  simp only at h
  split at h
  · exact absurd h (by simp)
  · rw [← Option.some.inj h]; exact length_kdf _

end Sys2Proof.Machine
end

