-- ==== Sys2Proof/Laws/Effects.lean ====
section
/-! SUPPORT. Everything a command can do, said once for all 20: it ends in an error and does nothing else, or it
completes with an effect that leaves the control state alone and keeps the invariants, or it reads further in the
uniform sampler's stream (spec/60_exceptions.md R402, R404; spec/70_reset_and_hazards.md R465). -/

namespace Sys2Proof.Machine

/-- What the effect of a command leaves alone and keeps. -/
structure Effect (s s' : State) : Prop where
  control : SameControl s s'
  run : s'.run = s.run
  cur : s'.cur = s.cur
  freeCount : s'.freeCount = s.freeCount
  streamTries : s'.streamTries = s.streamTries
  done : s'.status.done = s.status.done
  err : s'.status.err = s.status.err
  errcode : s'.status.errcode = s.status.errcode
  ncan : s.status.ncan = true → s'.status.ncan = true
  scratch : s'.scratch = s.scratch ∨ s'.scratch = Scratch.zero
  memoryOk : s.MemoryOk → s'.MemoryOk
  canonical : s.Canonical → s'.Canonical
  emptyIsZero : s.EmptyIsZero → s'.EmptyIsZero

theorem Effect.refl (s : State) : Effect s s :=
  ⟨SameControl.refl s, rfl, rfl, rfl, rfl, rfl, rfl, rfl, id, .inl rfl, id, id, id⟩

theorem Effect.trans {s t u : State} (h : Effect s t) (h' : Effect t u) : Effect s u where
  control := h.control.trans h'.control
  run := h'.run.trans h.run
  cur := h'.cur.trans h.cur
  freeCount := h'.freeCount.trans h.freeCount
  streamTries := h'.streamTries.trans h.streamTries
  done := h'.done.trans h.done
  err := h'.err.trans h.err
  errcode := h'.errcode.trans h.errcode
  ncan := h'.ncan ∘ h.ncan
  scratch := by
    rcases h'.scratch with e | e
    · rcases h.scratch with e' | e'
      · exact .inl (e.trans e')
      · exact .inr (e.trans e')
    · exact .inr e
  memoryOk := h'.memoryOk ∘ h.memoryOk
  canonical := h'.canonical ∘ h.canonical
  emptyIsZero := h'.emptyIsZero ∘ h.emptyIsZero

theorem effect_setPoly {s : State} {rd : Reg} {tag : Tag} {f : Poly} (ht : tag ≠ .empty)
    (hf : s.Canonical → f.canonical) : Effect s (s.setPoly rd tag f) where
  control := sameControl_setPoly _ _ _ _
  run := rfl
  cur := rfl
  freeCount := rfl
  streamTries := rfl
  done := rfl
  err := rfl
  errcode := rfl
  ncan := id
  scratch := .inl rfl
  memoryOk := id
  canonical := fun h r => by
    rw [setPoly_poly]
    split
    · exact hf h
    · exact h r
  emptyIsZero := fun h r => by
    rw [setPoly_poly]
    split
    · exact fun e => absurd e ht
    · exact h r

theorem memoryOk_iff (s : State) : s.MemoryOk ↔ Memory.wf s.mem = true ∧ Memory.below s.memBytes s.mem = true := by
  simp [State.MemoryOk, Memory.below]

theorem effect_memWrite {s : State} {a : Nat} {v : List Byte} (h : a + v.length ≤ s.memBytes) :
    Effect s (s.memWrite a v) where
  control := sameControl_memWrite _ _ _
  run := rfl
  cur := rfl
  freeCount := rfl
  streamTries := rfl
  done := rfl
  err := rfl
  errcode := rfl
  ncan := id
  scratch := .inl rfl
  memoryOk := fun hm => by
    rw [memoryOk_iff] at *
    exact ⟨Memory.wf_writeBytes hm.1 _ _, Memory.below_writeBytes hm.2 h⟩
  canonical := id
  emptyIsZero := id

theorem effect_wipeScratch (s : State) : Effect s s.wipeScratch where
  control := ⟨rfl, rfl, rfl, rfl, rfl, rfl, rfl, rfl, rfl, rfl, rfl⟩
  run := rfl
  cur := rfl
  freeCount := rfl
  streamTries := rfl
  done := rfl
  err := rfl
  errcode := rfl
  ncan := id
  scratch := .inr rfl
  memoryOk := id
  canonical := id
  emptyIsZero := id

theorem effect_noteNcan (s : State) (b : Bool) : Effect s (s.noteNcan b) where
  control := ⟨rfl, rfl, rfl, rfl, rfl, rfl, rfl, rfl, rfl, rfl, rfl⟩
  run := rfl
  cur := rfl
  freeCount := rfl
  streamTries := rfl
  done := rfl
  err := rfl
  errcode := rfl
  ncan := fun h => by simp [h]
  scratch := .inl rfl
  memoryOk := id
  canonical := id
  emptyIsZero := id

theorem effect_wipeData (s : State) : Effect s s.wipeData where
  control := ⟨rfl, rfl, rfl, rfl, rfl, rfl, rfl, rfl, rfl, rfl, rfl⟩
  run := rfl
  cur := rfl
  freeCount := rfl
  streamTries := rfl
  done := rfl
  err := rfl
  errcode := rfl
  ncan := id
  scratch := .inr rfl
  memoryOk := fun _ => ⟨rfl, fun c hc => absurd hc List.not_mem_nil⟩
  canonical := fun _ r => by simp only [wipeData_poly]; exact Poly.zero_canonical
  emptyIsZero := fun _ r _ => by simp only [wipeData_poly]; rfl

/-- What the core step of a command can give. -/
inductive Outcomes (s : State) : Host.Outcome State Fault Refusal → Prop where
  | failed (e : ErrCode) (h : e ≠ .ok) : Outcomes s (.next (complete e s))
  | completed (s' : State) (h : Effect s s') : Outcomes s (.next (complete .ok s'))
  | sampling : Outcomes s (.next (keepSampling s))

/-- The errors the checks of the commands raise are errors. -/
def IsCheck (c : Option ErrCode) : Prop := c ≠ some .ok

theorem isCheck_range (s : State) (a n : Nat) : IsCheck (checkRange s a n) := by
  unfold IsCheck checkRange; split <;> simp
theorem isCheck_src (s : State) (r : Reg) : IsCheck (checkSrc s r) := by
  unfold IsCheck checkSrc; split <;> simp
theorem isCheck_tag (s : State) (r : Reg) (t : Tag) : IsCheck (checkTag s r t) := by
  unfold IsCheck checkTag; split <;> simp
theorem isCheck_sameTag (s : State) (r1 r2 : Reg) : IsCheck (checkSameTag s r1 r2) := by
  unfold IsCheck checkSameTag; split <;> simp
theorem isCheck_param (b : Bool) : IsCheck (checkParam b) := by cases b <;> simp [IsCheck]

theorem outcomes_command {s : State} {checks : List (Option ErrCode)} {effect : State}
    (hc : ∀ c ∈ checks, IsCheck c) (he : (∀ c ∈ checks, c = none) → Effect s effect) :
    Outcomes s (command s checks effect) := by
  rcases command_cases s checks effect with ⟨e, h, hx⟩ | ⟨h, hx⟩
  · rw [hx]
    exact .failed e fun h0 => hc _ (firstError_mem h) (by rw [h0])
  · rw [hx]
    exact .completed _ (he (firstError_eq_none.mp h))

theorem outcomes_samplingCommand {s : State} {checks : List (Option ErrCode)} {effect : Option State}
    (hc : ∀ c ∈ checks, IsCheck c) (he : (∀ c ∈ checks, c = none) → ∀ s', effect = some s' → Effect s s') :
    Outcomes s (samplingCommand s checks effect) := by
  rcases samplingCommand_cases s checks effect with ⟨e, h, hx⟩ | ⟨s', h, h', hx⟩ | ⟨h, h', hx⟩
  · rw [hx]
    exact .failed e fun h0 => hc _ (firstError_mem h) (by rw [h0])
  · rw [hx]
    exact .completed _ (he (firstError_eq_none.mp h) s' h')
  · rw [hx]; exact .sampling

theorem tag_ne_of_check {s : State} {r : Reg} (h : checkSrc s r = none) : (s.poly r).tag ≠ .empty := by
  intro e; rw [checkSrc_fail e] at h; exact absurd h (by simp)

theorem tagOfCode_ne_empty (d : BitVec 4) : tagOfCode d ≠ .empty := by unfold tagOfCode; split <;> simp

theorem width_le_of_check {d : BitVec 4} (h : checkParam (widthLegal d) = none) : d.toNat ≤ 11 := by
  cases hw : widthLegal d with
  | false => rw [hw] at h; exact absurd h (by simp)
  | true => simp [widthLegal] at hw; exact hw.2

/-- Everything the core step of a command can do. -/
theorem exec_outcomes (i : Instr) (s : State) : Outcomes s (exec i s) := by
  cases i with
  | nop => exact outcomes_command (checks := []) (by simp) fun _ => Effect.refl s
  | padd rd rs1 rs2 =>
    refine outcomes_command ?_ fun h => effect_setPoly (tag_ne_of_check (h _ (by simp)))
      fun _ => Poly.map2_canonical modadd_lt _ _
    simp [isCheck_src, isCheck_sameTag]
  | psub rd rs1 rs2 =>
    refine outcomes_command ?_ fun h => effect_setPoly (tag_ne_of_check (h _ (by simp)))
      fun _ => Poly.map2_canonical modsub_lt _ _
    simp [isCheck_src, isCheck_sameTag]
  | pbmul rd rs1 rs2 =>
    refine outcomes_command ?_ fun _ => effect_setPoly (by simp) fun _ => basemul_canonical _ _
    simp [isCheck_src, isCheck_tag]
  | pbmac rd rs1 rs2 =>
    refine outcomes_command ?_ fun _ => effect_setPoly (by simp) fun _ => Poly.map2_canonical modadd_lt _ _
    simp [isCheck_src, isCheck_tag]
  | pzero rd d =>
    refine outcomes_command ?_ fun _ => effect_setPoly (tagOfCode_ne_empty d) fun _ => Poly.zero_canonical
    simp [isCheck_param]
  | pmov rd rs1 =>
    refine outcomes_command ?_ fun h => effect_setPoly (tag_ne_of_check (h _ (by simp))) fun hs => hs rs1
    simp [isCheck_src]
  | ntt rd rs1 =>
    refine outcomes_command ?_ fun _ => effect_setPoly (by simp) fun _ => ntt_canonical _
    simp [isCheck_src, isCheck_tag]
  | intt rd rs1 =>
    refine outcomes_command ?_ fun _ => effect_setPoly (by simp) fun _ => intt_canonical _
    simp [isCheck_src, isCheck_tag]
  | scbd rd d imm8 a =>
    refine outcomes_command ?_ fun _ => effect_setPoly (by simp) fun _ => sampleCbd_canonical _ _ _
    simp [isCheck_param, isCheck_range]
  | samu rd imm8 y a =>
    refine outcomes_samplingCommand ?_ fun _ s' hs' => ?_
    · simp [isCheck_range]
    · obtain ⟨f, hf, rfl⟩ := Option.map_eq_some_iff.mp hs'
      exact effect_setPoly (by simp) fun _ => parse_canonical hf
  | enc12 rs1 a =>
    refine outcomes_command ?_ fun h => effect_memWrite ?_
    · simp [isCheck_range, isCheck_src]
    · rw [length_enc12]; exact checkRange_eq_none.mp (h _ (by simp))
  | dec12 rd d a =>
    refine outcomes_command ?_ fun _ => ?_
    · simp [isCheck_param, isCheck_range]
    · exact (effect_setPoly (tagOfCode_ne_empty d) fun _ => dec12_canonical _).trans (effect_noteNcan _ _)
  | cenc rs1 d a =>
    refine outcomes_command ?_ fun h => effect_memWrite ?_
    · simp [isCheck_range, isCheck_src, isCheck_tag, isCheck_param]
    · rw [length_cenc]; exact checkRange_eq_none.mp (h _ (by simp))
  | cdec rd d a =>
    refine outcomes_command ?_ fun h => effect_setPoly (by simp) fun _ =>
      cdec_canonical _ (width_le_of_check (h _ (by simp)))
    simp [isCheck_param, isCheck_range]
  | hash d a b len outlen =>
    refine outcomes_command ?_ fun h => effect_memWrite ?_
    · simp [isCheck_range, isCheck_param]
    · rw [length_hashOutput]; exact checkRange_eq_none.mp (h _ (by simp))
  | keygen a b c =>
    refine outcomes_samplingCommand ?_ fun h s' hs' => ?_
    · simp [isCheck_range]
    · obtain ⟨⟨pk, sk⟩, hk, rfl⟩ := Option.map_eq_some_iff.mp hs'
      obtain ⟨h1, h2⟩ := kemKeygen_lengths (by rw [List.length_drop, memRead_length]) hk
      refine ((effect_memWrite ?_).trans (effect_memWrite ?_)).trans (effect_wipeScratch _)
      · rw [h1]; exact checkRange_eq_none.mp (h _ (by simp))
      · rw [h2, memWrite_memBytes]; exact checkRange_eq_none.mp (h _ (by simp))
  | encaps a b c =>
    refine outcomes_samplingCommand ?_ fun h s' hs' => ?_
    · simp [isCheck_range]
    · obtain ⟨⟨ct, k⟩, hk, rfl⟩ := Option.map_eq_some_iff.mp hs'
      obtain ⟨h1, h2⟩ := kemEncaps_lengths hk
      have hr := checkRange_eq_none.mp (h (checkRange s c.toNat (s.level.ctBytes + 32)) (by simp))
      refine (((effect_memWrite ?_).trans (effect_memWrite ?_)).trans (effect_noteNcan _ _)).trans
        (effect_wipeScratch _)
      · rw [h1]; omega
      · rw [h2, memWrite_memBytes]; omega
  | decaps a b c =>
    refine outcomes_samplingCommand ?_ fun h s' hs' => ?_
    · simp [isCheck_range]
    · obtain ⟨k, hk, rfl⟩ := Option.map_eq_some_iff.mp hs'
      refine ((effect_memWrite ?_).trans (effect_noteNcan _ _)).trans (effect_wipeScratch _)
      rw [length_kemDecaps hk]; exact checkRange_eq_none.mp (h _ (by simp))
  | zeroize => exact outcomes_command (checks := []) (by simp) fun _ => effect_wipeData s

end Sys2Proof.Machine
end

