-- ==== Sys2Proof/Laws/PerInstr.lean ====
section
/-! SUPPORT. Per-instruction facts about the encoder: the opcode byte of each command's word is the one of the opcode map
(spec/30_encoding.md R106). -/

namespace Sys2Proof

/-- The opcode of a command (R106). -/
def opcodeOf : Instr → Byte
  | .nop => 0x00
  | .padd _ _ _ => 0x01
  | .psub _ _ _ => 0x02
  | .pbmul _ _ _ => 0x03
  | .pbmac _ _ _ => 0x04
  | .pzero _ _ => 0x05
  | .pmov _ _ => 0x06
  | .ntt _ _ => 0x08
  | .intt _ _ => 0x09
  | .scbd _ _ _ _ => 0x10
  | .samu _ _ _ _ => 0x11
  | .enc12 _ _ => 0x18
  | .dec12 _ _ _ => 0x19
  | .cenc _ _ _ => 0x1A
  | .cdec _ _ _ => 0x1B
  | .hash _ _ _ _ _ => 0x20
  | .keygen _ _ _ => 0x28
  | .encaps _ _ _ => 0x29
  | .decaps _ _ _ => 0x2A
  | .zeroize => 0x30

/-- The low part of an append. -/
theorem extractLsb'_append_low {m n : Nat} (x : BitVec m) (y : BitVec n) : (x ++ y).extractLsb' 0 n = y := by
  apply BitVec.eq_of_getLsbD_eq
  intro i hi
  simp [BitVec.getLsbD_append, hi]

/-- The lowest byte of a command word is its opcode. -/
theorem fieldOpc_commandWord (outlen c16 addrB addrA : Half) (imm8 : Byte) (d : BitVec 4) (rs2 rs1 rd : Reg)
    (opc : Byte) : fieldOpc (commandWord outlen c16 addrB addrA imm8 d rs2 rs1 rd opc) = opc :=
  extractLsb'_append_low _ opc

namespace Laws.EncodedOpcode

/-- The opcode byte of the word of `i`. -/
def Statement (i : Instr) : Prop := fieldOpc (encode i) = opcodeOf i

theorem nop : Statement .nop := fieldOpc_commandWord _ _ _ _ _ _ _ _ _ _
theorem padd (rd rs1 rs2 : Reg) : Statement (.padd rd rs1 rs2) := fieldOpc_commandWord _ _ _ _ _ _ _ _ _ _
theorem psub (rd rs1 rs2 : Reg) : Statement (.psub rd rs1 rs2) := fieldOpc_commandWord _ _ _ _ _ _ _ _ _ _
theorem pbmul (rd rs1 rs2 : Reg) : Statement (.pbmul rd rs1 rs2) := fieldOpc_commandWord _ _ _ _ _ _ _ _ _ _
theorem pbmac (rd rs1 rs2 : Reg) : Statement (.pbmac rd rs1 rs2) := fieldOpc_commandWord _ _ _ _ _ _ _ _ _ _
theorem pzero (rd : Reg) (d : BitVec 4) : Statement (.pzero rd d) := fieldOpc_commandWord _ _ _ _ _ _ _ _ _ _
theorem pmov (rd rs1 : Reg) : Statement (.pmov rd rs1) := fieldOpc_commandWord _ _ _ _ _ _ _ _ _ _
theorem ntt (rd rs1 : Reg) : Statement (.ntt rd rs1) := fieldOpc_commandWord _ _ _ _ _ _ _ _ _ _
theorem intt (rd rs1 : Reg) : Statement (.intt rd rs1) := fieldOpc_commandWord _ _ _ _ _ _ _ _ _ _
theorem scbd (rd : Reg) (d : BitVec 4) (imm8 : Byte) (addrA : Half) : Statement (.scbd rd d imm8 addrA) := fieldOpc_commandWord _ _ _ _ _ _ _ _ _ _
theorem samu (rd : Reg) (imm8 y : Byte) (addrA : Half) : Statement (.samu rd imm8 y addrA) := fieldOpc_commandWord _ _ _ _ _ _ _ _ _ _
theorem enc12 (rs1 : Reg) (addrA : Half) : Statement (.enc12 rs1 addrA) := fieldOpc_commandWord _ _ _ _ _ _ _ _ _ _
theorem dec12 (rd : Reg) (d : BitVec 4) (addrA : Half) : Statement (.dec12 rd d addrA) := fieldOpc_commandWord _ _ _ _ _ _ _ _ _ _
theorem cenc (rs1 : Reg) (d : BitVec 4) (addrA : Half) : Statement (.cenc rs1 d addrA) := fieldOpc_commandWord _ _ _ _ _ _ _ _ _ _
theorem cdec (rd : Reg) (d : BitVec 4) (addrA : Half) : Statement (.cdec rd d addrA) := fieldOpc_commandWord _ _ _ _ _ _ _ _ _ _
theorem hash (d : BitVec 4) (addrA addrB len outlen : Half) : Statement (.hash d addrA addrB len outlen) := fieldOpc_commandWord _ _ _ _ _ _ _ _ _ _
theorem keygen (addrA addrB addrC : Half) : Statement (.keygen addrA addrB addrC) := fieldOpc_commandWord _ _ _ _ _ _ _ _ _ _
theorem encaps (addrA addrB addrC : Half) : Statement (.encaps addrA addrB addrC) := fieldOpc_commandWord _ _ _ _ _ _ _ _ _ _
theorem decaps (addrA addrB addrC : Half) : Statement (.decaps addrA addrB addrC) := fieldOpc_commandWord _ _ _ _ _ _ _ _ _ _
theorem zeroize : Statement .zeroize := fieldOpc_commandWord _ _ _ _ _ _ _ _ _ _

end Laws.EncodedOpcode

end Sys2Proof
end

