-- ==== Sys2Proof/Laws/Encoding.lean ====
section
/-! SUPPORT. The fields of a command word: every field read back from `commandWord`, and a word put together from its
fields (spec/30_encoding.md R101). -/

namespace Sys2Proof

/-- A piece of the high part of an append. -/
theorem extractLsb'_append_high {m n : Nat} (x : BitVec m) (y : BitVec n) (s w : Nat) :
    (x ++ y).extractLsb' (n + s) w = x.extractLsb' s w := by
  apply BitVec.eq_of_getLsbD_eq
  intro i hi
  simp [BitVec.getLsbD_append, Nat.add_assoc]

/-- A piece at the bottom of an append. -/
theorem extractLsb'_append_low' {m n w : Nat} (x : BitVec m) (y : BitVec n) (h : w ≤ n) :
    (x ++ y).extractLsb' 0 w = y.extractLsb' 0 w := by
  apply BitVec.eq_of_getLsbD_eq
  intro i hi
  have : i < n := by omega
  simp only [BitVec.getLsbD_append, BitVec.getLsbD_extractLsb', Nat.zero_add, this, if_true]

/-- Two neighbouring pieces of a word. -/
theorem extractLsb'_append_extractLsb' {k : Nat} (x : BitVec k) (b n m : Nat) :
    x.extractLsb' (b + n) m ++ x.extractLsb' b n = x.extractLsb' b (m + n) := by
  apply BitVec.eq_of_getLsbD_eq
  intro i hi
  by_cases h : i < n
  · simp only [BitVec.getLsbD_append, BitVec.getLsbD_extractLsb', h, hi, decide_true, Bool.true_and, if_true]
  · have h1 : i - n < m := by omega
    have h2 : b + n + (i - n) = b + i := by omega
    simp only [BitVec.getLsbD_append, BitVec.getLsbD_extractLsb', h, hi, h1, h2, decide_true, decide_false,
      Bool.true_and, if_false]

section
variable (outlen c16 addrB addrA : Half) (imm8 : Byte) (d : BitVec 4) (rs2 rs1 rd : Reg) (opc : Byte)

@[simp] theorem fieldOpc_word : fieldOpc (commandWord outlen c16 addrB addrA imm8 d rs2 rs1 rd opc) = opc :=
  fieldOpc_commandWord _ _ _ _ _ _ _ _ _ _

@[simp] theorem fieldRd_word : fieldRd (commandWord outlen c16 addrB addrA imm8 d rs2 rs1 rd opc) = rd :=
  congrArg BitVec.toFin <|
    (extractLsb'_append_high _ _ 0 4).trans <| extractLsb'_append_low _ _

@[simp] theorem fieldRs1_word : fieldRs1 (commandWord outlen c16 addrB addrA imm8 d rs2 rs1 rd opc) = rs1 :=
  congrArg BitVec.toFin <|
    (extractLsb'_append_high _ _ 4 4).trans <|
    (extractLsb'_append_high _ _ 0 4).trans <| extractLsb'_append_low _ _

@[simp] theorem fieldRs2_word : fieldRs2 (commandWord outlen c16 addrB addrA imm8 d rs2 rs1 rd opc) = rs2 :=
  congrArg BitVec.toFin <|
    (extractLsb'_append_high _ _ 8 4).trans <|
    (extractLsb'_append_high _ _ 4 4).trans <|
    (extractLsb'_append_high _ _ 0 4).trans <| extractLsb'_append_low _ _

@[simp] theorem fieldD_word : fieldD (commandWord outlen c16 addrB addrA imm8 d rs2 rs1 rd opc) = d :=
    (extractLsb'_append_high _ _ 12 4).trans <|
    (extractLsb'_append_high _ _ 8 4).trans <|
    (extractLsb'_append_high _ _ 4 4).trans <|
    (extractLsb'_append_high _ _ 0 4).trans <| extractLsb'_append_low _ _

@[simp] theorem fieldImm8_word : fieldImm8 (commandWord outlen c16 addrB addrA imm8 d rs2 rs1 rd opc) = imm8 :=
    (extractLsb'_append_high _ _ 16 8).trans <|
    (extractLsb'_append_high _ _ 12 8).trans <|
    (extractLsb'_append_high _ _ 8 8).trans <|
    (extractLsb'_append_high _ _ 4 8).trans <|
    (extractLsb'_append_high _ _ 0 8).trans <| extractLsb'_append_low _ _

@[simp] theorem fieldAddrA_word : fieldAddrA (commandWord outlen c16 addrB addrA imm8 d rs2 rs1 rd opc) = addrA :=
    (extractLsb'_append_high _ _ 24 16).trans <|
    (extractLsb'_append_high _ _ 20 16).trans <|
    (extractLsb'_append_high _ _ 16 16).trans <|
    (extractLsb'_append_high _ _ 12 16).trans <|
    (extractLsb'_append_high _ _ 8 16).trans <|
    (extractLsb'_append_high _ _ 0 16).trans <| extractLsb'_append_low _ _

@[simp] theorem fieldAddrB_word : fieldAddrB (commandWord outlen c16 addrB addrA imm8 d rs2 rs1 rd opc) = addrB :=
    (extractLsb'_append_high _ _ 40 16).trans <|
    (extractLsb'_append_high _ _ 36 16).trans <|
    (extractLsb'_append_high _ _ 32 16).trans <|
    (extractLsb'_append_high _ _ 28 16).trans <|
    (extractLsb'_append_high _ _ 24 16).trans <|
    (extractLsb'_append_high _ _ 16 16).trans <|
    (extractLsb'_append_high _ _ 0 16).trans <| extractLsb'_append_low _ _

@[simp] theorem fieldC16_word : fieldC16 (commandWord outlen c16 addrB addrA imm8 d rs2 rs1 rd opc) = c16 :=
    (extractLsb'_append_high _ _ 56 16).trans <|
    (extractLsb'_append_high _ _ 52 16).trans <|
    (extractLsb'_append_high _ _ 48 16).trans <|
    (extractLsb'_append_high _ _ 44 16).trans <|
    (extractLsb'_append_high _ _ 40 16).trans <|
    (extractLsb'_append_high _ _ 32 16).trans <|
    (extractLsb'_append_high _ _ 16 16).trans <|
    (extractLsb'_append_high _ _ 0 16).trans <| extractLsb'_append_low _ _

@[simp] theorem fieldY_word :
    fieldY (commandWord outlen c16 addrB addrA imm8 d rs2 rs1 rd opc) = c16.extractLsb' 0 8 :=
    (extractLsb'_append_high _ _ 56 8).trans <|
    (extractLsb'_append_high _ _ 52 8).trans <|
    (extractLsb'_append_high _ _ 48 8).trans <|
    (extractLsb'_append_high _ _ 44 8).trans <|
    (extractLsb'_append_high _ _ 40 8).trans <|
    (extractLsb'_append_high _ _ 32 8).trans <|
    (extractLsb'_append_high _ _ 16 8).trans <|
    (extractLsb'_append_high _ _ 0 8).trans <|
    extractLsb'_append_low' _ _ (by decide)

@[simp] theorem fieldOutlen_word : fieldOutlen (commandWord outlen c16 addrB addrA imm8 d rs2 rs1 rd opc) = outlen :=
    (extractLsb'_append_high _ _ 72 16).trans <|
    (extractLsb'_append_high _ _ 68 16).trans <|
    (extractLsb'_append_high _ _ 64 16).trans <|
    (extractLsb'_append_high _ _ 60 16).trans <|
    (extractLsb'_append_high _ _ 56 16).trans <|
    (extractLsb'_append_high _ _ 48 16).trans <|
    (extractLsb'_append_high _ _ 32 16).trans <|
    (extractLsb'_append_high _ _ 16 16).trans <|
    (extractLsb'_append_high _ _ 0 16).trans <| BitVec.extractLsb'_eq_self

end

/-- A command word put together from its own fields. -/
theorem commandWord_fields (C : Command) :
    commandWord (fieldOutlen C) (fieldC16 C) (fieldAddrB C) (fieldAddrA C) (fieldImm8 C) (fieldD C) (fieldRs2 C)
      (fieldRs1 C) (fieldRd C) (fieldOpc C) = C := by
  have h0 : fieldOutlen C ++ fieldC16 C = C.extractLsb' 64 32 := extractLsb'_append_extractLsb' C 64 16 16
  have h1 : C.extractLsb' 64 32 ++ fieldAddrB C = C.extractLsb' 48 48 := extractLsb'_append_extractLsb' C 48 16 32
  have h2 : C.extractLsb' 48 48 ++ fieldAddrA C = C.extractLsb' 32 64 := extractLsb'_append_extractLsb' C 32 16 48
  have h3 : C.extractLsb' 32 64 ++ fieldImm8 C = C.extractLsb' 24 72 := extractLsb'_append_extractLsb' C 24 8 64
  have h4 : C.extractLsb' 24 72 ++ fieldD C = C.extractLsb' 20 76 := extractLsb'_append_extractLsb' C 20 4 72
  have h5 : C.extractLsb' 20 76 ++ BitVec.ofFin (w := 4) (fieldRs2 C) = C.extractLsb' 16 80 := extractLsb'_append_extractLsb' C 16 4 76
  have h6 : C.extractLsb' 16 80 ++ BitVec.ofFin (w := 4) (fieldRs1 C) = C.extractLsb' 12 84 := extractLsb'_append_extractLsb' C 12 4 80
  have h7 : C.extractLsb' 12 84 ++ BitVec.ofFin (w := 4) (fieldRd C) = C.extractLsb' 8 88 := extractLsb'_append_extractLsb' C 8 4 84
  have h8 : C.extractLsb' 8 88 ++ fieldOpc C = C.extractLsb' 0 96 := extractLsb'_append_extractLsb' C 0 8 88
  unfold commandWord
  rw [h0, h1, h2, h3, h4, h5, h6, h7, h8]
  exact BitVec.extractLsb'_eq_self

@[simp] theorem Reg.and_zero (r : Reg) : r &&& 0 = 0 := by revert r; decide

/-- A command word is 0 exactly when each of its fields is. -/
theorem commandWord_eq_zero (outlen c16 addrB addrA : Half) (imm8 : Byte) (d : BitVec 4) (rs2 rs1 rd : Reg)
    (opc : Byte) : commandWord outlen c16 addrB addrA imm8 d rs2 rs1 rd opc = 0#96 ↔
      outlen = 0#16 ∧ c16 = 0#16 ∧ addrB = 0#16 ∧ addrA = 0#16 ∧ imm8 = 0#8 ∧ d = 0#4 ∧ rs2 = 0 ∧ rs1 = 0 ∧ rd = 0 ∧
        opc = 0#8 := by
  constructor
  · intro h
    refine ⟨?_, ?_, ?_, ?_, ?_, ?_, ?_, ?_, ?_, ?_⟩
    · exact (fieldOutlen_word _ _ _ _ _ _ _ _ _ _).symm.trans ((congrArg fieldOutlen h).trans (by decide))
    · exact (fieldC16_word _ _ _ _ _ _ _ _ _ _).symm.trans ((congrArg fieldC16 h).trans (by decide))
    · exact (fieldAddrB_word _ _ _ _ _ _ _ _ _ _).symm.trans ((congrArg fieldAddrB h).trans (by decide))
    · exact (fieldAddrA_word _ _ _ _ _ _ _ _ _ _).symm.trans ((congrArg fieldAddrA h).trans (by decide))
    · exact (fieldImm8_word _ _ _ _ _ _ _ _ _ _).symm.trans ((congrArg fieldImm8 h).trans (by decide))
    · exact (fieldD_word _ _ _ _ _ _ _ _ _ _).symm.trans ((congrArg fieldD h).trans (by decide))
    · exact (fieldRs2_word _ _ _ _ _ _ _ _ _ _).symm.trans ((congrArg fieldRs2 h).trans (by decide))
    · exact (fieldRs1_word _ _ _ _ _ _ _ _ _ _).symm.trans ((congrArg fieldRs1 h).trans (by decide))
    · exact (fieldRd_word _ _ _ _ _ _ _ _ _ _).symm.trans ((congrArg fieldRd h).trans (by decide))
    · exact (fieldOpc_word _ _ _ _ _ _ _ _ _ _).symm.trans ((congrArg fieldOpc h).trans (by decide))
  · rintro ⟨rfl, rfl, rfl, rfl, rfl, rfl, rfl, rfl, rfl, rfl⟩
    decide

/-- A word has none of the bits of a mask exactly when each of its bits in the mask is 0. -/
theorem and_eq_zero_iff {w : Nat} (x m : BitVec w) :
    x &&& m = 0 ↔ ∀ i, i < w → m.getLsbD i = true → x.getLsbD i = false := by
  constructor
  · intro h i _ hm
    have := congrArg (fun v => v.getLsbD i) h
    simpa [hm] using this
  · intro h
    apply BitVec.eq_of_getLsbD_eq
    intro i hi
    rw [BitVec.getLsbD_and]
    cases hm : m.getLsbD i with
    | false => simp
    | true => simp [h i hi hm]

/-- The and of two command words is the command word of the ands. -/
theorem commandWord_and (outlen c16 addrB addrA : Half) (imm8 : Byte) (d : BitVec 4) (rs2 rs1 rd : Reg) (opc : Byte)
    (m : Command) :
    commandWord outlen c16 addrB addrA imm8 d rs2 rs1 rd opc &&& m =
      commandWord (outlen &&& fieldOutlen m) (c16 &&& fieldC16 m) (addrB &&& fieldAddrB m) (addrA &&& fieldAddrA m)
        (imm8 &&& fieldImm8 m) (d &&& fieldD m)
        (BitVec.ofFin (w := 4) rs2 &&& BitVec.ofFin (w := 4) (fieldRs2 m)).toFin
        (BitVec.ofFin (w := 4) rs1 &&& BitVec.ofFin (w := 4) (fieldRs1 m)).toFin
        (BitVec.ofFin (w := 4) rd &&& BitVec.ofFin (w := 4) (fieldRd m)).toFin (opc &&& fieldOpc m) := by
  have e : ∀ {a b : Nat} (x x' : BitVec a) (y y' : BitVec b), (x ++ y) &&& (x' ++ y') = (x &&& x') ++ (y &&& y') :=
    fun x x' y y' => BitVec.and_append
  conv_lhs => rw [← commandWord_fields m]
  unfold commandWord
  refine (e _ _ _ _).trans ?_
  repeat rw [e]

/-- The number of a concatenation. -/
theorem toNat_append_eq {m n : Nat} (x : BitVec m) (y : BitVec n) : (x ++ y).toNat = 2 ^ n * x.toNat + y.toNat := by
  rw [BitVec.toNat_append, Nat.shiftLeft_eq, Nat.mul_comm, ← Nat.two_pow_add_eq_or_of_lt y.isLt]

/-- A command word as a number: every field at its place (R101). -/
theorem toNat_commandWord (outlen c16 addrB addrA : Half) (imm8 : Byte) (d : BitVec 4) (rs2 rs1 rd : Reg) (opc : Byte) :
    (commandWord outlen c16 addrB addrA imm8 d rs2 rs1 rd opc).toNat =
      opc.toNat + 2 ^ 8 * rd.val + 2 ^ 12 * rs1.val + 2 ^ 16 * rs2.val + 2 ^ 20 * d.toNat + 2 ^ 24 * imm8.toNat +
        2 ^ 32 * addrA.toNat + 2 ^ 48 * addrB.toNat + 2 ^ 64 * c16.toNat + 2 ^ 80 * outlen.toNat := by
  simp only [commandWord, toNat_append_eq, BitVec.toNat_ofFin]
  ring

end Sys2Proof
end

