-- ==== Sys2Proof/Laws/NatKeccak.lean ====
section
/-! SUPPORT. The permutation on plain numbers, equal to the model's (Machine/Hash.lean) and cheaper for the kernel to
evaluate; concrete hashes are evaluated through it. -/

namespace Sys2Proof.Machine.NatKeccak

/-- Rotation of a 64-bit number. -/
def rotNat (k x : Nat) : Nat :=
  Nat.lor (Nat.mod (Nat.shiftLeft x k) 18446744073709551616) (Nat.shiftRight x (Nat.sub 64 k))

/-- `a xor (not b and c)` on 64 bits. -/
def chiNat (a b c : Nat) : Nat := Nat.xor a (Nat.land (Nat.xor 18446744073709551615 b) c)

def xor5 (a b c d e : Nat) : Nat := Nat.xor (Nat.xor (Nat.xor (Nat.xor a b) c) d) e

/-- χ and ι on the 25 lanes, row by row (R284, R285). -/
def chiIota (rc : Nat)
    (b00 b10 b20 b30 b40
    b01 b11 b21 b31 b41
    b02 b12 b22 b32 b42
    b03 b13 b23 b33 b43
    b04 b14 b24 b34 b44 : Nat) : List Nat :=
    [Nat.xor (chiNat b00 b10 b20) rc, chiNat b10 b20 b30, chiNat b20 b30 b40, chiNat b30 b40 b00, chiNat b40 b00 b10,
      chiNat b01 b11 b21, chiNat b11 b21 b31, chiNat b21 b31 b41, chiNat b31 b41 b01, chiNat b41 b01 b11,
      chiNat b02 b12 b22, chiNat b12 b22 b32, chiNat b22 b32 b42, chiNat b32 b42 b02, chiNat b42 b02 b12,
      chiNat b03 b13 b23, chiNat b13 b23 b33, chiNat b23 b33 b43, chiNat b33 b43 b03, chiNat b43 b03 b13,
      chiNat b04 b14 b24, chiNat b14 b24 b34, chiNat b24 b34 b44, chiNat b34 b44 b04, chiNat b44 b04 b14]

/-- The end of θ, then ρ, π, χ and ι (R281-R285). -/
def rhoChi (rc : Nat)
    (a00 a10 a20 a30 a40
    a01 a11 a21 a31 a41
    a02 a12 a22 a32 a42
    a03 a13 a23 a33 a43
    a04 a14 a24 a34 a44
    d0 d1 d2 d3 d4 : Nat) : List Nat :=
  chiIota rc
    (rotNat 0 (Nat.xor a00 d0)) (rotNat 44 (Nat.xor a11 d1)) (rotNat 43 (Nat.xor a22 d2))
    (rotNat 21 (Nat.xor a33 d3)) (rotNat 14 (Nat.xor a44 d4))
    (rotNat 28 (Nat.xor a30 d3)) (rotNat 20 (Nat.xor a41 d4)) (rotNat 3 (Nat.xor a02 d0))
    (rotNat 45 (Nat.xor a13 d1)) (rotNat 61 (Nat.xor a24 d2))
    (rotNat 1 (Nat.xor a10 d1)) (rotNat 6 (Nat.xor a21 d2)) (rotNat 25 (Nat.xor a32 d3))
    (rotNat 8 (Nat.xor a43 d4)) (rotNat 18 (Nat.xor a04 d0))
    (rotNat 27 (Nat.xor a40 d4)) (rotNat 36 (Nat.xor a01 d0)) (rotNat 10 (Nat.xor a12 d1))
    (rotNat 15 (Nat.xor a23 d2)) (rotNat 56 (Nat.xor a34 d3))
    (rotNat 62 (Nat.xor a20 d2)) (rotNat 55 (Nat.xor a31 d3)) (rotNat 39 (Nat.xor a42 d4))
    (rotNat 41 (Nat.xor a03 d0)) (rotNat 2 (Nat.xor a14 d1))

/-- θ from the column parities on (R281). -/
def fromParity (rc : Nat)
    (a00 a10 a20 a30 a40
    a01 a11 a21 a31 a41
    a02 a12 a22 a32 a42
    a03 a13 a23 a33 a43
    a04 a14 a24 a34 a44
    c0 c1 c2 c3 c4 : Nat) : List Nat :=
  rhoChi rc
    a00 a10 a20 a30 a40
    a01 a11 a21 a31 a41
    a02 a12 a22 a32 a42
    a03 a13 a23 a33 a43
    a04 a14 a24 a34 a44
    (Nat.xor c4 (rotNat 1 c1))
    (Nat.xor c0 (rotNat 1 c2))
    (Nat.xor c1 (rotNat 1 c3))
    (Nat.xor c2 (rotNat 1 c4))
    (Nat.xor c3 (rotNat 1 c0))

/-- One round on the 25 lanes, row by row (R281-R286). -/
def round (rc : Nat) : List Nat → List Nat
  | [a00, a10, a20, a30, a40,
      a01, a11, a21, a31, a41,
      a02, a12, a22, a32, a42,
      a03, a13, a23, a33, a43,
      a04, a14, a24, a34, a44] =>
    fromParity rc
      a00 a10 a20 a30 a40
      a01 a11 a21 a31 a41
      a02 a12 a22 a32 a42
      a03 a13 a23 a33 a43
      a04 a14 a24 a34 a44
      (xor5 a00 a01 a02 a03 a04)
      (xor5 a10 a11 a12 a13 a14)
      (xor5 a20 a21 a22 a23 a24)
      (xor5 a30 a31 a32 a33 a34)
      (xor5 a40 a41 a42 a43 a44)
  | l => l

/-- The 25 lanes as numbers, row by row. -/
def flat (A : KState) : List Nat :=
  [(lane A 0 0).toNat, (lane A 1 0).toNat, (lane A 2 0).toNat, (lane A 3 0).toNat, (lane A 4 0).toNat,
    (lane A 0 1).toNat, (lane A 1 1).toNat, (lane A 2 1).toNat, (lane A 3 1).toNat, (lane A 4 1).toNat,
    (lane A 0 2).toNat, (lane A 1 2).toNat, (lane A 2 2).toNat, (lane A 3 2).toNat, (lane A 4 2).toNat,
    (lane A 0 3).toNat, (lane A 1 3).toNat, (lane A 2 3).toNat, (lane A 3 3).toNat, (lane A 4 3).toNat,
    (lane A 0 4).toNat, (lane A 1 4).toNat, (lane A 2 4).toNat, (lane A 3 4).toNat, (lane A 4 4).toNat]

theorem five_get {α : Type} (f : Fin 5 → α) (x : Fin 5) : (five f)[x] = f x := by
  fin_cases x <;> rfl

theorem lane_lanes (f : Fin 5 → Fin 5 → Lane) (x y : Fin 5) : lane (lanes f) x y = f x y := by
  unfold lane lanes
  rw [five_get, five_get]

theorem lane_iota0 (rc : Lane) (A : KState) : lane (iota rc A) 0 0 = lane A 0 0 ^^^ rc := by
  simp [lane, iota]
theorem lane_iotaX (rc : Lane) (A : KState) (x : Fin 5) (h : x ≠ 0) : lane (iota rc A) x 0 = lane A x 0 := by
  have : 0 ≠ x.val := fun e => h (Fin.ext e.symm)
  simp [lane, iota, this]
theorem lane_iotaY (rc : Lane) (A : KState) (x y : Fin 5) (h : y ≠ 0) : lane (iota rc A) x y = lane A x y := by
  have : 0 ≠ y.val := fun e => h (Fin.ext e.symm)
  simp [lane, iota, this]

theorem toNat_rot (x : Lane) (k : Nat) : (x.rotateLeft k).toNat = rotNat (k % 64) x.toNat := by
  rw [BitVec.toNat_rotateLeft]; rfl
theorem toNat_chi (a b c : Lane) : (a ^^^ (~~~b &&& c)).toNat = chiNat a.toNat b.toNat c.toNat := rfl
theorem toNat_xor' (a b : Lane) : (a ^^^ b).toNat = Nat.xor a.toNat b.toNat := rfl

/-- The rotation of the lane that lands at entry `i` of row `j`. -/
def offset (i j : Fin 5) : Nat :=
  let rows := [[0, 44, 43, 21, 14], [28, 20, 3, 45, 61], [1, 6, 25, 8, 18], [27, 36, 10, 15, 56], [62, 55, 39, 41, 2]]
  (rows.getD j []).getD i 0

theorem offset_eq : ∀ i j : Fin 5, rotationOffsets[i][i + 3 * j] = offset i j := by decide

/-- The numbers of a round are those of the model's round. -/
theorem round_flat (A : KState) (rc : Lane) : round rc.toNat (flat A) = flat (keccakRound A rc) := by
  have t : ∀ x y, (lane (theta A) x y).toNat = Nat.xor (lane A x y).toNat (Nat.xor
      (xor5 (lane A (x - 1) 0).toNat (lane A (x - 1) 1).toNat (lane A (x - 1) 2).toNat (lane A (x - 1) 3).toNat
        (lane A (x - 1) 4).toNat)
      (rotNat 1 (xor5 (lane A (x + 1) 0).toNat (lane A (x + 1) 1).toNat (lane A (x + 1) 2).toNat
        (lane A (x + 1) 3).toNat (lane A (x + 1) 4).toNat))) := by
    intro x y
    simp only [theta, lane_lanes, five_get, toNat_xor', toNat_rot]
    rfl
  have r : ∀ i j, (lane (rhoPi (theta A)) i j).toNat =
      rotNat (offset i j % 64) (lane (theta A) (i + 3 * j) i).toNat := by
    intro i j
    rw [rhoPi, lane_lanes, toNat_rot, offset_eq]
  have c : ∀ x y, (lane (chi (rhoPi (theta A))) x y).toNat = chiNat (lane (rhoPi (theta A)) x y).toNat
      (lane (rhoPi (theta A)) (x + 1) y).toNat (lane (rhoPi (theta A)) (x + 2) y).toNat := by
    intro x y
    rw [chi, lane_lanes, toNat_chi]
  unfold flat keccakRound
  rw [lane_iota0, toNat_xor']
  simp only [lane_iotaX _ _ 1 (by decide), lane_iotaX _ _ 2 (by decide), lane_iotaX _ _ 3 (by decide),
    lane_iotaX _ _ 4 (by decide), lane_iotaY _ _ _ 1 (by decide), lane_iotaY _ _ _ 2 (by decide),
    lane_iotaY _ _ _ 3 (by decide), lane_iotaY _ _ _ 4 (by decide), c, r, t]
  rfl

/-- The 24 rounds. -/
def perm (l : List Nat) : List Nat := roundConstants.foldl (fun l rc => round rc.toNat l) l

theorem perm_flat (A : KState) : perm (flat A) = flat (keccakF A) := by
  unfold perm keccakF
  generalize roundConstants = L
  induction L generalizing A with
  | nil => rfl
  | cons rc L ih => rw [List.foldl_cons, List.foldl_cons, round_flat, ih]

/-- The 200 bytes of the lanes. -/
def bytesOfFlat (l : List Nat) : List Byte :=
  l.flatMap fun n => (List.range 8).map fun j => BitVec.ofNat 8 (Nat.shiftRight n (8 * j))

theorem bytesOfFlat_flat (A : KState) : bytesOfFlat (flat A) = bytesOfLanes A := by
  have five_eq {α : Type} (v : Vector α 5) : v.toList = [v[0], v[1], v[2], v[3], v[4]] := by
    apply List.ext_getElem
    · simp
    · intro i h1 h2
      simp only [Vector.length_toList] at h1
      rw [Vector.getElem_toList]
      match i, h1 with
      | 0, _ | 1, _ | 2, _ | 3, _ | 4, _ => rfl
  unfold bytesOfLanes
  rw [five_eq A]
  simp only [List.flatMap_cons, List.flatMap_nil, five_eq, List.append_nil, List.append_assoc]
  rfl

/-- `keccak_f` on a 200-byte string, through the numbers. -/
def keccak (S : List Byte) : List Byte := bytesOfFlat (perm (flat (lanesOfBytes S)))

theorem keccak_eq : keccak = keccakBytes := by
  funext S
  rw [keccak, perm_flat, bytesOfFlat_flat, keccakBytes]

/-- The model's sponge with the permutation `F`. -/
def squeezeBlocksWith (F : List Byte → List Byte) (r : Nat) : Nat → List Byte → List Byte
  | 0, _ => []
  | 1, S => S.take r
  | count + 2, S => S.take r ++ squeezeBlocksWith F r (count + 1) (F S)

def spongeWith (F : List Byte → List Byte) (r : Nat) (sfx : Byte) (Mg : List Byte) (l : Nat) : List Byte :=
  let pd := pad Mg r sfx
  let S := (chunks r (pd.length / r) pd).foldl (fun S block => F (xorBlock S block)) (List.replicate 200 0)
  (squeezeBlocksWith F r ((l + r - 1) / r) S).take l

theorem squeezeBlocksWith_eq (r : Nat) :
    ∀ (n : Nat) (S : List Byte), squeezeBlocksWith keccakBytes r n S = squeezeBlocks r n S
  | 0, _ => rfl
  | 1, _ => rfl
  | n + 2, S => by rw [squeezeBlocksWith, squeezeBlocks, squeezeBlocksWith_eq r (n + 1)]

/-- The model's sponge is the sponge with the permutation on numbers. -/
theorem sponge_eq (r : Nat) (sfx : Byte) (Mg : List Byte) (l : Nat) :
    sponge r sfx Mg l = spongeWith keccak r sfx Mg l := by
  rw [keccak_eq, spongeWith, squeezeBlocksWith_eq]
  rfl

end Sys2Proof.Machine.NatKeccak
end

