-- ==== Sys2Proof/Laws/Packing.lean ====
section
/-! SUPPORT. What packed strings hold, group by group; the lanes of the sums of base products; and one lemma for each CPA
procedure that says what it computes (spec/44_codec.md R240-R249; spec/46_kem.md R320-R324). -/

namespace Sys2Proof.Machine

/-! ### Groups -/

/-- A number is the sum of its bits; positions past the end count as 0. -/
theorem bitsToNat_eq_sum (l : List Bool) (d : Nat) (h : l.length ≤ d) :
    bitsToNat l = ∑ j ∈ Finset.range d, (l.getD j false).toNat * 2 ^ j := by
  induction l generalizing d with
  | nil => simp [bitsToNat]
  | cons b l ih =>
    obtain ⟨d, rfl⟩ : ∃ e, d = e + 1 := ⟨d - 1, by simp at h; omega⟩
    rw [Finset.sum_range_succ', bitsToNat, ih d (by simpa using h), Finset.mul_sum]
    simp only [List.getD_cons_succ, List.getD_cons_zero, Nat.pow_zero, Nat.mul_one, Nat.pow_succ]
    rw [Nat.add_comm]
    congr 1
    exact Finset.sum_congr rfl fun j _ => by ring

/-- Group `i` of any byte string (R241). -/
theorem getD_byteDecode (E : List Byte) (d : Nat) {i : Nat} (hi : i < 256) :
    (byteDecode E d).getD i 0 = ∑ j ∈ Finset.range d, (bit E (i * d + j)).toNat * 2 ^ j := by
  have hl : i < (chunks d 256 (bytesToBits E)).length := by simpa using hi
  rw [byteDecode, List.getD_eq_getElem _ _ (by simpa using hi), List.getElem_map, getElem_chunks,
    bitsToNat_eq_sum _ d (List.length_take_le _ _)]
  refine Finset.sum_congr rfl fun j hj => ?_
  have hj : j < d := Finset.mem_range.mp hj
  have : (((bytesToBits E).drop (d * i)).take d).getD j false = bit E (i * d + j) := by
    rw [← getD_bytesToBits, List.getD_eq_getElem?_getD, List.getD_eq_getElem?_getD, List.getElem?_take_of_lt hj,
      List.getElem?_drop, Nat.mul_comm]
  rw [this]

/-- Unpacking undoes packing (R241). -/
theorem byteDecode_byteEncode {f : List Nat} {d : Nat} (hf : f.length = 256) (h : ∀ x ∈ f, x < 2 ^ d) :
    byteDecode (byteEncode f d) d = f := by
  have hl : (f.flatMap (natToBits d)).length = 8 * (32 * d) := by
    rw [length_flatMap_const fun x => length_natToBits d x, hf]; ring
  rw [byteDecode, byteEncode, bytesToBits_bitsToBytes hl, List.flatMap_def, ← hf]
  have := chunks_flatten (m := d) (L := f.map (natToBits d)) (by
    intro c hc
    obtain ⟨x, _, rfl⟩ := List.mem_map.mp hc
    exact length_natToBits d x)
  rw [List.length_map] at this
  rw [this, List.map_map]
  conv_rhs => rw [← List.map_id f]
  exact List.map_congr_left fun x hx => by
    rw [Function.comp_apply, bitsToNat_natToBits, Nat.mod_eq_of_lt (h x hx), id]

/-- Group `i` of a packed array (R240, R241). -/
theorem group_byteEncode {f : List Nat} {d i : Nat} (hf : f.length = 256) (h : ∀ x ∈ f, x < 2 ^ d) (hi : i < 256) :
    ∑ j ∈ Finset.range d, (bit (byteEncode f d) (i * d + j)).toNat * 2 ^ j = f.getD i 0 := by
  rw [← getD_byteDecode _ _ hi, byteDecode_byteEncode hf h]

/-! ### Parts of a string -/

theorem bit_drop (B : List Byte) (a t : Nat) : bit (B.drop a) t = bit B (8 * a + t) := by
  unfold bit
  rw [List.getD_eq_getElem?_getD, List.getD_eq_getElem?_getD, List.getElem?_drop,
    show a + t / 8 = (8 * a + t) / 8 by omega, show t % 8 = (8 * a + t) % 8 by omega]

theorem bit_slice (B : List Byte) (a : Nat) {n t : Nat} (h : t < 8 * n) : bit (slice B a n) t = bit B (8 * a + t) := by
  rw [← bit_drop, slice]
  unfold bit
  rw [List.getD_eq_getElem?_getD, List.getD_eq_getElem?_getD, List.getElem?_take_of_lt (by omega)]

/-- Group `j` of the part of 32·d bytes at 32·d·i is group 256·i + j of the string. -/
theorem getD_byteDecode_slice (B : List Byte) (d i : Nat) {j : Nat} (hj : j < 256) :
    (byteDecode (slice B (32 * d * i) (32 * d)) d).getD j 0 =
      ∑ l ∈ Finset.range d, (bit B ((256 * i + j) * d + l)).toNat * 2 ^ l := by
  rw [getD_byteDecode _ _ hj]
  refine Finset.sum_congr rfl fun l hl => ?_
  have hl : l < d := Finset.mem_range.mp hl
  have : (j + 1) * d ≤ 256 * d := Nat.mul_le_mul_right d hj
  rw [bit_slice _ _ (by rw [Nat.add_mul] at this; omega)]
  congr 3
  ring

/-- Cutting the i-th of equally long parts out of their concatenation. -/
theorem slice_flatMap {α : Type} {f : α → List Byte} {m : Nat} (hf : ∀ x, (f x).length = m) (l : List α) (rest : List Byte)
    {i : Nat} (hi : i < l.length) : slice (l.flatMap f ++ rest) (m * i) m = f l[i] := by
  induction l generalizing i with
  | nil => simp at hi
  | cons x l ih =>
    cases i with
    | zero => rw [slice, Nat.mul_zero, List.drop_zero, List.flatMap_cons, List.append_assoc, ← hf x, List.take_left]; rfl
    | succ i =>
      have hd : (f x ++ (l.flatMap f ++ rest)).drop (m * i + m) = (l.flatMap f ++ rest).drop (m * i) := by
        rw [Nat.add_comm, ← List.drop_drop, List.drop_left' (hf x)]
      rw [List.getElem_cons_succ, ← ih (by simpa using hi), slice, slice, List.flatMap_cons, List.append_assoc,
        Nat.mul_succ, hd]

/-! ### Lanes -/

theorem Poly.getD_toNats (p : Poly) (i : Nat) : p.toNats.getD i 0 = (p.get i).toNat := by
  rw [Poly.toNats, Poly.get, List.getD_eq_getElem?_getD, List.getD_eq_getElem?_getD, List.getElem?_map]
  cases p.coeffs[i]? <;> rfl

theorem Poly.get_ofNats {l : List Nat} (hl : l.length = 256) (h : ∀ x ∈ l, x < 4096) (i : Nat) :
    ((Poly.ofNats l).get i).toNat = l.getD i 0 := by
  rw [← Poly.getD_toNats, Poly.toNats_ofNats hl h]

/-- Lane `i` of a 12-bit packing, reduced mod q (R243, R322). -/
theorem get_dec12 (B : List Byte) {i : Nat} (hi : i < 256) :
    ((dec12 B).get i).toNat = (byteDecode B 12).getD i 0 % Config.q := by
  rw [dec12, Poly.get_ofNats (by simp) fun x hx => by
    obtain ⟨y, _, rfl⟩ := List.mem_map.mp hx
    exact Nat.lt_trans (Nat.mod_lt _ (by decide)) (by decide)]
  rw [List.getD_eq_getElem _ _ (by simpa using hi), List.getD_eq_getElem _ _ (by simpa using hi), List.getElem_map]

/-- Lane `i` of an unpacked and decompressed string (R245, R323). -/
theorem get_cdec (B : List Byte) {d : Nat} (hd : d ≤ 11) {i : Nat} (hi : i < 256) :
    ((cdec B d).get i).toNat = decompress ((byteDecode B d).getD i 0) d := by
  rw [cdec, Poly.get_ofNats (by simp) fun x hx => by
    obtain ⟨y, hy, rfl⟩ := List.mem_map.mp hx
    exact Nat.lt_trans (decompress_lt (byteDecode_lt _ _ y hy) hd) (by decide)]
  rw [List.getD_eq_getElem _ _ (by simpa using hi), List.getD_eq_getElem _ _ (by simpa using hi), List.getElem_map]

/-- Group `i` of a compressed and packed polynomial (R247). -/
theorem group_cenc (f : Poly) (d : Nat) {i : Nat} (hi : i < 256) :
    ∑ j ∈ Finset.range d, (bit (cenc f d) (i * d + j)).toNat * 2 ^ j = compress (f.get i).toNat d := by
  rw [cenc, group_byteEncode (by simp [Poly.length_toNats]) (fun x hx => by
    obtain ⟨y, _, rfl⟩ := List.mem_map.mp hx
    exact compress_lt _ _) hi, ← Poly.getD_toNats]
  rw [List.getD_eq_getElem _ _ (by simpa [Poly.length_toNats] using hi),
    List.getD_eq_getElem _ _ (by simpa [Poly.length_toNats] using hi), List.getElem_map]

/-- Group `i` of a 12-bit packed polynomial (R242). -/
theorem group_enc12 (f : Poly) {i : Nat} (hi : i < 256) :
    ∑ j ∈ Finset.range 12, (bit (enc12 f) (i * 12 + j)).toNat * 2 ^ j = (f.get i).toNat := by
  rw [enc12, group_byteEncode f.length_toNats (fun x hx => by
    obtain ⟨y, _, rfl⟩ := List.mem_map.mp hx
    exact y.isLt) hi, Poly.getD_toNats]

theorem get_polyAdd (a b : Poly) {i : Nat} (hi : i < 256) :
    ((polyAdd a b).get i).toNat = ((a.get i).toNat + (b.get i).toNat) % Config.q := by
  rw [polyAdd, Poly.get_map2 _ _ _ hi, modadd_toNat]

theorem get_polySub (a b : Poly) {i : Nat} (hi : i < 256) :
    (((polySub a b).get i).toNat : Int) = (((a.get i).toNat : Int) - (b.get i).toNat) % Config.q := by
  rw [polySub, Poly.get_map2 _ _ _ hi, modsub_toNat]

/-- Lane `i` of a running sum of polynomials, from a canonical start. -/
theorem get_foldl_polyAdd (l : List Poly) (p : Poly) (hp : p.canonical) {i : Nat} (hi : i < 256) :
    ((l.foldl polyAdd p).get i).toNat = ((p.get i).toNat + (l.map fun f => (f.get i).toNat).sum) % Config.q := by
  induction l generalizing p with
  | nil => simp [Nat.mod_eq_of_lt (hp.get i)]
  | cons f l ih =>
    rw [List.foldl_cons, ih (polyAdd p f) (Poly.map2_canonical modadd_lt _ _), get_polyAdd _ _ hi, List.map_cons, List.sum_cons,
      Nat.mod_add_mod, Nat.add_assoc]

/-- Lane `j` of the sum of base products of two vectors of k polynomials (R321-R323). -/
theorem get_dot {k : Nat} {a b : List Poly} (ha : a.length = k) (hb : b.length = k) {j : Nat} (hj : j < 256) :
    ((dot a b).get j).toNat =
      (∑ l ∈ Finset.range k, ((basemul (a.getD l Poly.zero) (b.getD l Poly.zero)).get j).toNat) % Config.q := by
  rw [dot, get_foldl_polyAdd _ _ Poly.zero_canonical hj, Poly.get_zero, show (0 : Coeff).toNat = 0 from rfl, Nat.zero_add]
  congr 1
  have : (List.zipWith basemul a b).map (fun f => (f.get j).toNat) =
      (List.range k).map fun l => ((basemul (a.getD l Poly.zero) (b.getD l Poly.zero)).get j).toNat := by
    apply List.ext_getElem (by simp [ha, hb])
    intro l h1 h2
    simp only [List.length_map, List.length_range] at h2
    simp [List.getElem?_eq_getElem (show l < a.length by omega), List.getElem?_eq_getElem (show l < b.length by omega)]
  rw [this]
  rfl

/-- The entries of a vector of options that are all there. -/
theorem getD_of_allSome {α : Type} {n : Nat} {f : Nat → Option α} {xs : List α} (h : allSome ((List.range n).map f) = some xs)
    {i : Nat} (hi : i < n) (x : α) : f i = some (xs.getD i x) := by
  have hl : xs.length = n := by simpa using length_allSome h
  have := congrArg (fun l => l[i]?) (allSome_eq_some.mp h)
  rw [List.getD_eq_getElem _ _ (by omega)]
  simpa [hi, List.getElem?_eq_getElem (show i < xs.length by omega)] using this

/-- `allSome` gives a list exactly when no entry is missing. -/
theorem isSome_allSome {α : Type} (n : Nat) (f : Nat → Option α) :
    (allSome ((List.range n).map f)).isSome ↔ ∀ i < n, (f i).isSome := by
  constructor
  · intro h i hi
    obtain ⟨xs, h⟩ := Option.isSome_iff_exists.mp h
    have hl : xs.length = n := by simpa using length_allSome h
    rw [getD_of_allSome h hi (xs[i]'(by omega))]
    rfl
  · intro h
    rw [Option.isSome_iff_exists]
    refine ⟨(List.range n).attach.map fun i => (f i.1).get (h i.1 (List.mem_range.mp i.2)), ?_⟩
    rw [allSome_eq_some]
    apply List.ext_getElem (by simp)
    intro i h1 h2
    simp

/-- The matrix is there exactly when every entry is (R320). -/
theorem isSome_genA (lv : Level) (blocks : Nat) (rho : List Byte) (tr : Bool) :
    (genA lv blocks rho tr).isSome ↔ ∀ i < lv.k, ∀ j < lv.k,
      (if tr then sampleUniform blocks rho (byteOf i) (byteOf j)
        else sampleUniform blocks rho (byteOf j) (byteOf i)).isSome := by
  rw [genA, isSome_allSome]
  exact forall₂_congr fun i _ => isSome_allSome _ _

/-- Entry (i, j) of a matrix (R320). -/
theorem getD_genA {lv : Level} {blocks : Nat} {rho : List Byte} {tr : Bool} {A : List (List Poly)}
    (h : genA lv blocks rho tr = some A) {i j : Nat} (hi : i < lv.k) (hj : j < lv.k) :
    (if tr then sampleUniform blocks rho (byteOf i) (byteOf j) else sampleUniform blocks rho (byteOf j) (byteOf i)) =
      some ((A.getD i []).getD j Poly.zero) ∧ (A.getD i []).length = lv.k := by
  have hr := getD_of_allSome h hi []
  exact ⟨getD_of_allSome hr hj _, by simpa using length_allSome hr⟩

/-! ### The vectors and the CPA procedures -/

theorem getD_map_range {α : Type} (k : Nat) (f : Nat → α) (x : α) {i : Nat} (hi : i < k) :
    ((List.range k).map f).getD i x = f i := by
  simp [List.getD_eq_getElem?_getD, hi]

theorem getD_zipWith {α β γ : Type} (f : α → β → γ) (a : List α) (b : List β) (x : α) (y : β) (z : γ) {i : Nat}
    (ha : i < a.length) (hb : i < b.length) : (List.zipWith f a b).getD i z = f (a.getD i x) (b.getD i y) := by
  rw [List.getD_eq_getElem _ _ (by simp [ha, hb]), List.getElem_zipWith, List.getD_eq_getElem _ _ ha,
    List.getD_eq_getElem _ _ hb]

theorem getD_decVector {lv : Level} {B : List Byte} {i : Nat} (hi : i < lv.k) :
    (decVector lv B).getD i Poly.zero = dec12 (slice B (384 * i) 384) := by
  unfold decVector
  exact getD_map_range _ _ _ hi

theorem getD_noiseVector {lv : Level} {seed : List Byte} {first eta i : Nat} (hi : i < lv.k) :
    (noiseVector lv seed first eta).getD i Poly.zero = sampleCbd seed (byteOf (first + i)) eta := by
  unfold noiseVector
  exact getD_map_range _ _ _ hi

/-- Bit `j` of an encoded message (R249). -/
theorem bit_msgEncode (w : Poly) {j : Nat} (hj : j < 256) :
    (bit (msgEncode w) j).toNat = compress (w.get j).toNat 1 := by
  have h := group_cenc w 1 hj
  rw [Finset.sum_range_one, Nat.mul_one, Nat.pow_zero, Nat.mul_one, Nat.add_zero] at h
  exact h

/-- Lane `j` of a decoded message (R249). -/
theorem get_msgDecode (m : List Byte) {j : Nat} (hj : j < 256) :
    ((msgDecode m).get j).toNat = if bit m j then 1665 else 0 := by
  rw [msgDecode, get_cdec _ (by decide) hj, getD_byteDecode _ _ hj, Finset.sum_range_one, Nat.mul_one, Nat.add_zero]
  cases bit m j <;> decide

/-- What key generation computes (R321). -/
theorem cpaKeygen_eq_some {lv : Level} {blocks : Nat} {d pk sk : List Byte} (h : cpaKeygen lv blocks d = some (pk, sk)) :
    ∃ (A : List (List Poly)) (S E : List Poly), genA lv blocks (hashG d).1 false = some A ∧
      S = (noiseVector lv (hashG d).2 0 lv.eta1).map ntt ∧ E = (noiseVector lv (hashG d).2 lv.k lv.eta1).map ntt ∧
      pk = (List.zipWith (fun row ei => polyAdd (dot row S) ei) A E).flatMap enc12 ++ (hashG d).1 ∧
      sk = S.flatMap enc12 := by
  unfold cpaKeygen at h
  simp only at h
  cases hA : genA lv blocks (hashG d).1 false with
  | none => rw [hA] at h; exact absurd h (by simp)
  | some A =>
    rw [hA] at h
    simp only [Option.some.injEq, Prod.mk.injEq] at h
    exact ⟨A, _, _, rfl, rfl, rfl, h.1.symm, h.2.symm⟩

/-- What encryption computes (R322). -/
theorem cpaEncrypt_eq_some {lv : Level} {blocks : Nat} {pk m coins c : List Byte}
    (h : cpaEncrypt lv blocks pk m coins = some c) :
    ∃ (A : List (List Poly)) (R E1 : List Poly), genA lv blocks (slice pk (384 * lv.k) 32) true = some A ∧
      R = (noiseVector lv coins 0 lv.eta1).map ntt ∧ E1 = noiseVector lv coins lv.k lv.eta2 ∧
      c = (List.zipWith (fun row e1i => polyAdd (intt (dot row R)) e1i) A E1).flatMap (fun ui => cenc ui lv.du) ++
        cenc (polyAdd (polyAdd (intt (dot (decVector lv pk) R)) (sampleCbd coins (byteOf (2 * lv.k)) lv.eta2))
          (msgDecode m)) lv.dv := by
  unfold cpaEncrypt at h
  simp only at h
  cases hA : genA lv blocks (slice pk (384 * lv.k) 32) true with
  | none => rw [hA] at h; exact absurd h (by simp)
  | some A =>
    rw [hA] at h
    exact ⟨A, _, _, rfl, rfl, rfl, (Option.some.inj h).symm⟩

/-- What decryption computes (R323). -/
theorem cpaDecrypt_eq (lv : Level) (sk c : List Byte) : ∃ U : List Poly, U.length = lv.k ∧
    (∀ i < lv.k, U.getD i Poly.zero = cdec (slice c (32 * lv.du * i) (32 * lv.du)) lv.du) ∧
    cpaDecrypt lv sk c = msgEncode (polySub (cdec (slice c (32 * lv.du * lv.k) (32 * lv.dv)) lv.dv)
      (intt (dot (decVector lv sk) (U.map ntt)))) :=
  ⟨_, by simp, fun i hi => getD_map_range _ _ _ hi, rfl⟩

end Sys2Proof.Machine
end

