-- ==== Sys2Proof/Laws/Sampling.lean ====
section
/-! SUPPORT. Reading more of a stream changes nothing already sampled: what the uniform sampler gives on some blocks it
gives on any larger number of blocks (R222, R224). -/

namespace Sys2Proof.Machine

theorem squeezeBlocks_succ {r : Nat} (n : Nat) (S : List Byte) :
    squeezeBlocks r (n + 2) S = S.take r ++ squeezeBlocks r (n + 1) (keccakBytes S) := rfl

/-- Fewer blocks are a prefix of more. -/
theorem squeezeBlocks_prefix {r : Nat} (hr : r ≤ 200) (k : Nat) :
    ∀ (n : Nat) (S : List Byte), S.length = 200 → squeezeBlocks r n S <+: squeezeBlocks r (n + k) S
  | 0, _, _ => ⟨_, List.nil_append _⟩
  | 1, S, _ => by
    cases k with
    | zero => exact List.prefix_rfl
    | succ k => rw [show 1 + (k + 1) = k + 2 by omega, squeezeBlocks_succ]; exact ⟨_, rfl⟩
  | n + 2, S, hS => by
    rw [show n + 2 + k = (n + k) + 2 by omega, squeezeBlocks_succ, squeezeBlocks_succ,
      show n + k + 1 = n + 1 + k by omega]
    exact (List.prefix_append_right_inj _).mpr
      (squeezeBlocks_prefix hr k (n + 1) (keccakBytes S) (length_keccakBytes S))

/-- Whole blocks of output need no cut. -/
theorem squeeze_blocks {r : Nat} (h0 : 0 < r) (hr : r ≤ 200) (S : List Byte) (hS : S.length = 200) (n : Nat) :
    squeeze S r (r * n) = squeezeBlocks r n S := by
  have : (r * n + r - 1) / r = n := by
    rw [show r * n + r - 1 = (r - 1) + r * n by omega, Nat.add_mul_div_left _ _ h0, Nat.div_eq_of_lt (by omega)]
    omega
  rw [squeeze, this]
  exact List.take_of_length_le (Nat.le_of_eq (length_squeezeBlocks hr n S hS))

theorem xofBlocks_prefix (rho : List Byte) (x y : Byte) {b b' : Nat} (h : b ≤ b') :
    xofBlocks rho x y b <+: xofBlocks rho x y b' := by
  obtain ⟨k, rfl⟩ := Nat.exists_eq_add_of_le h
  unfold xofBlocks shake128 sponge
  rw [squeeze_blocks (by decide) (by decide) _ (length_absorb _ _ _),
    squeeze_blocks (by decide) (by decide) _ (length_absorb _ _ _)]
  exact squeezeBlocks_prefix (by decide) k b _ (length_absorb _ _ _)

/-- The candidates of a longer stream begin with those of a shorter one. -/
theorem candidates_prefix : ∀ (S T : List Byte), candidates S <+: candidates (S ++ T)
  | [], _ => by simp [candidates]
  | [_], _ => by simp [candidates]
  | [_, _], _ => by simp [candidates]
  | b0 :: b1 :: b2 :: S, T => by
    simp only [List.cons_append, candidates, List.prefix_cons_inj]
    exact candidates_prefix S T

/-- `parse` gives the same polynomial on every longer stream. -/
theorem parse_append {S : List Byte} {p : Poly} (h : parse S = some p) (T : List Byte) : parse (S ++ T) = some p := by
  obtain ⟨C, hC⟩ := candidates_prefix S T
  have h1 := parse_coeffs h
  have hl : 256 ≤ (((candidates S).filter (· < Config.q)).map coeff).length := by
    have := congrArg List.length h1
    rw [p.size, List.length_take] at this
    omega
  have hp : (((candidates (S ++ T)).filter (· < Config.q)).map coeff).take 256 = p.coeffs := by
    rw [h1, ← hC, List.filter_append, List.map_append, List.take_append_of_le_length hl]
  unfold parse
  simp only
  rw [dif_pos (by rw [hp]; exact p.size)]
  exact congrArg some (Poly.ext_coeffs hp)

/-- More blocks of the stream give the same polynomial. -/
theorem sampleUniform_mono {b b' : Nat} (h : b ≤ b') {rho : List Byte} {x y : Byte} {p : Poly}
    (hp : sampleUniform b rho x y = some p) : sampleUniform b' rho x y = some p := by
  obtain ⟨T, hT⟩ := xofBlocks_prefix rho x y h
  unfold sampleUniform at *
  rw [← hT]
  exact parse_append hp T

theorem allSome_mono {α β : Type} {f g : β → Option α} (h : ∀ b a, f b = some a → g b = some a) :
    ∀ (l : List β) (xs : List α), allSome (l.map f) = some xs → allSome (l.map g) = some xs
  | [], _, hx => hx
  | b :: l, xs, hx => by
    rw [List.map_cons] at hx ⊢
    cases hf : f b with
    | none => rw [hf] at hx; exact absurd hx (by simp [allSome])
    | some a =>
      cases hr : allSome (l.map f) with
      | none => rw [hf, allSome, hr] at hx; exact absurd hx (by simp)
      | some ys =>
        rw [hf, allSome, hr] at hx
        rw [h b a hf, allSome, allSome_mono h l ys hr]
        exact hx

/-- More blocks of the streams give the same matrix. -/
theorem genA_mono {lv : Level} {b b' : Nat} (h : b ≤ b') {rho : List Byte} {tr : Bool} {A : List (List Poly)}
    (hA : genA lv b rho tr = some A) : genA lv b' rho tr = some A := by
  unfold genA at *
  refine allSome_mono (fun i row hrow => allSome_mono (fun j p hp => ?_) _ _ hrow) _ _ hA
  cases tr <;> exact sampleUniform_mono h hp

/-- An encryption that some number of blocks completes is the same on more blocks. -/
theorem cpaEncrypt_mono {lv : Level} {b b' : Nat} (h : b ≤ b') {pk m coins c : List Byte}
    (hc : cpaEncrypt lv b pk m coins = some c) : cpaEncrypt lv b' pk m coins = some c := by
  unfold cpaEncrypt at *
  simp only at hc ⊢
  cases hA : genA lv b (slice pk (384 * lv.k) 32) true with
  | none => rw [hA] at hc; exact absurd hc (by simp)
  | some A => rw [hA] at hc; rw [genA_mono h hA]; exact hc

theorem kemKeygen_mono {lv : Level} {b b' : Nat} (h : b ≤ b') {d z : List Byte} {keys : List Byte × List Byte}
    (hk : kemKeygen lv b d z = some keys) : kemKeygen lv b' d z = some keys := by
  unfold kemKeygen cpaKeygen at *
  simp only at hk ⊢
  cases hA : genA lv b (hashG d).1 false with
  | none => rw [hA] at hk; exact absurd hk (by simp)
  | some A => rw [hA] at hk; rw [genA_mono h hA]; exact hk

theorem kemEncaps_mono {lv : Level} {b b' : Nat} (h : b ≤ b') {pk m : List Byte} {out : List Byte × List Byte}
    (ho : kemEncaps lv b pk m = some out) : kemEncaps lv b' pk m = some out := by
  unfold kemEncaps at *
  simp only at ho ⊢
  cases hc : cpaEncrypt lv b pk m (hashG (m ++ hashH pk)).2 with
  | none => rw [hc] at ho; exact absurd ho (by simp)
  | some c => rw [hc] at ho; rw [cpaEncrypt_mono h hc]; exact ho

theorem kemDecaps_mono {lv : Level} {b b' : Nat} (h : b ≤ b') {sk c k : List Byte}
    (hk : kemDecaps lv b sk c = some k) : kemDecaps lv b' sk c = some k := by
  unfold kemDecaps at *
  simp only at hk ⊢
  generalize hm : cpaDecrypt lv (slice sk 0 (384 * lv.k)) c = m at *
  cases hc : cpaEncrypt lv b (slice sk (384 * lv.k) (384 * lv.k + 32)) m
      (hashG (m ++ slice sk (768 * lv.k + 32) 32)).2 with
  | none => rw [hc] at hk; exact absurd hk (by simp)
  | some c' => rw [hc] at hk; rw [cpaEncrypt_mono h hc]; exact hk

/-! ### Completion: the matrix is all that a KEM operation waits for -/

theorem cpaEncrypt_of_genA {lv : Level} {b : Nat} {pk : List Byte} {A : List (List Poly)}
    (hA : genA lv b (slice pk (384 * lv.k) 32) true = some A) (m coins : List Byte) :
    ∃ c, cpaEncrypt lv b pk m coins = some c := by
  unfold cpaEncrypt
  simp only [hA]
  exact ⟨_, rfl⟩

theorem kemKeygen_of_genA {lv : Level} {b : Nat} {d : List Byte} {A : List (List Poly)}
    (hA : genA lv b (hashG d).1 false = some A) (z : List Byte) : ∃ keys, kemKeygen lv b d z = some keys := by
  unfold kemKeygen cpaKeygen
  simp only [hA]
  exact ⟨_, rfl⟩

theorem kemEncaps_of_encrypt {lv : Level} {b : Nat} {pk m c : List Byte}
    (h : cpaEncrypt lv b pk m (hashG (m ++ hashH pk)).2 = some c) : ∃ K, kemEncaps lv b pk m = some (c, K) := by
  unfold kemEncaps
  simp only [h]
  exact ⟨_, rfl⟩

theorem kemDecaps_of_genA {lv : Level} {b : Nat} {sk : List Byte} {A : List (List Poly)}
    (hA : genA lv b (slice (slice sk (384 * lv.k) (384 * lv.k + 32)) (384 * lv.k) 32) true = some A) (c : List Byte) :
    ∃ K, kemDecaps lv b sk c = some K := by
  unfold kemDecaps
  simp only
  obtain ⟨c', hc⟩ := cpaEncrypt_of_genA hA (cpaDecrypt lv (slice sk 0 (384 * lv.k)) c)
    (hashG (cpaDecrypt lv (slice sk 0 (384 * lv.k)) c ++ slice sk (768 * lv.k + 32) 32)).2
  rw [hc]
  exact ⟨_, rfl⟩

end Sys2Proof.Machine
end

