-- ==== Sys2Proof/Laws/Steps.lean ====
section
/-! SUPPORT. What one step of the machine can do: whose turn it is, what a host access changes, what a host step keeps
while the core is BUSY, and what a core step gives (spec/70_reset_and_hazards.md R460, R465-R467). -/

namespace Sys2Proof.Machine

/-! ### Whose turn -/

theorem isBusy_eq (s : State) : s.isBusy = decide (s.run = .busy) := by
  unfold State.isBusy; cases s.run <;> rfl

theorem ready_eq (s : State) (a : HostAction) : s.ready a = !(decide (s.run = .busy) && a.holds) := by
  rw [State.ready, isBusy_eq]

/-- The CSR writes that hold are those to CFG, CMD0, CMD1 and CMD2 (R460). -/
theorem holds_csrWrite (addr : Byte) (w : Word) : (HostAction.csrWrite addr w).holds = true ↔
    addr.toNat / 4 = 2 ∨ addr.toNat / 4 = 8 ∨ addr.toNat / 4 = 9 ∨ addr.toNat / 4 = 10 := by
  simp only [HostAction.holds, Bool.or_eq_true, decide_eq_true_eq, or_assoc]
  rfl

theorem agent_reset {s : State} {rest : List Agent} (h : s.sched = .reset :: rest) : s.agent = .reset := by
  simp [State.agent, h]

/-- A held access is the host's turn as soon as the core is IDLE (R460). -/
theorem agent_held {s : State} {a : HostAction} (hi : s.run = .idle) (ha : s.held = some a)
    (hs : s.sched.head? ≠ some .reset) : s.agent = .host := by
  unfold State.agent
  split
  · rename_i h; rw [h] at hs; exact absurd rfl hs
  · rw [if_pos (by simp [ha, isBusy_eq, hi])]

/-- While BUSY the next agent of the schedule takes the step. -/
theorem agent_busy {s : State} (hb : s.run = .busy) (a : Agent) (rest : List Agent) (hs : s.sched = a :: rest) :
    s.agent = a := by
  cases a <;> simp [State.agent, hs, isBusy_eq, hb]

theorem step_host {s : State} (h : s.agent = .host) : step s = .next (hostStep { s with sched := s.sched.tail }) := by
  rw [step, h]
theorem step_core {s : State} (h : s.agent = .core) : step s = coreStep { s with sched := s.sched.tail } := by
  rw [step, h]
theorem step_reset {s : State} (h : s.agent = .reset) : step s = .next (resetStep { s with sched := s.sched.tail }) := by
  rw [step, h]

/-! ### The host's step -/

/-- A held access that is ready is performed. -/
theorem hostStep_held {s : State} {a : HostAction} (hh : s.held = some a) (hr : s.ready a = true) :
    hostStep s = perform a { s with held := none } := by
  simp only [hostStep, hh, hr, if_true]

theorem hostStep_held_busy {s : State} {a : HostAction} (hh : s.held = some a) (hr : s.ready a = false) :
    hostStep s = s := by
  simp only [hostStep, hh, hr, Bool.false_eq_true, if_false]

/-- The next access of the queue is performed if it is ready. -/
theorem hostStep_next {s : State} {a : HostAction} {rest : List HostAction} (hh : s.held = none)
    (hq : s.hostQueue = a :: rest) (hr : s.ready a = true) :
    hostStep s = perform a { s with hostQueue := rest } := by
  simp only [hostStep, hh, hq, hr, if_true]

/-- The next access of the queue is held if it is not ready. -/
theorem hostStep_hold {s : State} {a : HostAction} {rest : List HostAction} (hh : s.held = none)
    (hq : s.hostQueue = a :: rest) (hr : s.ready a = false) :
    hostStep s = { s with hostQueue := rest, held := some a } := by
  simp only [hostStep, hh, hq, hr, Bool.false_eq_true, if_false]

theorem hostStep_nothing {s : State} (hh : s.held = none) (hq : s.hostQueue = []) : hostStep s = s := by
  simp only [hostStep, hh, hq]

/-- Everything a host step can be. -/
theorem hostStep_cases (s : State) :
    (∃ a, s.ready a = true ∧ (s.held = some a ∨ s.held = none ∧ s.hostQueue.head? = some a) ∧
      hostStep s = perform a { s with held := none, hostQueue := if s.held.isSome then s.hostQueue else s.hostQueue.tail }) ∨
    (∃ a, s.ready a = false ∧ s.held = some a ∧ hostStep s = s) ∨
    (∃ a rest, s.ready a = false ∧ s.held = none ∧ s.hostQueue = a :: rest ∧
      hostStep s = { s with hostQueue := rest, held := some a }) ∨
    (s.held = none ∧ s.hostQueue = [] ∧ hostStep s = s) := by
  cases hh : s.held with
  | some a =>
    cases hr : s.ready a with
    | true => exact .inl ⟨a, hr, .inl rfl, by rw [hostStep_held hh hr]; simp⟩
    | false => exact .inr (.inl ⟨a, hr, rfl, hostStep_held_busy hh hr⟩)
  | none =>
    cases hq : s.hostQueue with
    | nil => exact .inr (.inr (.inr ⟨rfl, rfl, hostStep_nothing hh hq⟩))
    | cons a rest =>
      cases hr : s.ready a with
      | true =>
        refine .inl ⟨a, hr, .inr ⟨rfl, by simp⟩, ?_⟩
        rw [hostStep_next hh hq hr]
        congr 1
        simp [hh]
      | false => exact .inr (.inr (.inl ⟨a, rest, hr, rfl, rfl, hostStep_hold hh hq hr⟩))

/-- What a host step keeps while the core is BUSY: everything a running command uses or changes, STATUS.DONE and NCAN
apart (R460). -/
structure HostKept (s t : State) : Prop where
  polys : t.polys = s.polys
  mem : t.mem = s.mem
  memBytes : t.memBytes = s.memBytes
  cmd0 : t.cmd0 = s.cmd0
  cmd1 : t.cmd1 = s.cmd1
  cmd2 : t.cmd2 = s.cmd2
  cur : t.cur = s.cur
  level : t.level = s.level
  run : t.run = s.run
  scratch : t.scratch = s.scratch
  sched : t.sched = s.sched
  streamTries : t.streamTries = s.streamTries
  freeCount : t.freeCount = s.freeCount

theorem HostKept.refl (s : State) : HostKept s s :=
  ⟨rfl, rfl, rfl, rfl, rfl, rfl, rfl, rfl, rfl, rfl, rfl, rfl, rfl⟩

theorem HostKept.trans {s t u : State} (h : HostKept s t) (h' : HostKept t u) : HostKept s u :=
  ⟨h'.1.trans h.1, h'.2.trans h.2, h'.3.trans h.3, h'.4.trans h.4, h'.5.trans h.5, h'.6.trans h.6, h'.7.trans h.7,
    h'.8.trans h.8, h'.9.trans h.9, h'.10.trans h.10, h'.11.trans h.11, h'.12.trans h.12, h'.13.trans h.13⟩

/-- An access that does not hold touches STATUS, IRQEN and the read data only. -/
theorem perform_kept {a : HostAction} (h : a.holds = false) (s : State) : HostKept s (perform a s) := by
  cases a with
  | csrRead addr => exact ⟨rfl, rfl, rfl, rfl, rfl, rfl, rfl, rfl, rfl, rfl, rfl, rfl, rfl⟩
  | bufRead i => cases h
  | bufWrite i be w => cases h
  | csrWrite addr w =>
    have hn : ¬ (addr.toNat / 4 = 2 ∨ addr.toNat / 4 = 8 ∨ addr.toNat / 4 = 9 ∨ addr.toNat / 4 = 10) := by
      rw [← holds_csrWrite addr w, h]; simp
    simp only [perform, csrWrite, csrIndex]
    split
    · rename_i e; exact absurd (.inl e) hn
    · exact ⟨rfl, rfl, rfl, rfl, rfl, rfl, rfl, rfl, rfl, rfl, rfl, rfl, rfl⟩
    · exact ⟨rfl, rfl, rfl, rfl, rfl, rfl, rfl, rfl, rfl, rfl, rfl, rfl, rfl⟩
    · rename_i e; exact absurd (.inr (.inl e)) hn
    · rename_i e; exact absurd (.inr (.inr (.inl e))) hn
    · rename_i e; exact absurd (.inr (.inr (.inr e))) hn
    · exact ⟨rfl, rfl, rfl, rfl, rfl, rfl, rfl, rfl, rfl, rfl, rfl, rfl, rfl⟩

theorem hostStep_kept {s : State} (hb : s.run = .busy) : HostKept s (hostStep s) := by
  rcases hostStep_cases s with ⟨a, hr, _, h⟩ | ⟨a, _, _, h⟩ | ⟨a, rest, _, _, _, h⟩ | ⟨_, _, h⟩
  · have hf : a.holds = false := by simpa [ready_eq, hb] using hr
    rw [h]
    exact HostKept.trans (t := { s with held := none, hostQueue := if s.held.isSome then s.hostQueue else s.hostQueue.tail })
      ⟨rfl, rfl, rfl, rfl, rfl, rfl, rfl, rfl, rfl, rfl, rfl, rfl, rfl⟩ (perform_kept hf _)
  · rw [h]; exact .refl s
  · rw [h]; exact ⟨rfl, rfl, rfl, rfl, rfl, rfl, rfl, rfl, rfl, rfl, rfl, rfl, rfl⟩
  · rw [h]; exact .refl s

/-! ### The core's step -/

theorem coreStep_idle {s : State} (h : s.run = .idle) : coreStep s = .next s := by
  simp [coreStep, isBusy_eq, h]

theorem coreStep_ok {s : State} {i : Instr} (hb : s.run = .busy) (hd : decode s.cur = .ok i) : coreStep s = exec i s := by
  simp [coreStep, isBusy_eq, hb, hd]

theorem coreStep_error {s : State} {e : DecodeError} (hb : s.run = .busy) (hd : decode s.cur = .error e) :
    coreStep s = .next (complete (decodeErrorCode e) s) := by
  simp [coreStep, isBusy_eq, hb, hd, raiseError]

theorem decodeErrorCode_ne_ok (e : DecodeError) : decodeErrorCode e ≠ .ok := by cases e <;> simp [decodeErrorCode]

/-- Everything a core step can do while BUSY. -/
theorem coreStep_outcomes {s : State} (hb : s.run = .busy) : Outcomes s (coreStep s) := by
  cases hd : decode s.cur with
  | error e => rw [coreStep_error hb hd]; exact .failed _ (decodeErrorCode_ne_ok e)
  | ok i => rw [coreStep_ok hb hd]; exact exec_outcomes i s

theorem Outcomes.next {s : State} {o : Host.Outcome State Fault Refusal} (h : Outcomes s o) : ∃ t, o = .next t := by
  cases h <;> exact ⟨_, rfl⟩

/-- Every command answers a next state. -/
theorem exec_next (i : Instr) (s : State) : ∃ t, exec i s = .next t := (exec_outcomes i s).next

/-- Every step answers a next state. -/
theorem step_next (s : State) : ∃ t, step s = .next t := by
  cases h : s.agent with
  | reset => exact ⟨_, step_reset h⟩
  | host => exact ⟨_, step_host h⟩
  | core =>
    rw [step_core h]
    by_cases hr : s.run = .busy
    · exact (coreStep_outcomes (s := { s with sched := s.sched.tail }) hr).next
    · refine ⟨_, coreStep_idle (s := { s with sched := s.sched.tail }) ?_⟩
      show s.run = .idle
      cases h : s.run with
      | idle => rfl
      | busy => exact absurd h hr

/-! ### Several steps -/

theorem after_zero (s : State) : s.after 0 = .next s := rfl

theorem after_succ {s t : State} (h : step s = .next t) (k : Nat) : s.after (k + 1) = t.after k := by
  have e : core.step s = .next t := h
  show Host.Core.run core (k + 1) s = Host.Core.run core k t
  simp only [Host.Core.run]
  rw [e]

theorem after_one (s : State) : s.after 1 = step s := by
  obtain ⟨t, h⟩ := step_next s
  rw [after_succ h, after_zero, h]

end Sys2Proof.Machine
end

