-- ==== Sys2Proof/Tests/Slice0.lean ====
section
/-! SUPPORT. Tests, with expected values from spec/ (30_encoding.md and 95_test_vectors.md), and one witness theorem for
each statement that has hypotheses. -/

namespace Sys2Proof.Tests

open Sys2Proof.Machine Sys2Proof.Statement

/-! ### Small states -/

def zeros (n : Nat) : List Byte := List.replicate n 0

/-- A polynomial whose first coefficients are listed; the rest are 0. -/
def poly (l : List Nat) : Poly := Poly.ofNats l

/-- The command of three command words (R100). -/
def command (cmd2 cmd1 cmd0 : Word) : Command := cmd2 ++ cmd1 ++ cmd0

/-- Reset, with a command latched. -/
def busyWith (C : Command) : State := { State.reset with cur := C, run := .busy }

/-- Reset, with one host access to come. -/
def hostWith (a : HostAction) : State := { State.reset with hostQueue := [a] }

/-- Four written registers: p0 and p1 NORMAL, p2 and p3 NTT; the others are EMPTY. -/
def loaded : State :=
  (((State.reset.setPoly 0 .normal (poly [0, 3328, 3328, 1664, 1234])).setPoly 1 .normal
    (poly [1, 1, 3328, 1665, 2000])).setPoly 2 .ntt (poly [1, 2, 1, 2])).setPoly 3 .ntt (poly [3, 4, 3, 4])

/-- What a test reads in the next state. -/
def look {α : Type} (o : Host.Outcome State Fault Refusal) (f : State → α) : Option α :=
  match o with
  | .next t => some (f t)
  | .fault _ => none
  | .refused _ => none

/-- Tag and first coefficients of a register. -/
def regOf (r : Reg) (n : Nat) (t : State) : Tag × List Nat := ((t.poly r).tag, ((t.poly r).f.toNats).take n)

/-! ### WellFormed: an ill-formed command for each check (R105) -/

theorem test_wellFormed_refuses :
    (Instr.pzero 0 2).wellFormed = false ∧ (Instr.dec12 0 15 0).wellFormed = false ∧
    (Instr.scbd 0 4 0 0).wellFormed = false ∧ (Instr.scbd 0 1 0 0).wellFormed = false ∧
    (Instr.cenc 0 0 0).wellFormed = false ∧ (Instr.cdec 0 12 0).wellFormed = false ∧
    (Instr.hash 4 0 0 0 0).wellFormed = false ∧ (Instr.hash 1 0 0 0 16).wellFormed = false := by decide

theorem test_wellFormed_accepts :
    (Instr.pzero 0 1).wellFormed = true ∧ (Instr.scbd 0 3 0 0).wellFormed = true ∧
    (Instr.cenc 0 11 0).wellFormed = true ∧ (Instr.hash 3 0 0 0 16).wellFormed = true := by decide

/-! ### Decoding: a word written out from R101 and R102 for every constructor -/

theorem test_decode_arith :
    decode (command 0 0 0x00065A01) = .ok (.padd 10 5 6) ∧ decode (command 0 0 0x00065A02) = .ok (.psub 10 5 6) ∧
    decode (command 0 0 0x00065A03) = .ok (.pbmul 10 5 6) ∧ decode (command 0 0 0x00065A04) = .ok (.pbmac 10 5 6) ∧
    decode (command 0 0 0x00100F05) = .ok (.pzero 15 1) ∧ decode (command 0 0 0x0000F106) = .ok (.pmov 1 15) := by
  decide

theorem test_decode_transform :
    decode (command 0 0 0x0000F108) = .ok (.ntt 1 15) ∧ decode (command 0 0 0x0000F109) = .ok (.intt 1 15) := by decide

theorem test_decode_sampling :
    decode (command 0 0x1FE0 0xFF300410) = .ok (.scbd 4 3 255 0x1FE0) ∧
    decode (command 0xFE 0x1FE0 0xFF000411) = .ok (.samu 4 255 254 0x1FE0) := by decide

theorem test_decode_codec :
    decode (command 0 0x1234 0x0000F018) = .ok (.enc12 15 0x1234) ∧
    decode (command 0 0x1234 0x00100F19) = .ok (.dec12 15 1 0x1234) ∧
    decode (command 0 0x1234 0x00B0F01A) = .ok (.cenc 15 11 0x1234) ∧
    decode (command 0 0x1234 0x00A00F1B) = .ok (.cdec 15 10 0x1234) := by decide

theorem test_decode_hash_kem_control :
    decode (command 0x55667788 0x33441122 0x00200020) = .ok (.hash 2 0x1122 0x3344 0x7788 0x5566) ∧
    decode (command 0x3333 0x22221111 0x28) = .ok (.keygen 0x1111 0x2222 0x3333) ∧
    decode (command 0x3333 0x22221111 0x29) = .ok (.encaps 0x1111 0x2222 0x3333) ∧
    decode (command 0x3333 0x22221111 0x2A) = .ok (.decaps 0x1111 0x2222 0x3333) ∧
    decode (command 0 0 0) = .ok .nop ∧ decode (command 0 0 0x30) = .ok .zeroize := by decide

/-- R107, R108: opcodes outside the map, and a reserved bit at each end of the word. -/
theorem test_decode_refuses :
    decode (command 0 0 0x07) = .error .illegalOpcode ∧ decode (command 0 0 0xFF) = .error .illegalOpcode ∧
    decode (command 0x80000000 0 0) = .error .reservedField ∧ decode (command 0 0 0x00100001) = .error .reservedField ∧
    decode (command 0x100 0 0x11) = .error .reservedField := by decide

/-! ### The commands (spec/95_test_vectors.md) -/

/-- 2.9: STATUS after NOP. -/
theorem test_nop : look (exec .nop (busyWith 0)) State.statusWord = some 0x00000002 := by decide

/-- 2.9: irq with IRQEN = 1. -/
theorem test_nop_irq : look (exec .nop { busyWith 0 with doneIe := true }) State.irq = some true := by decide

/-- The modadd rows of 2.1, and the tag. -/
theorem test_padd : look (exec (.padd 4 0 1) loaded) (regOf 4 6) = some (.normal, [1, 0, 3327, 0, 3234, 0]) := by
  decide +kernel

/-- UNINIT (R146): STATUS 0x506. -/
theorem test_padd_uninit : look (exec (.padd 4 0 7) loaded) State.statusWord = some 0x00000506 := by decide

/-- Differences by R141: 0-1, 3328-1, 3328-3328, 1664-1665, 1234-2000. -/
theorem test_psub : look (exec (.psub 0 0 1) loaded) (regOf 0 6) = some (.normal, [3328, 3327, 0, 3328, 2563, 0]) := by
  decide +kernel

/-- DOMAIN (R147): STATUS 0x606. -/
theorem test_psub_domain : look (exec (.psub 4 0 2) loaded) State.statusWord = some 0x00000606 := by decide

/-- 2.2: the product of one pair, at pairs 0 and 1. -/
theorem test_pbmul : look (exec (.pbmul 4 2 3) loaded) (regOf 4 4) = some (.ntt, [139, 10, 3196, 10]) := by
  decide +kernel

/-- R149: the same products, added to the old register. -/
theorem test_pbmac : look (exec (.pbmac 2 2 3) loaded) (regOf 2 4) = some (.ntt, [140, 12, 3197, 12]) := by
  decide +kernel

theorem test_pzero : look (exec (.pzero 0 1) loaded) (regOf 0 3) = some (.ntt, [0, 0, 0]) := by decide +kernel

/-- BAD_PARAM (R150): STATUS 0x306. -/
theorem test_pzero_badParam : look (exec (.pzero 0 2) loaded) State.statusWord = some 0x00000306 := by decide

theorem test_pmov : look (exec (.pmov 9 3) loaded) (regOf 9 3) = some (.ntt, [3, 4, 3]) := by decide +kernel

/-- 2.3: ntt of X^2. -/
theorem test_ntt : look (exec (.ntt 5 4) (State.reset.setPoly 4 .normal (poly [0, 0, 1]))) (regOf 5 8) =
    some (.ntt, [17, 0, 3312, 0, 2761, 0, 568, 0]) := by decide +kernel

/-- 2.3: intt of the polynomial whose every coefficient is 1. -/
theorem test_intt : look (exec (.intt 5 5) (State.reset.setPoly 5 .ntt (poly (List.replicate 256 1)))) (regOf 5 4) =
    some (.normal, [1, 1, 0, 0]) := by decide +kernel

/-- 2.4: SCBD with eta 2 and with eta 3, seed and nonce 0. -/
theorem test_scbd : look (exec (.scbd 0 2 0 0) State.reset) (regOf 0 9) =
    some (.normal, [0, 3327, 0, 2, 3327, 3327, 1, 3328, 1]) := by
  simp only [exec, execScbd, sampleCbd, prf, shake256, NatKeccak.sponge_eq]
  decide +kernel

theorem test_scbd_eta3 : look (exec (.scbd 0 3 0 0) State.reset) (regOf 0 12) =
    some (.normal, [0, 0, 2, 0, 1, 0, 0, 1, 0, 3328, 3326, 1]) := by
  simp only [exec, execScbd, sampleCbd, prf, shake256, NatKeccak.sponge_eq]
  decide +kernel

/-- 2.5: SAMU with index bytes 0 and 0, and the order of the two index bytes (x first). -/
theorem test_samu : look (exec (.samu 4 0 0 0) State.reset) (regOf 4 8) =
    some (.ntt, [2944, 3017, 340, 1184, 3243, 1708, 2458, 2285]) := by
  simp only [exec, execSamu, sampleUniform, xofBlocks, shake128, NatKeccak.sponge_eq]
  decide +kernel

theorem test_samu_x : look (exec (.samu 4 1 0 0) State.reset) (regOf 4 8) =
    some (.ntt, [1389, 3170, 1440, 2480, 679, 1601, 3244, 1600]) := by
  simp only [exec, execSamu, sampleUniform, xofBlocks, shake128, NatKeccak.sponge_eq]
  decide +kernel

/-- 2.6: 0x123 and 0x456 encode to 23 61 45. -/
theorem test_enc12 : look (exec (.enc12 4 0x1E80) (State.reset.setPoly 4 .ntt (poly [0x123, 0x456])))
    (fun t => t.memRead 0x1E80 4) = some [0x23, 0x61, 0x45, 0] := by decide +kernel

/-- 2.6: ADDR_RANGE precedes UNINIT. -/
theorem test_enc12_range : look (exec (.enc12 4 0x1F00) State.reset) State.statusWord = some 0x00000406 := by decide

/-- 2.6: FF FF FF decode to 766 and 766, and NCAN is set. -/
theorem test_dec12 : look (exec (.dec12 0 0 0x10) { State.reset with mem := [(16, 255), (17, 255), (18, 255)] })
    (fun t => (regOf 0 3 t, t.statusWord)) = some ((.normal, [766, 766, 0]), 0x0000000A) := by decide +kernel

/-- 2.6: 00 0D 00 decode to 3328 and 0, and NCAN is not changed. -/
theorem test_dec12_canonical : look (exec (.dec12 0 1 0) { State.reset with mem := [(1, 13)] })
    (fun t => (regOf 0 3 t, t.statusWord)) = some ((.ntt, [3328, 0, 0]), 0x00000002) := by decide +kernel

/-- 2.6: CENC with d = 11. -/
theorem test_cenc : look (exec (.cenc 4 11 0) (State.reset.setPoly 4 .normal (poly [3328, 1, 1664, 7])))
    (fun t => t.memRead 0 6) = some [0xFF, 0x0F, 0x00, 0x00, 0x09, 0x00] := by decide +kernel

/-- 2.6: DOMAIN for an NTT source. -/
theorem test_cenc_domain : look (exec (.cenc 2 10 0) loaded) State.statusWord = some 0x00000606 := by decide

/-- 2.6: CDEC with d = 1 of the message 01. -/
theorem test_cdec : look (exec (.cdec 6 1 0) { State.reset with mem := [(0, 1)] }) (regOf 6 3) =
    some (.normal, [1665, 0, 0]) := by decide +kernel

/-- 2.6: decompress(1, 10) = 3 and decompress(2, 10) = 7. -/
theorem test_cdec_width : look (exec (.cdec 6 10 0) { State.reset with mem := [(0, 1), (1, 8)] }) (regOf 6 3) =
    some (.normal, [3, 7, 0]) := by decide +kernel

/-- 2.7: SHA3-256 of "abc", the first four bytes. -/
theorem test_hash : look (exec (.hash 0 0 0x200 3 0) { State.reset with mem := [(0, 97), (1, 98), (2, 99)] })
    (fun t => t.memRead 0x200 4) = some [0x3A, 0x98, 0x5D, 0xA7] := by
  simp only [exec, execHash, hashOutput, sha3_256, NatKeccak.sponge_eq]
  decide +kernel

/-- 2.7: SHAKE256 of no bytes, one byte out at the top of M; the empty range at 0x2000 is legal. -/
theorem test_hash_edge : look (exec (.hash 3 0x2000 0x1FFF 0 1) State.reset)
    (fun t => (t.memRead 0x1FFF 1, t.statusWord)) = some ([0x46], 0x00000002) := by
  simp only [exec, execHash, hashOutput, shake256, NatKeccak.sponge_eq]
  decide +kernel

/-- 2.8: the first bytes of rho, the last 32 bytes of the public key, for d = 32 zero bytes. -/
theorem test_keygen_rho : (hashG (zeros 32)).1.take 4 = [0xAD, 0x56, 0xC3, 0x5C] := by
  simp only [hashG, sha3_512, NatKeccak.sponge_eq]
  decide +kernel

/-- 2.8: KEYGEN at Level 5 past the end of M. -/
theorem test_keygen_range : look (exec (.keygen 0 0x40 0x13A1) { State.reset with level := .level5 }) State.statusWord =
    some 0x00000406 := by decide

/-- 2.8: ENCAPS whose output ends one byte past M. -/
theorem test_encaps_range : look (exec (.encaps 0x40 0 0x1CE1) State.reset) State.statusWord = some 0x00000406 := by
  decide

/-- R331: DECAPS whose secret key ends one byte past M. -/
theorem test_decaps_range : look (exec (.decaps 0x19A1 0 0) State.reset) State.statusWord = some 0x00000406 := by
  decide

/-- R371: ZEROIZE wipes M and P. -/
theorem test_zeroize : look (exec .zeroize { loaded with mem := [(3, 7)] })
    (fun t => (t.mem, regOf 0 2 t, t.statusWord)) = some ([], (.empty, [0, 0]), 0x00000002) := by decide +kernel

/-- 2.9: a CFG write of 3 is dropped, and reserved bits are ignored. -/
theorem test_cfg : look (step (hostWith (.csrWrite 0x08 0xFFFFFFFD))) (fun t => t.level) = some .level3 ∧
    look (step (hostWith (.csrWrite 0x0B 3))) (fun t => t.level) = some .level1 := by decide

/-! ### Witnesses: for each statement with hypotheses, states and operands that meet them -/

/-- A state that differs from reset in its control fields only meets the invariant, if those are sound. -/
theorem quiet_inv {s : State} (hp : s.polys = Vector.replicate 16 PolyReg.reset) (hm : s.mem = [])
    (hb : s.memBytes = 8192) (hs : s.StatusOk) (hh : s.HeldOk) (hz : s.scratch = Scratch.zero)
    (ht : s.streamTries = 0) : s.Inv := by
  have hr : ∀ r, s.poly r = PolyReg.reset := fun r => by simp [State.poly, hp]
  refine ⟨fun r => ?_, fun r _ => ?_, ⟨by rw [hm]; rfl, fun c hc => ?_⟩, ?_, hs, hh, hz, fun _ => ht⟩
  · rw [hr]; exact Poly.zero_canonical
  · rw [hr]; rfl
  · rw [hm] at hc; exact absurd hc List.not_mem_nil
  · rw [State.Conforming, hb]; decide

/-- An idle block performs the host's next access, whatever it is. -/
theorem performs_hostWith (a : HostAction) : Performs (hostWith a) a := ⟨rfl, rfl, .inr ⟨rfl, rfl⟩⟩

theorem witness_EncodeOfDecode : decode (command 0 0 0x00010201) = .ok (.padd 2 0 1) := by decide

theorem witness_IllegalOpcodes :
    ((busyWith 0x07).run = .busy ∧ wordOpcode (busyWith 0x07).cur ∉ opcodeTable.map Prod.fst) ∧
    ((busyWith 0xFF).run = .busy ∧ wordOpcode (busyWith 0xFF).cur ∉ opcodeTable.map Prod.fst) ∧
    ((busyWith 0x30).run = .busy ∧ wordOpcode (busyWith 0x30).cur ∈ opcodeTable.map Prod.fst ∧
      ∃ t, coreStep (busyWith 0x30) = .next t) :=
  ⟨by decide, by decide, rfl, by decide, _, rfl⟩

theorem witness_ReservedBits :
    ((0x01, 0xFFFFFFFFFFFFFFFFFFF000FF) ∈ opcodeTable ∧ (busyWith 0x100001).run = .busy ∧
      wordOpcode (busyWith 0x100001).cur = 0x01 ∧
      (busyWith 0x100001).cur &&& 0xFFFFFFFFFFFFFFFFFFF000FF ≠ (0x01 : Byte).setWidth 96) ∧
    ((busyWith 0x0FFF01).run = .busy ∧ wordOpcode (busyWith 0x0FFF01).cur = 0x01 ∧
      (busyWith 0x0FFF01).cur &&& 0xFFFFFFFFFFFFFFFFFFF000FF = (0x01 : Byte).setWidth 96) := by decide

theorem witness_StepRunsLatchedCommand :
    (busyWith 0x30).agent = .core ∧ (busyWith 0x30).run = .busy ∧ decode (busyWith 0x30).cur = .ok .zeroize := by decide

theorem witness_CommandIssue :
    (∀ w : Word, ((0x28 : Byte).toNat / 4 = 0x28 / 4 ∧ Performs (hostWith (.csrWrite 0x28 w)) (.csrWrite 0x28 w)) ∧
      ((0x2B : Byte).toNat / 4 = 0x28 / 4 ∧ Performs (hostWith (.csrWrite 0x2B w)) (.csrWrite 0x2B w))) ∧
    (let s := { hostWith (.csrWrite 0x28 5) with run := .busy, sched := [.host] }
     s.run = .busy ∧ s.agent = .host ∧ s.held = none ∧ s.hostQueue = [.csrWrite 0x28 5]) :=
  ⟨fun _ => ⟨⟨by decide, performs_hostWith _⟩, by decide, performs_hostWith _⟩, by decide⟩

/-- A running block whose host comes next with the access `a`. -/
def busyHost (a : HostAction) : State := { hostWith a with run := .busy, sched := [.host] }

theorem witness_HoldsWhileBusy :
    (∀ a, (busyHost a).run = .busy ∧ (busyHost a).agent = .host ∧ (busyHost a).held = none ∧
      (busyHost a).hostQueue = [a]) ∧
    (∀ addr ∈ [(0x08 : Byte), 0x0B, 0x20, 0x24, 0x28, 0x2B], addr.toNat / 4 * 4 ∈ [0x08, 0x20, 0x24, 0x28]) ∧
    (∀ addr ∈ [(0x00 : Byte), 0x07, 0x0C, 0x10, 0x2C, 0xFF], addr.toNat / 4 * 4 ∉ [0x08, 0x20, 0x24, 0x28]) ∧
    (let s := { busyWith 0 with held := some (.bufRead 0), sched := [.host] }
     s.run = .busy ∧ s.agent = .host ∧ s.held = some (.bufRead 0) ∧ (HostAction.bufRead 0).holds = true) ∧
    (let s := { State.reset with held := some (.bufRead 0), sched := [.core] }
     s.run = .idle ∧ s.held = some (.bufRead 0) ∧ s.sched.head? ≠ some .reset) :=
  ⟨fun _ => ⟨rfl, rfl, rfl, rfl⟩, by decide, by decide, by decide, by decide⟩

theorem witness_SchedulerNeverChangesData : (busyHost (.csrRead 0x0C)).run = .busy := by decide

theorem witness_CommandReadsOnlyItsInputs :
    SameInputs loaded { loaded with cmd0 := 7, bufRdata := 9, doneIe := true } ∧
    loaded.status.ncan = ({ loaded with cmd0 := 7, bufRdata := 9, doneIe := true } : State).status.ncan :=
  ⟨⟨rfl, rfl, rfl, rfl, rfl, rfl⟩, rfl⟩

theorem witness_ErrorsReadOnlyTags :
    let s := { loaded with cur := 0x00010201, run := .busy }
    let s' := { s.setPoly 0 .normal (poly [5]) with mem := [(0, 7)] }
    s.run = .busy ∧ s'.run = .busy ∧ s.cur = s'.cur ∧ s.level = s'.level ∧ s.memBytes = s'.memBytes ∧
      ∀ r : Reg, (s.poly r).tag = (s'.poly r).tag := by decide

theorem witness_CommandOutcomes : (busyWith 0).run = .busy := rfl

theorem witness_BusyChanges :
    (∃ t, step (hostWith (.csrWrite 0x28 0)) = .next t ∧ (hostWith (.csrWrite 0x28 0)).run = .idle ∧ t.run = .busy) ∧
    (∃ t, step (busyWith 0) = .next t ∧ (busyWith 0).run = .busy ∧ t.run = .idle) :=
  ⟨⟨_, rfl, rfl, rfl⟩, _, rfl, rfl, rfl⟩

/-- A state with NCAN set whose host comes next with the access `a`. -/
def ncanHost (a : HostAction) : State := { hostWith a with status := ⟨true, false, true, .ok⟩ }

theorem witness_NcanChanges :
    (∃ t, step (ncanHost (.csrWrite 0x0C 8)) = .next t ∧ (ncanHost (.csrWrite 0x0C 8)).status.ncan = true ∧
      t.status.ncan = false) ∧
    (∃ t, step { busyWith 0x19 with mem := [(0, 255), (1, 255)] } = .next t ∧
      ({ busyWith 0x19 with mem := [(0, 255), (1, 255)] } : State).status.ncan = false ∧ t.status.ncan = true) := by
  refine ⟨⟨_, rfl, rfl, rfl⟩, _, rfl, rfl, ?_⟩
  decide +kernel

/-- A completed command, with IRQEN set or clear, whose host comes next with the access `a`. -/
def doneHost (ie : Bool) (a : HostAction) : State :=
  { hostWith a with status := ⟨true, false, false, .ok⟩, doneIe := ie }

theorem doneHost_inv (ie : Bool) (a : HostAction) : (doneHost ie a).Inv := by
  refine quiet_inv rfl rfl rfl ⟨by simp [doneHost], fun h => absurd h (by simp [doneHost, hostWith, State.reset])⟩ ?_ rfl rfl
  intro b hb
  cases hb

theorem performs_doneHost (ie : Bool) (a : HostAction) : Performs (doneHost ie a) a := ⟨rfl, rfl, .inr ⟨rfl, rfl⟩⟩

theorem busyIe_inv : ({ busyWith 0 with doneIe := true } : State).Inv := by
  refine quiet_inv rfl rfl rfl (by simp [State.StatusOk, busyWith, State.reset]) ?_ rfl rfl
  intro b hb
  cases hb

theorem witness_InterruptChanges :
    (let s : State := { busyWith 0 with doneIe := true }
     s.Inv ∧ ∃ t, step s = .next t ∧ s.irq = false ∧ t.irq = true ∧ s.agent = .core ∧ s.run = .busy ∧ t.run = .idle ∧
       s.doneIe = true) ∧
    (let s := doneHost false (.csrWrite 0x10 1)
     s.Inv ∧ Performs s (.csrWrite 0x10 1) ∧ s.status.done = true ∧
       ∃ t, step s = .next t ∧ s.irq = false ∧ t.irq = true) ∧
    (∀ a ∈ [HostAction.csrWrite 0x0C 2, .csrWrite 0x10 0, .csrWrite 0x28 0],
      (doneHost true a).Inv ∧ Performs (doneHost true a) a ∧
        ∃ t, step (doneHost true a) = .next t ∧ (doneHost true a).irq = true ∧ t.irq = false) ∧
    (let s : State := { busyWith 0 with doneIe := true, sched := [.reset] }
     s.Inv ∧ s.agent = .reset) := by
  refine ⟨⟨busyIe_inv, _, rfl, rfl, rfl, rfl, rfl, rfl, rfl⟩, ⟨doneHost_inv _ _, performs_doneHost _ _, rfl, _, rfl, rfl, rfl⟩,
    ?_, ?_, rfl⟩
  rotate_left
  · have h := busyIe_inv
    exact ⟨h.canonical, h.emptyIsZero, h.memoryOk, h.conforming, h.statusOk, h.heldOk, h.scratchZero, h.triesZero⟩
  intro a ha
  refine ⟨doneHost_inv _ _, performs_doneHost _ _, ?_⟩
  simp only [List.mem_cons, List.not_mem_nil, or_false] at ha
  rcases ha with rfl | rfl | rfl <;> exact ⟨_, rfl, rfl, rfl⟩

theorem witness_InvariantKept : (doneHost true (.bufRead 7)).Inv := doneHost_inv _ _

theorem witness_ResetStep :
    (let s := { busyWith 0x28 with held := some (.csrWrite 0x28 0), sched := [.reset, .core] }
     s.sched = .reset :: [.core] ∧ (∀ addr, s.held ≠ some (.csrRead addr)) ∧ ∀ i, s.held ≠ some (.bufRead i)) ∧
    (let s := { busyWith 0x28 with held := some (.bufRead 5), sched := [.reset] }
     s.sched = .reset :: [] ∧ ∀ addr, s.held ≠ some (.csrRead addr)) :=
  ⟨⟨rfl, by simp, by simp⟩, rfl, by simp⟩

theorem witness_CsrRead (addr : Byte) :
    (hostWith (.csrRead addr)).Conforming ∧ Performs (hostWith (.csrRead addr)) (.csrRead addr) :=
  ⟨by show 256 ∣ 8192 ∧ 4800 ≤ 8192 ∧ 8192 ≤ 65536; decide, performs_hostWith _⟩

theorem witness_CsrWrite (w : Word) : ∀ addr ∈ [(0x08 : Byte), 0x0F, 0x10, 0x20, 0x27, 0x2C, 0xFF],
    Performs (hostWith (.csrWrite addr w)) (.csrWrite addr w) ∧ addr.toNat / 4 ≠ 0x28 / 4 := by
  intro addr h
  refine ⟨performs_hostWith _, ?_⟩
  revert addr
  decide

/-- The last word inside M (8192 bytes) and the first outside. -/
theorem witness_BufferPort (be : BitVec 4) (wdata : Word) :
    (Performs (hostWith (.bufRead 2047)) (.bufRead 2047) ∧ 4 * (2047 : BitVec 14).toNat + 3 < 8192) ∧
    (Performs (hostWith (.bufRead 2048)) (.bufRead 2048) ∧ ¬ 4 * (2048 : BitVec 14).toNat + 3 < 8192) ∧
    (Memory.wf (hostWith (.bufWrite 2047 be wdata)).mem = true ∧
      Performs (hostWith (.bufWrite 2047 be wdata)) (.bufWrite 2047 be wdata)) ∧
    (let a := HostAction.bufWrite 5 be wdata
     (busyHost a).run = .busy ∧ (busyHost a).agent = .host ∧ (busyHost a).held = none ∧ (busyHost a).hostQueue = [a]) ∧
    (let s := { State.reset with held := some (.bufRead 0), sched := [.core] }
     s.run = .idle ∧ s.held = some (.bufRead 0) ∧ s.sched.head? ≠ some .reset) :=
  ⟨⟨performs_hostWith _, by decide⟩, ⟨performs_hostWith _, by decide⟩, ⟨rfl, performs_hostWith _⟩,
    ⟨rfl, rfl, rfl, rfl⟩, by decide⟩

theorem witness_ArithmeticLaws : (3328 : Coeff).toNat < 3329 := by decide

/-- The largest value each bounded index of the statements on units and tables takes. -/
theorem witness_bounds : 127 < 128 ∧ 63 < 64 ∧ 23 < 24 ∧ 255 < 256 ∧ 7 < 8 ∧ 31 < 32 := by decide

/-- A constant polynomial below q is canonical. -/
theorem poly_replicate_canonical {c : Nat} (h : c < 3329) : (poly (List.replicate 256 c)).canonical :=
  Poly.ofNats_canonical fun x hx => by rw [List.eq_of_mem_replicate hx]; exact h

theorem witness_TransformRoundTrip : (poly (List.replicate 256 3328)).canonical := poly_replicate_canonical (by decide)

@[simp] theorem length_zeros (n : Nat) : (zeros n).length = n := List.length_replicate

theorem witness_KeccakPermutation : (zeros 200).length = 200 := length_zeros 200

theorem witness_SpongeBytes : (∀ r ∈ [8, 72, 136, 168, 192], 0 < r ∧ r < 200 ∧ 8 ∣ r) ∧
    (zeros 200).length = 200 ∧ (zeros 168).length = 168 ∧ 0 ≤ 168 ∧ 168 ≤ 169 :=
  ⟨by decide, by simp⟩

theorem witness_CenteredBinomial : 2 ∈ [2, 3] ∧ (zeros 128).length = 64 * 2 ∧ 3 ∈ [2, 3] ∧ (zeros 192).length = 64 * 3 := by
  simp

theorem witness_BitPacking :
    (∀ d ∈ [1, 12], 1 ≤ d ∧ d ≤ 12 ∧ (List.replicate 256 (2 ^ d - 1)).length = 256 ∧
      (∀ x ∈ List.replicate 256 (2 ^ d - 1), x < 2 ^ d) ∧ (zeros (32 * d)).length = 32 * d) := by decide +kernel

theorem witness_CompressionRounding : ∀ d ∈ [1, 11], 1 ≤ d ∧ d ≤ 11 ∧ 3328 < 3329 ∧ 2 ^ d - 1 < 2 ^ d ∧
    2 ^ (d - 1) < 2 ^ d := by decide

theorem witness_CompressionErrorBound : ∀ d ∈ [1, 11], 1 ≤ d ∧ d ≤ 11 ∧ 3328 < 3329 := by decide

/-- A polynomial at the largest allowed distance, 831, from the encoding of the zero message. -/
theorem witness_MessageCodec : (zeros 32).length = 32 ∧ (poly (List.replicate 256 831)).canonical ∧
    ∀ i < 256, ringDistance ((poly (List.replicate 256 831)).get i).toNat ((msgDecode (zeros 32)).get i).toNat ≤ 831 :=
  ⟨length_zeros 32, poly_replicate_canonical (by decide), by decide +kernel⟩

theorem witness_CompareAndSelect : (zeros 5).length = [1, 2, 3, 4, (5 : Byte)].length ∧ (zeros 32).length = 32 := by simp

/-! #### The KEM's witnesses: Level 1 with all-zero keys, where decryption is exact -/

theorem slice_zeros (n a m : Nat) (h : a + m ≤ n) : slice (zeros n) a m = zeros m := by
  simp only [slice, zeros, List.drop_replicate, List.take_replicate]
  congr 1
  omega

theorem dec12_zeros : dec12 (zeros 384) = Poly.zero := by decide +kernel

theorem intt_zero : intt Poly.zero = Poly.zero := by decide +kernel

theorem basemul_zero (p : Poly) : basemul Poly.zero p = Poly.zero := by
  apply Poly.ext_get
  intro i hi
  have hc : ∀ i, i < 128 → _ := getD_basemulPairs gammaTable Poly.zero.coeffs p.coeffs
    (by rw [Poly.zero.size, length_gammaTable]) (by rw [p.size, length_gammaTable])
  have hz : ∀ i, (Poly.zero.coeffs.getD i 0).toNat = 0 := fun i => by
    rw [show Poly.zero.coeffs.getD i 0 = 0 from Poly.get_zero i]; rfl
  rw [Poly.get_zero, Poly.get, basemul_coeffs]
  rcases Nat.mod_two_eq_zero_or_one i with h | h
  · rw [show i = 2 * (i / 2) by omega, (hc (i / 2) (by omega)).1, hz, hz]
    simp [coeff]
  · rw [show i = 2 * (i / 2) + 1 by omega, (hc (i / 2) (by omega)).2, hz, hz]
    simp [coeff]

theorem polyAdd_zero_zero : polyAdd Poly.zero Poly.zero = Poly.zero := by decide +kernel

theorem decVector_zeros (n : Nat) (h : 768 ≤ n) : decVector .level1 (zeros n) = [Poly.zero, Poly.zero] := by
  show [dec12 (slice (zeros n) 0 384), dec12 (slice (zeros n) 384 384)] = _
  rw [slice_zeros _ _ _ (by omega), slice_zeros _ _ _ (by omega), dec12_zeros]

theorem dot_zeros : ∀ l : List Poly, dot [Poly.zero, Poly.zero] l = Poly.zero
  | [] => rfl
  | [a] => by
    show polyAdd Poly.zero (basemul Poly.zero a) = _
    rw [basemul_zero, polyAdd_zero_zero]
  | a :: b :: _ => by
    show polyAdd (polyAdd Poly.zero (basemul Poly.zero a)) (basemul Poly.zero b) = _
    rw [basemul_zero, basemul_zero, polyAdd_zero_zero, polyAdd_zero_zero]

/-- Three blocks of each stream are enough for the matrix of the all-zero rho, and for that of d = 32 zero bytes. -/
theorem genA_zeros : (genA .level1 3 (zeros 32) true).isSome = true := by
  unfold genA sampleUniform xofBlocks shake128
  simp only [NatKeccak.sponge_eq]
  decide +kernel

theorem genA_keygen : (genA .level1 3 (hashG (zeros 32)).1 false).isSome = true := by
  unfold genA sampleUniform xofBlocks shake128 hashG sha3_512
  simp only [NatKeccak.sponge_eq]
  decide +kernel

/-- The all-zero public key, its secret key, the coins of the zero message, and the noisy message polynomial. -/
def pk0 : List Byte := zeros 800
def sk0 : List Byte := zeros 768 ++ pk0 ++ hashH pk0 ++ zeros 32
def coins0 : List Byte := (hashG (zeros 32 ++ hashH pk0)).2
def v0 : Poly := polyAdd (polyAdd Poly.zero (sampleCbd coins0 (byteOf 4) 2)) (msgDecode (zeros 32))

theorem v0_decodes : msgEncode (polySub (cdec (cenc v0 4) 4) Poly.zero) = zeros 32 := by
  unfold v0 coins0 hashG sampleCbd prf shake256 sha3_512 hashH sha3_256
  simp only [NatKeccak.sponge_eq]
  decide +kernel

theorem slice_mid (a b c : List Byte) {n m : Nat} (ha : a.length = n) (hb : b.length = m) :
    slice (a ++ (b ++ c)) n m = b := by
  subst ha hb
  rw [slice, List.drop_left, List.take_left]

theorem key_parts {a p h z : List Byte} (ha : a.length = 768) (hp : p.length = 800) (hh : h.length = 32)
    (hz : z.length = 32) :
    (a ++ p ++ h ++ z).length = 1632 ∧ slice (a ++ p ++ h ++ z) 0 768 = a ∧ slice (a ++ p ++ h ++ z) 768 800 = p ∧
      slice (a ++ p ++ h ++ z) 1568 32 = h := by
  refine ⟨by simp only [List.length_append]; omega, ?_, ?_, ?_⟩
  · rw [List.append_assoc, List.append_assoc, ← List.nil_append (a ++ (p ++ (h ++ z)))]
    exact slice_mid [] _ _ rfl ha
  · rw [List.append_assoc, List.append_assoc]
    exact slice_mid _ _ _ ha hp
  · rw [List.append_assoc]
    exact slice_mid _ _ _ (by rw [List.length_append]; omega) hh

theorem sk0_parts : sk0.length = 1632 ∧ slice sk0 0 768 = zeros 768 ∧ slice sk0 768 800 = pk0 ∧
    slice sk0 1568 32 = hashH pk0 :=
  key_parts (length_zeros _) (length_zeros _) (length_hashH _) (length_zeros _)

/-- The encryption under a public key whose vector is 0. -/
theorem encrypt_zero_key {pk m coins : List Byte} {A : List (List Poly)}
    (hA : genA .level1 3 (slice pk (384 * Level.level1.k) 32) true = some A)
    (hd : decVector .level1 pk = [Poly.zero, Poly.zero]) :
    ∃ u : List Byte, u.length = 640 ∧ cpaEncrypt .level1 3 pk m coins =
      some (u ++ cenc (polyAdd (polyAdd Poly.zero (sampleCbd coins (byteOf 4) 2)) (msgDecode m)) 4) := by
  unfold cpaEncrypt
  simp only [hd, hA, dot_zeros, intt_zero]
  refine ⟨_, ?_, rfl⟩
  rw [length_flatMap_const (m := 320) (fun x => by simp [Level.du]), List.length_zipWith, length_noiseVector,
    (length_genA hA)]
  rfl

/-- Decryption under a secret key whose vector is 0. -/
theorem decrypt_zero_key {sk u : List Byte} {v : Poly} (hd : decVector .level1 sk = [Poly.zero, Poly.zero])
    (hu : u.length = 640) : cpaDecrypt .level1 sk (u ++ cenc v 4) = msgEncode (polySub (cdec (cenc v 4) 4) Poly.zero) := by
  have hs : slice (u ++ cenc v 4) 640 128 = cenc v 4 := by
    rw [slice, ← hu, List.drop_left, List.take_of_length_le (by simp)]
  unfold cpaDecrypt
  simp only [Level.k, Level.du, Level.dv]
  rw [show 32 * 10 * 2 = 640 from rfl, show 32 * 4 = 128 from rfl, hs, hd, dot_zeros, intt_zero]

/-- The encryption under the all-zero key: some ciphertext, that the zero secret key decrypts for every first byte. -/
theorem encrypt_zeros : ∃ x c, cpaEncrypt .level1 3 pk0 (zeros 32) coins0 = some (x :: c) ∧ (x :: c).length = 768 ∧
    ∀ y, cpaDecrypt .level1 (zeros 768) (y :: c) = zeros 32 := by
  obtain ⟨A, hA⟩ := Option.isSome_iff_exists.mp genA_zeros
  rw [← slice_zeros 800 (384 * Level.level1.k) 32 (by decide)] at hA
  obtain ⟨u, hu, hc⟩ := encrypt_zero_key (pk := pk0) (m := zeros 32) (coins := coins0) hA (decVector_zeros 800 (by decide))
  match u, hu with
  | x :: u, hu =>
    refine ⟨x, u ++ cenc v0 4, hc, ?_, fun y => ?_⟩
    · rw [← List.cons_append, List.length_append, hu, length_cenc]
    · rw [← List.cons_append, decrypt_zero_key (decVector_zeros 768 (Nat.le_refl _)) (u := y :: u) hu, v0_decodes]

/-- The coins and the parts of sk0, as the statements name them. -/
theorem sk0_coins : (hashG (zeros 32 ++ slice sk0 (768 * Level.level1.k + 32) 32)).2 = coins0 := by
  rw [show slice sk0 (768 * Level.level1.k + 32) 32 = hashH pk0 from sk0_parts.2.2.2, coins0]

theorem keygen_zeros : ∃ keys, kemKeygen .level1 3 (zeros 32) (zeros 32) = some keys := by
  obtain ⟨A, hA⟩ := Option.isSome_iff_exists.mp genA_keygen
  exact kemKeygen_of_genA hA _

theorem witness_KeyPair :
    (zeros 32).length = 32 ∧ ∃ pk sk, kemKeygen .level1 3 (zeros 32) (zeros 32) = some (pk, sk) := by
  obtain ⟨⟨pk, sk⟩, h⟩ := keygen_zeros
  exact ⟨length_zeros 32, pk, sk, h⟩

theorem witness_Ciphertext : ∃ c, cpaEncrypt .level1 3 pk0 (zeros 32) coins0 = some c := by
  obtain ⟨x, c, h, -⟩ := encrypt_zeros
  exact ⟨_, h⟩

/-- A matching ciphertext, and the same with its first byte changed. -/
theorem witness_ImplicitRejection : ∃ (c c' : List Byte) (m' : List Byte), sk0.length = 768 * Level.level1.k + 96 ∧
    (c.length = 32 * (Level.level1.k * Level.level1.du + Level.level1.dv) ∧
      m' = cpaDecrypt .level1 (slice sk0 0 (384 * Level.level1.k)) c ∧
      cpaEncrypt .level1 3 (slice sk0 (384 * Level.level1.k) (384 * Level.level1.k + 32)) m'
        (hashG (m' ++ slice sk0 (768 * Level.level1.k + 32) 32)).2 = some c) ∧
    (c'.length = 32 * (Level.level1.k * Level.level1.du + Level.level1.dv) ∧
      m' = cpaDecrypt .level1 (slice sk0 0 (384 * Level.level1.k)) c' ∧
      cpaEncrypt .level1 3 (slice sk0 (384 * Level.level1.k) (384 * Level.level1.k + 32)) m'
        (hashG (m' ++ slice sk0 (768 * Level.level1.k + 32) 32)).2 = some c ∧ c' ≠ c) := by
  obtain ⟨x, c, h, hl, hd⟩ := encrypt_zeros
  have h0 : slice sk0 0 (384 * Level.level1.k) = zeros 768 := sk0_parts.2.1
  have h1 : slice sk0 (384 * Level.level1.k) (384 * Level.level1.k + 32) = pk0 := sk0_parts.2.2.1
  refine ⟨x :: c, (x + 1) :: c, zeros 32, sk0_parts.1, ⟨hl, ?_, ?_⟩, hl, ?_, ?_, ?_⟩
  · rw [h0, hd]
  · rw [h1, sk0_coins, h]
  · rw [h0, hd]
  · rw [h1, sk0_coins, h]
  · intro e
    have : ∀ y : Byte, y + 1 ≠ y := by decide
    exact this x (List.cons.inj e).1

theorem encrypt_zeros_coins : ∃ c, cpaEncrypt .level1 3 pk0 (zeros 32) (hashG (zeros 32 ++ hashH pk0)).2 = some c ∧
    cpaDecrypt .level1 (zeros 768) c = zeros 32 := by
  obtain ⟨x, c, h, -, hd⟩ := encrypt_zeros
  rw [coins0] at h
  exact ⟨_, h, hd x⟩

theorem encaps_zeros : ∃ c K, kemEncaps .level1 3 pk0 (zeros 32) = some (c, K) ∧
    cpaDecrypt .level1 (zeros 768) c = zeros 32 := by
  obtain ⟨c, h, hd⟩ := encrypt_zeros_coins
  obtain ⟨K, hK⟩ := kemEncaps_of_encrypt h
  exact ⟨c, K, hK, hd⟩

theorem witness_KemRoundTrip : ∃ c K, sk0.length = 768 * Level.level1.k + 96 ∧
    slice sk0 (384 * Level.level1.k) (384 * Level.level1.k + 32) = pk0 ∧
    slice sk0 (768 * Level.level1.k + 32) 32 = hashH pk0 ∧ kemEncaps .level1 3 pk0 (zeros 32) = some (c, K) ∧
    cpaDecrypt .level1 (slice sk0 0 (384 * Level.level1.k)) c = zeros 32 := by
  obtain ⟨c, K, h, hd⟩ := encaps_zeros
  exact ⟨c, K, sk0_parts.1, sk0_parts.2.2.1, sk0_parts.2.2.2, h, by
    rw [show slice sk0 0 (384 * Level.level1.k) = zeros 768 from sk0_parts.2.1]; exact hd⟩

/-! #### The commands -/

/-- Every row of the opcode table has words with a reserved bit set, as the encoding clause of each command's statement
speaks of. -/
theorem witness_EncodedBy : ∀ row ∈ opcodeTable,
    let C : Command := row.2 &&& ~~~0xFF ||| row.1.setWidth 96
    (busyWith C).run = .busy ∧ wordOpcode (busyWith C).cur = row.1 ∧ (busyWith C).cur &&& (row.2 &&& ~~~0xFF) ≠ 0 := by
  simp [opcodeTable, wordOpcode, busyWith]

theorem witness_PaddAndPsub :
    ((loaded.poly 0).tag ≠ .empty ∧ (loaded.poly 1).tag ≠ .empty ∧ (loaded.poly 0).tag = (loaded.poly 1).tag) ∧
    (loaded.poly 15).tag = .empty ∧
    ((loaded.poly 0).tag ≠ .empty ∧ (loaded.poly 2).tag ≠ .empty ∧ (loaded.poly 0).tag ≠ (loaded.poly 2).tag) := by
  decide

theorem witness_PbmulAndPbmac :
    ((loaded.poly 2).tag = .ntt ∧ (loaded.poly 3).tag = .ntt) ∧ (loaded.poly 15).tag = .empty ∧
    ((loaded.poly 0).tag ≠ .empty ∧ (loaded.poly 2).tag ≠ .empty ∧ (loaded.poly 0).tag = .normal) := by decide

theorem witness_PzeroAndPmov : (0 : BitVec 4) = 0 ∧ (1 : BitVec 4) = 1 ∧ 2 ≤ (2 : BitVec 4).toNat ∧
    2 ≤ (15 : BitVec 4).toNat ∧ (loaded.poly 0).tag ≠ .empty ∧ (loaded.poly 15).tag = .empty := by decide

theorem witness_NttAndIntt :
    (loaded.poly 0).tag = .normal ∧ (loaded.poly 2).tag = .ntt ∧ (loaded.poly 15).tag = .empty := by decide

/-- 0x1FE0 + 32 is the end of M. -/
theorem witness_Scbd :
    ((2 : BitVec 4) = 2 ∧ (0x1FE0 : Half).toNat + 32 ≤ State.reset.memBytes) ∧
    ((4 : BitVec 4) ≠ 2 ∧ (4 : BitVec 4) ≠ 3) ∧ State.reset.memBytes < (0x1FE1 : Half).toNat + 32 := by decide

theorem memRead_reset (a n : Nat) : State.reset.memRead a n = zeros n := by
  show (List.range n).map (fun _ => (0 : Byte)) = _
  rw [List.map_const', List.length_range, zeros]

theorem samu_zeros : ∃ f, sampleUniform 3 (zeros 32) 0 0 = some f := by
  apply Option.isSome_iff_exists.mp
  unfold sampleUniform xofBlocks shake128
  simp only [NatKeccak.sponge_eq]
  decide +kernel

theorem witness_Samu :
    (∃ f, (0x1FE0 : Half).toNat + 32 ≤ State.reset.memBytes ∧
      parse (shake128 (State.reset.memRead (0x1FE0 : Half).toNat 32 ++ [0, 0]) (168 * State.reset.streamBlocks)) =
        some f) ∧
    State.reset.memBytes < (0x1FE1 : Half).toNat + 32 := by
  obtain ⟨f, hf⟩ := samu_zeros
  refine ⟨⟨f, by decide, ?_⟩, by decide⟩
  rw [memRead_reset]
  exact sampleUniform_mono (b' := 37) (by decide) hf

theorem witness_SamuCompletes : ∃ f, (busyWith 0x411).run = .busy ∧ (busyWith 0x411).sched = [] ∧
    decode (busyWith 0x411).cur = .ok (.samu 4 0 0 0) ∧ (0 : Half).toNat + 32 ≤ (busyWith 0x411).memBytes ∧
    sampleUniform 3 ((busyWith 0x411).memRead (0 : Half).toNat 32) 0 0 = some f := by
  obtain ⟨f, hf⟩ := samu_zeros
  refine ⟨f, rfl, rfl, by decide, by decide, ?_⟩
  rw [show (busyWith 0x411).memRead (0 : Half).toNat 32 = zeros 32 from memRead_reset 0 32]
  exact hf

/-- 0x1E80 + 384 is the end of M. -/
theorem witness_Enc12 : Memory.wf loaded.mem = true ∧
    ((0x1E80 : Half).toNat + 384 ≤ loaded.memBytes ∧ (loaded.poly 0).tag ≠ .empty) ∧
    loaded.memBytes < (0x1E81 : Half).toNat + 384 ∧ (loaded.poly 15).tag = .empty := by decide

theorem witness_Dec12 : ((1 : BitVec 4).toNat ≤ 1 ∧ (0x1E80 : Half).toNat + 384 ≤ State.reset.memBytes) ∧
    2 ≤ (2 : BitVec 4).toNat ∧ State.reset.memBytes < (0x1E81 : Half).toNat + 384 := by decide

/-- A register with the largest canonical coefficients. -/
theorem witness_Dec12_roundTrip :
    let s := State.reset.setPoly 4 .ntt (poly (List.replicate 256 3328))
    s.Inv ∧ (1 : BitVec 4).toNat ≤ 1 ∧ (s.poly 4).tag = (if (1 : BitVec 4) = 0 then Tag.normal else Tag.ntt) ∧
      (0x1E80 : Half).toNat + 384 ≤ s.memBytes := by
  have h0 : State.reset.Inv := quiet_inv rfl rfl rfl (by simp [State.StatusOk, State.reset])
    (fun b hb => by cases hb) rfl rfl
  have e := effect_setPoly (s := State.reset) (rd := 4) (tag := .ntt) (f := poly (List.replicate 256 3328)) (by simp)
    fun _ => poly_replicate_canonical (by decide)
  refine ⟨⟨e.canonical h0.canonical, e.emptyIsZero h0.emptyIsZero, e.memoryOk h0.memoryOk, ?_, h0.statusOk, h0.heldOk,
    rfl, fun _ => rfl⟩, by decide, by decide, by decide⟩
  exact h0.conforming

/-- 0x1EA0 + 32 * 11 is the end of M. -/
theorem witness_Cenc : Memory.wf loaded.mem = true ∧
    (1 ≤ (11 : BitVec 4).toNat ∧ (11 : BitVec 4).toNat ≤ 11 ∧
      (0x1EA0 : Half).toNat + 32 * (11 : BitVec 4).toNat ≤ loaded.memBytes ∧ (loaded.poly 0).tag = .normal) ∧
    (0 : BitVec 4).toNat = 0 ∧ 12 ≤ (12 : BitVec 4).toNat ∧
    loaded.memBytes < (0x1EA1 : Half).toNat + 32 * (11 : BitVec 4).toNat ∧ (loaded.poly 15).tag = .empty ∧
    (loaded.poly 2).tag = .ntt := by decide

theorem witness_Cdec : (1 ≤ (11 : BitVec 4).toNat ∧ (11 : BitVec 4).toNat ≤ 11 ∧
      (0x1EA0 : Half).toNat + 32 * (11 : BitVec 4).toNat ≤ State.reset.memBytes) ∧
    (0 : BitVec 4).toNat = 0 ∧ 12 ≤ (12 : BitVec 4).toNat ∧
    State.reset.memBytes < (0x1EA1 : Half).toNat + 32 * (11 : BitVec 4).toNat := by decide

/-- Input and output ranges that end at the end of M, and one byte past it. -/
theorem witness_Hash : Memory.wf State.reset.mem = true ∧
    ((0x2000 : Half).toNat + (0 : Half).toNat ≤ State.reset.memBytes ∧
      (0x1FE0 : Half).toNat + 32 ≤ State.reset.memBytes ∧ (0x1FC0 : Half).toNat + 64 ≤ State.reset.memBytes ∧
      (0x1FFF : Half).toNat + (1 : Half).toNat ≤ State.reset.memBytes) ∧
    4 ≤ (4 : BitVec 4).toNat ∧ ((1 : BitVec 4).toNat ≤ 1 ∧ (16 : Half) ≠ 0) ∧
    (State.reset.memBytes < (0x1FE1 : Half).toNat + 32 ∧ State.reset.memBytes < (0x1FC1 : Half).toNat + 64 ∧
      State.reset.memBytes < (0x2000 : Half).toNat + (1 : Half).toNat) := by decide

theorem witness_Keygen : Memory.wf State.reset.mem = true ∧
    (∃ pk sk, (0x1FC0 : Half).toNat + 64 ≤ State.reset.memBytes ∧
      (0x40 : Half).toNat + (384 * State.reset.level.k + 32) ≤ State.reset.memBytes ∧
      (0x19A0 : Half).toNat + (768 * State.reset.level.k + 96) ≤ State.reset.memBytes ∧
      kemKeygen State.reset.level State.reset.streamBlocks (State.reset.memRead (0x1FC0 : Half).toNat 32)
        (State.reset.memRead ((0x1FC0 : Half).toNat + 32) 32) = some (pk, sk)) ∧
    State.reset.memBytes < (0x1FC1 : Half).toNat + 64 := by
  obtain ⟨⟨pk, sk⟩, h⟩ := keygen_zeros
  refine ⟨rfl, ⟨pk, sk, by decide, by decide, by decide, ?_⟩, by decide⟩
  rw [memRead_reset, memRead_reset]
  exact kemKeygen_mono (b' := 37) (by decide) h

theorem witness_Encaps : Memory.wf State.reset.mem = true ∧
    (∃ pk m G ct, (0x40 : Half).toNat + (384 * State.reset.level.k + 32) ≤ State.reset.memBytes ∧
      (0 : Half).toNat + 32 ≤ State.reset.memBytes ∧
      (0x1CE0 : Half).toNat + (32 * (State.reset.level.k * State.reset.level.du + State.reset.level.dv) + 32) ≤
        State.reset.memBytes ∧
      pk = State.reset.memRead (0x40 : Half).toNat (384 * State.reset.level.k + 32) ∧
      m = State.reset.memRead (0 : Half).toNat 32 ∧ G = sponge 72 0x06 (m ++ sponge 136 0x06 pk 32) 64 ∧
      cpaEncrypt State.reset.level State.reset.streamBlocks pk m (G.drop 32) = some ct) ∧
    State.reset.memBytes <
      (0x1CE1 : Half).toNat + (32 * (State.reset.level.k * State.reset.level.du + State.reset.level.dv) + 32) := by
  obtain ⟨c, h, -⟩ := encrypt_zeros_coins
  refine ⟨rfl, ⟨pk0, zeros 32, _, c, by decide, by decide, by decide, ?_, (memRead_reset _ _).symm, rfl, ?_⟩,
    by decide⟩
  · rw [memRead_reset, show 384 * State.reset.level.k + 32 = 800 from rfl, pk0]
  simp only [hashG, sha3_512, hashH, sha3_256] at h
  exact cpaEncrypt_mono (b' := 37) (by decide) h

theorem witness_Decaps : Memory.wf State.reset.mem = true ∧
    (∃ K, (0x19A0 : Half).toNat + (768 * State.reset.level.k + 96) ≤ State.reset.memBytes ∧
      (0x1D00 : Half).toNat + 32 * (State.reset.level.k * State.reset.level.du + State.reset.level.dv) ≤
        State.reset.memBytes ∧
      (0x1FE0 : Half).toNat + 32 ≤ State.reset.memBytes ∧
      kemDecaps State.reset.level State.reset.streamBlocks
        (State.reset.memRead (0x19A0 : Half).toNat (768 * State.reset.level.k + 96))
        (State.reset.memRead (0x1D00 : Half).toNat
          (32 * (State.reset.level.k * State.reset.level.du + State.reset.level.dv))) = some K) ∧
    State.reset.memBytes < (0x19A1 : Half).toNat + (768 * State.reset.level.k + 96) ∧
    State.reset.memBytes <
      (0x1D01 : Half).toNat + 32 * (State.reset.level.k * State.reset.level.du + State.reset.level.dv) ∧
    State.reset.memBytes < (0x1FE1 : Half).toNat + 32 := by
  obtain ⟨A, hA⟩ := Option.isSome_iff_exists.mp genA_zeros
  have hs : slice (slice (zeros 1632) (384 * Level.level1.k) (384 * Level.level1.k + 32)) (384 * Level.level1.k) 32 =
      zeros 32 := by
    rw [slice_zeros _ _ _ (by decide), slice_zeros _ _ _ (by decide)]
  obtain ⟨K, h⟩ := kemDecaps_of_genA (lv := .level1) (sk := zeros 1632) (by rw [hs]; exact hA) (zeros 768)
  refine ⟨rfl, ⟨K, by decide, by decide, by decide, ?_⟩, by decide, by decide, by decide⟩
  rw [memRead_reset, memRead_reset]
  exact kemDecaps_mono (b' := 37) (by decide) h

end Sys2Proof.Tests
end

section
/-! The invariant of the block is kept by every step: by each host access, by reset and by everything a core step can give. -/

namespace Sys2Proof.Machine

/-- A write of an enabled byte inside M keeps M's form. -/
theorem writeLane_ok {m : Memory} {n a i : Nat} (hw : Memory.wf m = true) (hb : Memory.below n m = true)
    (hi : a + i < n) (be : BitVec 4) (w : Word) :
    Memory.wf (writeLane a be w m i) = true ∧ Memory.below n (writeLane a be w m i) = true := by
  unfold writeLane
  split
  · exact ⟨Memory.wf_set hw _ _, Memory.below_set hb hi _⟩
  · exact ⟨hw, hb⟩

theorem foldl_writeLane_ok {n a : Nat} (be : BitVec 4) (w : Word) (lanes : List Nat) (hl : ∀ i ∈ lanes, a + i < n) :
    ∀ m : Memory, Memory.wf m = true → Memory.below n m = true →
      Memory.wf (lanes.foldl (writeLane a be w) m) = true ∧ Memory.below n (lanes.foldl (writeLane a be w) m) = true := by
  induction lanes with
  | nil => exact fun _ hw hb => ⟨hw, hb⟩
  | cons i lanes ih =>
    intro m hw hb
    obtain ⟨hw', hb'⟩ := writeLane_ok hw hb (hl i (by simp)) be w
    exact ih (fun j hj => hl j (by simp [hj])) _ hw' hb'

/-- A buffer write keeps M's form (R72). -/
theorem bufWrite_inv {s : State} (h : s.Inv) (index : BitVec 14) (be : BitVec 4) (w : Word) :
    (bufWrite s index be w).Inv := by
  unfold bufWrite
  simp only
  split
  · next hin =>
    have hm := (memoryOk_iff s).mp h.memoryOk
    have hl : ∀ i ∈ [0, 1, 2, 3], 4 * index.toNat + i < s.memBytes := fun i hi => by
      have h4 : i = 0 ∨ i = 1 ∨ i = 2 ∨ i = 3 := by simpa using hi
      omega
    exact { h with memoryOk := (memoryOk_iff _).mpr (foldl_writeLane_ok be w _ hl s.mem hm.1 hm.2) }
  · exact h

/-- An issue starts a command with DONE, ERR and ERRCODE clear (R410). -/
theorem issue_inv {s : State} (h : s.Inv) (w : Word) : (issue s w).Inv :=
  { h with
    statusOk := ⟨by simp, fun _ => ⟨rfl, rfl⟩⟩
    triesZero := fun _ => rfl }

/-- A STATUS write clears DONE and NCAN only (R38). -/
theorem statusWrite_inv {s : State} (h : s.Inv) (w : Word) :
    ({ s with status := s.status.write w } : State).Inv :=
  { h with
    statusOk := ⟨h.statusOk.1, fun hb => by
      obtain ⟨hd, he⟩ := h.statusOk.2 hb
      exact ⟨by simp [hd], he⟩⟩ }

/-- A CSR write keeps the invariant, whatever the offset (R36-R42). -/
theorem csrWrite_inv {s : State} (h : s.Inv) (addr : Byte) (w : Word) : (csrWrite s addr w).Inv := by
  unfold csrWrite
  split
  · exact { h with }
  · exact statusWrite_inv h w
  · exact { h with }
  · exact { h with }
  · exact { h with }
  · exact issue_inv h w
  · exact h

/-- A host access keeps the invariant. -/
theorem perform_inv {s : State} (h : s.Inv) (a : HostAction) : (perform a s).Inv := by
  cases a with
  | csrRead addr => exact { h with }
  | csrWrite addr w => exact csrWrite_inv h addr w
  | bufRead index => exact { h with }
  | bufWrite index be w => exact bufWrite_inv h index be w

/-- An access that its port does not take is one that holds (R460). -/
theorem holds_of_not_ready {s : State} {a : HostAction} (h : s.ready a = false) : a.holds = true := by
  have hb : s.run = .busy ∧ a.holds = true := by simpa [ready_eq] using h
  exact hb.2

/-- Taking the host's next access in hand leaves nothing held. -/
theorem taken_inv {s : State} (h : s.Inv) (queue : List HostAction) :
    ({ s with held := none, hostQueue := queue } : State).Inv :=
  { h with heldOk := fun _ ha => nomatch ha }

/-- The host's step keeps the invariant. -/
theorem hostStep_inv {s : State} (h : s.Inv) : (hostStep s).Inv := by
  rcases hostStep_cases s with ⟨a, _, _, e⟩ | ⟨a, _, _, e⟩ | ⟨a, rest, hr, _, _, e⟩ | ⟨_, _, e⟩ <;> rw [e]
  · exact perform_inv (taken_inv h _) a
  · exact h
  · exact { h with
      heldOk := fun b hb => by
        cases hb
        exact holds_of_not_ready hr }
  · exact h

/-- A cut access is held no more, and MEM_BYTES stays (R453, log 1). -/
theorem cutAccess_held_memBytes (s : State) : (cutAccess s).held = none ∧ (cutAccess s).memBytes = s.memBytes := by
  unfold cutAccess
  split <;> exact ⟨rfl, rfl⟩

/-- The reset step leaves the invariant's reset values (R48, R451). -/
theorem resetStep_inv {s : State} (h : s.Inv) : (resetStep s).Inv := by
  obtain ⟨hheld, hbytes⟩ := cutAccess_held_memBytes s
  have hp : ∀ r, (resetStep s).poly r = PolyReg.reset := fun r => wipeData_poly (cutAccess s) r
  have hm : (resetStep s).memBytes = s.memBytes := hbytes
  exact {
    canonical := fun r => by rw [hp]; exact Poly.zero_canonical
    emptyIsZero := fun r _ => by rw [hp]; rfl
    memoryOk := ⟨rfl, fun c hc => absurd hc List.not_mem_nil⟩
    conforming := by rw [State.Conforming, hm]; exact h.conforming
    statusOk := ⟨by simp [resetStep], fun hb => nomatch hb⟩
    heldOk := fun a ha => absurd (hheld.symm.trans ha) (by simp)
    scratchZero := rfl
    triesZero := fun _ => rfl }

/-- A completion keeps the invariant: ERR shows the code and no stream is being read (R404). -/
theorem complete_inv {s : State} (h : s.Inv) (c : ErrCode) : (complete c s).Inv :=
  { h with
    statusOk := ⟨by simp, fun hb => nomatch hb⟩
    triesZero := fun _ => rfl }

/-- The effect of a command keeps the invariant. -/
theorem Effect.inv {s s' : State} (e : Effect s s') (h : s.Inv) : s'.Inv where
  canonical := e.canonical h.canonical
  emptyIsZero := e.emptyIsZero h.emptyIsZero
  memoryOk := e.memoryOk h.memoryOk
  conforming := by rw [State.Conforming, e.control.memBytes]; exact h.conforming
  statusOk := by
    rw [State.StatusOk, e.err, e.errcode, e.done, e.run]
    exact h.statusOk
  heldOk := by rw [State.HeldOk, e.control.held]; exact h.heldOk
  scratchZero := e.scratch.elim (·.trans h.scratchZero) id
  triesZero := by rw [e.run, e.streamTries]; exact h.triesZero

/-- Whatever a running command's core step gives keeps the invariant. -/
theorem Outcomes.inv {s : State} {o : Host.Outcome State Fault Refusal} (ho : Outcomes s o) (hb : s.run = .busy)
    (h : s.Inv) : ∃ t, o = .next t ∧ t.Inv := by
  cases ho with
  | failed e _ => exact ⟨_, rfl, complete_inv h e⟩
  | completed s' he => exact ⟨_, rfl, complete_inv (he.inv h) .ok⟩
  | sampling => exact ⟨_, rfl, { h with triesZero := fun hi => absurd (hb.symm.trans hi) (by simp) }⟩

/-- The core's step keeps the invariant. -/
theorem coreStep_inv {s : State} (h : s.Inv) : ∃ t, coreStep s = .next t ∧ t.Inv := by
  cases hr : s.run with
  | idle => exact ⟨s, coreStep_idle hr, h⟩
  | busy => exact (coreStep_outcomes hr).inv hr h

/-- Using up a schedule entry keeps the invariant, which does not speak of the schedule. -/
theorem sched_inv {s : State} (h : s.Inv) (l : List Agent) : ({ s with sched := l } : State).Inv := { h with }

/-- Settles O16: reset, the host's step and the core's step each keep the invariant. -/
theorem invariantKept : Obligations.InvariantKept := by
  intro s h
  have h' := sched_inv h s.sched.tail
  cases ha : s.agent with
  | reset => exact ⟨_, step_reset ha, resetStep_inv h'⟩
  | host => exact ⟨_, step_host ha, hostStep_inv h'⟩
  | core =>
    rw [step_core ha]
    exact coreStep_inv h'

end Sys2Proof.Machine
end

section
/-! The level parameters are the numbers of R8 and R9, and the constant tables are those of their generators (R182, R282, R285). -/

namespace Sys2Proof.Machine

open Sys2Proof.Statement

/-- The parameters of the three levels are those of R8, and the sizes those of R9. -/
theorem level_parameters (lv : Level) :
    (lv.code, lv.k, lv.eta1, lv.eta2, lv.du, lv.dv) =
      (match lv with
        | .level1 => (0, 2, 3, 2, 10, 4)
        | .level3 => (1, 3, 2, 2, 10, 4)
        | .level5 => (2, 4, 2, 2, 11, 5)) ∧
    (lv.pkBytes, lv.skBytes, lv.ctBytes) =
      (match lv with
        | .level1 => (800, 1632, 768)
        | .level3 => (1184, 2400, 1088)
        | .level5 => (1568, 3168, 1568)) ∧
    lv.pkBytes = 384 * lv.k + 32 ∧ lv.skBytes = 768 * lv.k + 96 ∧ lv.ctBytes = 32 * (lv.k * lv.du + lv.dv) := by
  cases lv <;> decide

/-- The printed transform tables are the powers of 17 of their formulas (R182). -/
theorem transformTables_eq_powers : ∀ i < 128,
    (zetaTable.getD i 0).toNat = zeta i ∧ (gammaTable.getD i 0).toNat = gamma i := by decide +kernel

/-- The entries of GAMMA come in pairs of opposite residues (R182). -/
theorem gammaTable_pairs : ∀ j < 64,
    (gammaTable.getD (2 * j + 1) 0).toNat = 3329 - (gammaTable.getD (2 * j) 0).toNat := by decide +kernel

/-- A power of a number mod n is 1 exactly when the power of its residue is. -/
theorem pow_mod_eq_one_iff {n : Nat} (hn : 1 < n) (a e : Nat) : a ^ e % n = 1 ↔ (a : ZMod n) ^ e = 1 := by
  rw [← Nat.mod_eq_of_lt hn, ← Nat.ModEq, ← ZMod.natCast_eq_natCast_iff]
  simp

/-- 3 is a primitive root: 3328 = 2^8·13, and neither 3^1664 nor 3^256 is 1 mod q. -/
theorem orderOf_three : orderOf (3 : ZMod 3329) = 3328 := by
  have hpow := fun e => pow_mod_eq_one_iff (n := 3329) (by decide) 3 e
  refine orderOf_eq_of_pow_and_pow_div_prime (by decide) ((hpow _).mp (by decide +kernel)) fun p hp hdvd => ?_
  have h13 : p ∣ 2 ^ 8 * 13 := hdvd
  rcases (Nat.Prime.dvd_mul hp).mp h13 with h | h
  · rw [(Nat.prime_dvd_prime_iff_eq hp Nat.prime_two).mp (hp.dvd_of_dvd_pow h)]
    exact fun e => absurd ((hpow _).mpr e) (by decide +kernel)
  · rw [(Nat.prime_dvd_prime_iff_eq hp (by norm_num)).mp h]
    exact fun e => absurd ((hpow _).mpr e) (by decide +kernel)

/-- No smaller power of 3 is 1 mod q (R182). -/
theorem three_pow_mod_ne_one {e : Nat} (h0 : 0 < e) (h : e < 3328) : 3 ^ e % 3329 ≠ 1 := fun h1 =>
  pow_ne_one_of_lt_orderOf h0.ne' (orderOf_three ▸ h) ((pow_mod_eq_one_iff (by decide) 3 e).mp h1)

/-- The rotation offsets along the walk of the generator (R282). -/
theorem rotationOffsets_eq_walk : ∀ t < 24,
    rotationOffsets[(rhoWalk t).2][(rhoWalk t).1] = (t + 1) * (t + 2) / 2 % 64 := by decide +kernel

/-- The walk visits every lane but (0, 0) (R282). -/
theorem rhoWalk_visits_all (x y : Fin 5) : (x, y) = (0, 0) ∨ ∃ t < 24, rhoWalk t = (x, y) := by
  revert x y
  decide +kernel

/-- The printed round constants are those of the LFSR (R285). -/
theorem roundConstants_eq_lfsr : roundConstants = (List.range 24).map roundConstant := by decide +kernel

/-- Settles O25: the level parameters, the transform tables, the primitive root and the Keccak tables, each by its own
lemma. -/
theorem constantTables : Obligations.ConstantTables :=
  ⟨⟨rfl, rfl, level_parameters⟩,
    ⟨length_zetaTable, length_gammaTable, transformTables_eq_powers⟩,
    ⟨by decide, by decide, by decide, by decide, by decide +kernel, fun _ h0 h => three_pow_mod_ne_one h0 h,
      rfl, by decide, gammaTable_pairs⟩,
    ⟨rfl, rotationOffsets_eq_walk, rhoWalk_visits_all⟩,
    roundConstants_eq_lfsr⟩

end Sys2Proof.Machine
end

section
/-! A key pair, part by part and group by group: the layout of R324 and R325, and what R321 packs into pk and sk. -/

namespace Sys2Proof.Machine

open Sys2Proof.Statement

/-- Cutting a middle part out of a string. -/
theorem part_append_middle (a b c : List Byte) {n m : Nat} (ha : a.length = n) (hb : b.length = m) :
    part (a ++ (b ++ c)) n m = b := by
  rw [part, List.drop_left' ha, List.take_left' hb]

/-- Cutting the last part out of a string. -/
theorem part_append_last (a b : List Byte) {n m : Nat} (ha : a.length = n) (hb : b.length = m) :
    part (a ++ b) n m = b := by
  rw [part, List.drop_left' ha, List.take_of_length_le hb.le]

/-- Group 256·i + j of a string that begins with packed polynomials is coefficient j of polynomial i (R242). -/
theorem group_flatMap_enc12 (l : List Poly) (rest : List Byte) {i j : Nat} (hi : i < l.length) (hj : j < 256) :
    group (l.flatMap enc12 ++ rest) 12 (256 * i + j) = ((l.getD i Poly.zero).get j).toNat := by
  calc group (l.flatMap enc12 ++ rest) 12 (256 * i + j)
      = (byteDecode (slice (l.flatMap enc12 ++ rest) (384 * i) 384) 12).getD j 0 :=
        (getD_byteDecode_slice _ 12 i hj).symm
    _ = (byteDecode (enc12 l[i]) 12).getD j 0 := by rw [slice_flatMap length_enc12 l rest hi]
    _ = ((l.getD i Poly.zero).get j).toNat := by
        rw [getD_byteDecode _ _ hj, group_enc12 _ hj, List.getD_eq_getElem _ _ hi]

/-- Entry `i` of the transform of a noise vector (R321). -/
theorem getD_map_ntt_noiseVector {lv : Level} {seed : List Byte} {first eta i : Nat} (hi : i < lv.k) :
    ((noiseVector lv seed first eta).map ntt).getD i Poly.zero =
      ntt (sampleCbd seed (BitVec.ofNat 8 (first + i)) eta) := by
  have hl : i < (noiseVector lv seed first eta).length := by simpa using hi
  rw [← byteOf, ← getD_noiseVector hi, List.getD_eq_getElem _ _ (by simpa using hi), List.getElem_map, List.getD_eq_getElem _ _ hl]

/-- `dot` gives the sum of base products of R321 to R323. -/
theorem sumOfProducts_dot {k : Nat} {a b : List Poly} (ha : a.length = k) (hb : b.length = k) :
    SumOfProducts k (a.getD · Poly.zero) (b.getD · Poly.zero) (dot a b) := fun _ hj => get_dot ha hb hj

/-- What the KEM's key generation gives: the CPA keys and sk's further parts in their order (R325). -/
theorem kemKeygen_eq_some {lv : Level} {blocks : Nat} {d z pk sk : List Byte}
    (h : kemKeygen lv blocks d z = some (pk, sk)) :
    ∃ skCpa, cpaKeygen lv blocks d = some (pk, skCpa) ∧ sk = skCpa ++ pk ++ hashH pk ++ z := by
  unfold kemKeygen at h
  cases hc : cpaKeygen lv blocks d with
  | none => rw [hc] at h; exact absurd h (by simp)
  | some keys =>
    rw [hc] at h
    simp only [Option.some.injEq, Prod.mk.injEq] at h
    obtain ⟨rfl, rfl⟩ := h
    exact ⟨_, rfl, rfl⟩

/-- The layout of sk: pk, H(pk) and z behind the CPA key (R324, R325). -/
theorem secretKey_parts {lv : Level} {skCpa pk z : List Byte} (hs : skCpa.length = 384 * lv.k)
    (hp : pk.length = lv.pkBytes) (hz : z.length = 32) :
    part (skCpa ++ pk ++ hashH pk ++ z) (384 * lv.k) (384 * lv.k + 32) = pk ∧
    part (skCpa ++ pk ++ hashH pk ++ z) (768 * lv.k + 32) 32 = hashH pk ∧
    part (skCpa ++ pk ++ hashH pk ++ z) (768 * lv.k + 64) 32 = z := by
  rw [Level.pkBytes] at hp
  refine ⟨?_, ?_, ?_⟩
  · rw [List.append_assoc, List.append_assoc]
    exact part_append_middle _ _ _ hs hp
  · rw [List.append_assoc]
    exact part_append_middle _ _ _ (by rw [List.length_append]; omega) (length_hashH pk)
  · exact part_append_last _ _ (by simp only [List.length_append, length_hashH]; omega) hz

/-- pk ends in rho (R321, R324). -/
theorem part_publicKey_rho {lv : Level} {blocks : Nat} {d pk skCpa : List Byte}
    (h : cpaKeygen lv blocks d = some (pk, skCpa)) : part pk (384 * lv.k) 32 = (hashG d).1 := by
  obtain ⟨A, S, E, hA, -, hE, rfl, -⟩ := cpaKeygen_eq_some h
  refine part_append_last _ _ ?_ (length_hashG_fst d)
  rw [length_flatMap_const length_enc12, List.length_zipWith, length_genA hA, hE]
  simp

/-- What the CPA keys pack, group by group: s, and t = A∘s + e (R320, R321). `rest` is what stands behind sk_cpa. -/
theorem cpaKeygen_groups {lv : Level} {blocks : Nat} {d pk skCpa : List Byte}
    (h : cpaKeygen lv blocks d = some (pk, skCpa)) (rest : List Byte) :
    ∃ (A : Nat → Nat → Poly) (s e : Nat → Poly),
      (∀ i < lv.k, ∀ j < lv.k, sampleUniform blocks (hashG d).1 (BitVec.ofNat 8 j) (BitVec.ofNat 8 i) = some (A i j)) ∧
      (∀ i < lv.k, s i = ntt (sampleCbd (hashG d).2 (BitVec.ofNat 8 i) lv.eta1) ∧
        e i = ntt (sampleCbd (hashG d).2 (BitVec.ofNat 8 (lv.k + i)) lv.eta1)) ∧
      ∀ i < lv.k, ∃ g, SumOfProducts lv.k (A i) s g ∧ ∀ j < 256,
        group (skCpa ++ rest) 12 (256 * i + j) = ((s i).get j).toNat ∧
        group pk 12 (256 * i + j) = ((g.get j).toNat + ((e i).get j).toNat) % 3329 := by
  obtain ⟨A, S, E, hA, hS, hE, rfl, rfl⟩ := cpaKeygen_eq_some h
  have hAl : A.length = lv.k := length_genA hA
  have hSl : S.length = lv.k := by simp [hS]
  have hEl : E.length = lv.k := by simp [hE]
  refine ⟨fun i j => (A.getD i []).getD j Poly.zero, (S.getD · Poly.zero), (E.getD · Poly.zero),
    fun i hi j hj => (getD_genA hA hi hj).1, fun i hi => ⟨?_, ?_⟩, fun i hi => ?_⟩
  · simpa only [hS, Nat.zero_add] using getD_map_ntt_noiseVector (first := 0) hi
  · simpa only [hE] using getD_map_ntt_noiseVector hi
  · have hrow : (A.getD i []).length = lv.k := (getD_genA hA hi hi).2
    refine ⟨_, sumOfProducts_dot hrow hSl, fun j hj => ⟨group_flatMap_enc12 S rest (by omega) hj, ?_⟩⟩
    rw [group_flatMap_enc12 _ _ (by rw [List.length_zipWith]; omega) hj,
      getD_zipWith _ _ _ [] Poly.zero _ (by omega) (by omega)]
    exact get_polyAdd _ _ hj

/-- Settles O39: the sizes and the layout of the keys, then what they pack. -/
theorem keyPair : Obligations.KeyPair := by
  intro lv blocks d z pk sk hz h
  obtain ⟨hpl, hsl⟩ := kemKeygen_lengths hz h
  obtain ⟨skCpa, hc, rfl⟩ := kemKeygen_eq_some h
  obtain ⟨-, hcl⟩ := cpaKeygen_lengths hc
  obtain ⟨hpk, hH, hz'⟩ := secretKey_parts hcl hpl hz
  refine ⟨hpl, hsl, part_publicKey_rho hc, hpk, hH, hz', ?_⟩
  rw [List.append_assoc, List.append_assoc]
  exact cpaKeygen_groups hc _

end Sys2Proof.Machine
end

section
/-! What a command reads: two states with the same inputs give the same checks, the same effect and the same end
(R335, R465). -/

namespace Sys2Proof.Machine

/-- Everything the meanings read of a state is the same in two states with the same inputs. -/
theorem SameInputs.reads {s s' : State} (h : SameInputs s s') :
    (∀ r, s'.poly r = s.poly r) ∧ (∀ a n, s'.memRead a n = s.memRead a n) ∧ s'.level = s.level ∧
    s'.streamBlocks = s.streamBlocks ∧ (∀ a n, checkRange s' a n = checkRange s a n) ∧
    (∀ r, checkSrc s' r = checkSrc s r) ∧ (∀ r t, checkTag s' r t = checkTag s r t) ∧
    ∀ r1 r2, checkSameTag s' r1 r2 = checkSameTag s r1 r2 := by
  have hp : ∀ r, s'.poly r = s.poly r := fun r => by simp only [State.poly, h.polys]
  refine ⟨hp, fun a n => ?_, h.level.symm, ?_, fun a n => ?_, fun r => ?_, fun r t => ?_, fun r1 r2 => ?_⟩
  · simp only [State.memRead, h.mem]
  · simp only [State.streamBlocks, h.streamTries]
  · simp only [checkRange, h.memBytes]
  · simp only [checkSrc, hp]
  · simp only [checkTag, hp]
  · simp only [checkSameTag, hp]

/-- `t` and `t'` are what one effect makes of `s` and `s'`: the same data, with the control state left alone. -/
structure SameEffect (s s' t t' : State) : Prop where
  control : SameControl s t
  control' : SameControl s' t'
  polys : t.polys = t'.polys
  mem : t.mem = t'.mem
  scratch : t.scratch = t'.scratch
  ncan : s.status.ncan = s'.status.ncan → t.status.ncan = t'.status.ncan

theorem SameInputs.sameEffect {s s' : State} (h : SameInputs s s') : SameEffect s s' s s' :=
  ⟨.refl s, .refl s', h.polys, h.mem, h.scratch, id⟩

namespace SameEffect

variable {s s' t t' : State}

theorem setPoly (h : SameEffect s s' t t') (rd : Reg) (tag : Tag) (f : Poly) :
    SameEffect s s' (t.setPoly rd tag f) (t'.setPoly rd tag f) :=
  { h with
    control := h.control.trans (sameControl_setPoly _ _ _ _)
    control' := h.control'.trans (sameControl_setPoly _ _ _ _)
    polys := by simp only [setPoly_polys, h.polys] }

theorem memWrite (h : SameEffect s s' t t') (a : Nat) (v : List Byte) :
    SameEffect s s' (t.memWrite a v) (t'.memWrite a v) :=
  { h with
    control := h.control.trans (sameControl_memWrite _ _ _)
    control' := h.control'.trans (sameControl_memWrite _ _ _)
    mem := by simp only [memWrite_mem, h.mem] }

theorem noteNcan (h : SameEffect s s' t t') (b : Bool) : SameEffect s s' (t.noteNcan b) (t'.noteNcan b) :=
  { h with
    control := h.control.trans (effect_noteNcan t b).control
    control' := h.control'.trans (effect_noteNcan t' b).control
    ncan := fun hn => by simp [h.ncan hn] }

theorem wipeScratch (h : SameEffect s s' t t') : SameEffect s s' t.wipeScratch t'.wipeScratch :=
  { h with
    control := h.control.trans (effect_wipeScratch t).control
    control' := h.control'.trans (effect_wipeScratch t').control
    scratch := rfl }

theorem wipeData (h : SameEffect s s' t t') : SameEffect s s' t.wipeData t'.wipeData :=
  { h with
    control := h.control.trans (effect_wipeData t).control
    control' := h.control'.trans (effect_wipeData t').control
    polys := rfl
    mem := rfl
    scratch := rfl }

end SameEffect

/-- Two core steps, from `s` and from `s'`, end alike: the same data and the same end. -/
def EndAlike (s s' : State) (o o' : Host.Outcome State Fault Refusal) : Prop :=
  ∃ t t', o = .next t ∧ o' = .next t' ∧ t.polys = t'.polys ∧ t.mem = t'.mem ∧ t.scratch = t'.scratch ∧
    (s.status.ncan = s'.status.ncan → t.status.ncan = t'.status.ncan) ∧
    (KeptSampling s t ∧ KeptSampling s' t' ∨ ∃ c, CompletedWith c s t ∧ CompletedWith c s' t')

/-- Completing the same effect with the same code. -/
theorem endAlike_complete {s s' t t' : State} (c : ErrCode) (h : SameEffect s s' t t') :
    EndAlike s s' (.next (complete c t)) (.next (complete c t')) :=
  ⟨_, _, rfl, rfl, h.polys, h.mem, h.scratch, h.ncan,
    .inr ⟨c, completedWith_complete c h.control, completedWith_complete c h.control'⟩⟩

/-- Reading further in the same stream. -/
theorem endAlike_keepSampling {s s' : State} (h : SameInputs s s') :
    EndAlike s s' (.next (keepSampling s)) (.next (keepSampling s')) :=
  ⟨_, _, rfl, rfl, h.polys, h.mem, h.scratch, id, .inl ⟨rfl, rfl⟩⟩

/-- A command with the same checks and the same effect ends alike. -/
theorem endAlike_command {s s' t t' : State} (checks : List (Option ErrCode)) (h : SameInputs s s')
    (ht : SameEffect s s' t t') : EndAlike s s' (command s checks t) (command s' checks t') := by
  cases hc : firstError checks with
  | some e =>
    rw [command_fail t hc, command_fail t' hc]
    exact endAlike_complete e h.sameEffect
  | none =>
    rw [command_pass t hc, command_pass t' hc]
    exact endAlike_complete .ok ht

/-- The same of a command that waits for the value `x` from the sampler. -/
theorem endAlike_samplingCommand {α : Type} {s s' : State} {f f' : α → State} (checks : List (Option ErrCode))
    (h : SameInputs s s') (x : Option α) (hf : ∀ a, SameEffect s s' (f a) (f' a)) :
    EndAlike s s' (samplingCommand s checks (x.map f)) (samplingCommand s' checks (x.map f')) := by
  cases hc : firstError checks with
  | some e =>
    rw [samplingCommand_fail _ hc, samplingCommand_fail _ hc]
    exact endAlike_complete e h.sameEffect
  | none =>
    rw [samplingCommand_pass _ hc, samplingCommand_pass _ hc]
    cases x with
    | none => exact endAlike_keepSampling h
    | some a => exact endAlike_complete .ok (hf a)

/-- Settles O10: each command makes the same checks and has the same effect on the same inputs. -/
theorem commandReadsOnlyItsInputs : Obligations.CommandReadsOnlyItsInputs := by
  intro i s s' h
  have e := h.sameEffect
  show EndAlike s s' (exec i s) (exec i s')
  cases i with
  | nop => exact endAlike_command [] h e
  | padd rd rs1 rs2 =>
    simp only [exec, execPadd, h.reads]
    exact endAlike_command _ h (e.setPoly _ _ _)
  | psub rd rs1 rs2 =>
    simp only [exec, execPsub, h.reads]
    exact endAlike_command _ h (e.setPoly _ _ _)
  | pbmul rd rs1 rs2 =>
    simp only [exec, execPbmul, h.reads]
    exact endAlike_command _ h (e.setPoly _ _ _)
  | pbmac rd rs1 rs2 =>
    simp only [exec, execPbmac, h.reads]
    exact endAlike_command _ h (e.setPoly _ _ _)
  | pzero rd d => exact endAlike_command _ h (e.setPoly _ _ _)
  | pmov rd rs1 =>
    simp only [exec, execPmov, h.reads]
    exact endAlike_command _ h (e.setPoly _ _ _)
  | ntt rd rs1 =>
    simp only [exec, execNtt, h.reads]
    exact endAlike_command _ h (e.setPoly _ _ _)
  | intt rd rs1 =>
    simp only [exec, execIntt, h.reads]
    exact endAlike_command _ h (e.setPoly _ _ _)
  | scbd rd d imm8 a =>
    simp only [exec, execScbd, h.reads]
    exact endAlike_command _ h (e.setPoly _ _ _)
  | samu rd imm8 y a =>
    simp only [exec, execSamu, h.reads]
    exact endAlike_samplingCommand _ h _ fun f => e.setPoly _ _ f
  | enc12 rs1 a =>
    simp only [exec, execEnc12, h.reads]
    exact endAlike_command _ h (e.memWrite _ _)
  | dec12 rd d a =>
    simp only [exec, execDec12, h.reads]
    exact endAlike_command _ h ((e.setPoly _ _ _).noteNcan _)
  | cenc rs1 d a =>
    simp only [exec, execCenc, h.reads]
    exact endAlike_command _ h (e.memWrite _ _)
  | cdec rd d a =>
    simp only [exec, execCdec, h.reads]
    exact endAlike_command _ h (e.setPoly _ _ _)
  | hash d a b len outlen =>
    simp only [exec, execHash, h.reads]
    exact endAlike_command _ h (e.memWrite _ _)
  | keygen a b c =>
    simp only [exec, execKeygen, h.reads]
    exact endAlike_samplingCommand _ h _ fun keys => ((e.memWrite _ keys.1).memWrite _ keys.2).wipeScratch
  | encaps a b c =>
    simp only [exec, execEncaps, h.reads]
    exact endAlike_samplingCommand _ h _ fun out =>
      (((e.memWrite _ out.1).memWrite _ out.2).noteNcan _).wipeScratch
  | decaps a b c =>
    simp only [exec, execDecaps, h.reads]
    exact endAlike_samplingCommand _ h _ fun k => ((e.memWrite _ k).noteNcan _).wipeScratch
  | zeroize => exact endAlike_command [] h e.wipeData

end Sys2Proof.Machine
end

section
/-! Everything a step can be, and what follows for BUSY, irq and the CSR port (spec/10_state.md R36-R44;
spec/20_memory.md R71). -/

namespace Sys2Proof.Machine

open Sys2Proof.Statement

/-! ### One step -/

/-- `s` with the access that the host performs in this step taken from its hand or its queue. -/
def State.taken (s : State) : State :=
  { s with
    held := none
    sched := s.sched.tail
    hostQueue := if s.held.isSome then s.hostQueue else s.hostQueue.tail }

@[simp] theorem taken_level (s : State) : s.taken.level = s.level := rfl
@[simp] theorem taken_status (s : State) : s.taken.status = s.status := rfl
@[simp] theorem taken_doneIe (s : State) : s.taken.doneIe = s.doneIe := rfl
@[simp] theorem taken_cmd0 (s : State) : s.taken.cmd0 = s.cmd0 := rfl
@[simp] theorem taken_cmd1 (s : State) : s.taken.cmd1 = s.cmd1 := rfl
@[simp] theorem taken_run (s : State) : s.taken.run = s.run := rfl
@[simp] theorem taken_irq (s : State) : s.taken.irq = s.irq := rfl
@[simp] theorem taken_csrWord (s : State) (addr : Byte) : s.taken.csrWord addr = s.csrWord addr := rfl

/-- The step of a performed access. -/
theorem step_performs {s : State} {a : HostAction} (h : Performs s a) : step s = .next (perform a s.taken) := by
  obtain ⟨hagent, hready, hh | ⟨hh, hq⟩⟩ := h
  · rw [step_host hagent, hostStep_held (s := { s with sched := s.sched.tail }) hh hready]
    simp [State.taken, hh]
  · have hq' := List.eq_cons_of_mem_head? hq
    rw [step_host hagent, hostStep_next (s := { s with sched := s.sched.tail }) hh hq' hready]
    simp [State.taken, hh]

/-- Everything a step can be: the reset step, a performed access, a host step that performs none and moves only the
host's own fields, a core step while IDLE, or a core step of the running command (R465-R467). -/
inductive StepTo (s : State) : State → Prop where
  | reset (h : s.agent = .reset) : StepTo s (resetStep { s with sched := s.sched.tail })
  | performed (a : HostAction) (h : Performs s a) : StepTo s (perform a s.taken)
  | waited (h : s.agent = .host) (held : Option HostAction) (queue : List HostAction) :
      StepTo s { s with held := held, hostQueue := queue, sched := s.sched.tail }
  | idled (h : s.agent = .core) (hi : s.run = .idle) : StepTo s { s with sched := s.sched.tail }
  | executed {t : State} (h : s.agent = .core) (hb : s.run = .busy)
      (ht : Outcomes { s with sched := s.sched.tail } (.next t)) : StepTo s t

theorem stepTo_of_step {s t : State} (h : step s = .next t) : StepTo s t := by
  cases ha : s.agent with
  | reset =>
    rw [step_reset ha] at h
    cases h
    exact .reset ha
  | host =>
    rcases hostStep_cases { s with sched := s.sched.tail } with
      ⟨a, hr, hh, -⟩ | ⟨a, -, -, e⟩ | ⟨a, rest, -, -, -, e⟩ | ⟨-, -, e⟩
    · rw [step_performs ⟨ha, hr, hh⟩] at h
      cases h
      exact .performed a ⟨ha, hr, hh⟩
    all_goals
      rw [step_host ha, e] at h
      cases h
      exact .waited ha _ _
  | core =>
    rw [step_core ha] at h
    cases hr : s.run with
    | idle =>
      rw [coreStep_idle (s := { s with sched := s.sched.tail }) hr] at h
      cases h
      exact .idled ha hr
    | busy => exact .executed ha hr (h ▸ coreStep_outcomes hr)

/-- A core step completes the command, which sets DONE and leaves DONE_IE alone, or it reads further. -/
theorem Outcomes.completed_or_sampling {s t : State} (h : Outcomes s (.next t)) :
    t.run = .idle ∧ t.status.done = true ∧ t.doneIe = s.doneIe ∨ t = keepSampling s := by
  cases h with
  | failed e _ => exact .inl ⟨rfl, rfl, rfl⟩
  | completed s' he => exact .inl ⟨rfl, rfl, he.control.doneIe⟩
  | sampling => exact .inr rfl

/-! ### CSR writes, field by field -/

theorem csrWrite_level (s : State) (addr : Byte) (w : Word) :
    (csrWrite s addr w).level = if csrIndex addr = 2 then s.level.write w else s.level := by
  unfold csrWrite; split <;> simp_all

theorem csrWrite_status (s : State) (addr : Byte) (w : Word) :
    (csrWrite s addr w).status =
      if csrIndex addr = 3 then s.status.write w else if csrIndex addr = 10 then s.status.issued else s.status := by
  unfold csrWrite; split <;> simp_all

theorem csrWrite_doneIe (s : State) (addr : Byte) (w : Word) :
    (csrWrite s addr w).doneIe = if csrIndex addr = 4 then w.getLsbD 0 else s.doneIe := by
  unfold csrWrite; split <;> simp_all

theorem csrWrite_cmd0 (s : State) (addr : Byte) (w : Word) :
    (csrWrite s addr w).cmd0 = if csrIndex addr = 8 then w else s.cmd0 := by
  unfold csrWrite; split <;> simp_all

theorem csrWrite_cmd1 (s : State) (addr : Byte) (w : Word) :
    (csrWrite s addr w).cmd1 = if csrIndex addr = 9 then w else s.cmd1 := by
  unfold csrWrite; split <;> simp_all

theorem csrWrite_run (s : State) (addr : Byte) (w : Word) :
    (csrWrite s addr w).run = if csrIndex addr = 10 then .busy else s.run := by
  unfold csrWrite; split <;> simp_all

/-- A write to any offset but CMD2's changes these five fields at most. -/
theorem csrWrite_frame {addr : Byte} (h : csrIndex addr ≠ 10) (s : State) (w : Word) :
    csrWrite s addr w =
      { s with
        level := (csrWrite s addr w).level
        status := (csrWrite s addr w).status
        doneIe := (csrWrite s addr w).doneIe
        cmd0 := (csrWrite s addr w).cmd0
        cmd1 := (csrWrite s addr w).cmd1 } := by
  unfold csrWrite; split <;> simp_all

/-! ### BUSY -/

/-- Performing an access that is no CSR write moves neither the run state nor irq. -/
theorem perform_run_irq (a : HostAction) (s : State) :
    (perform a s).run = s.run ∧ (perform a s).irq = s.irq ∨ ∃ addr w, a = .csrWrite addr w := by
  cases a with
  | csrRead addr => exact .inl ⟨rfl, rfl⟩
  | csrWrite addr w => exact .inr ⟨addr, w, rfl⟩
  | bufRead index => exact .inl ⟨rfl, rfl⟩
  | bufWrite index be w =>
    left
    simp only [perform, bufWrite]
    split <;> exact ⟨rfl, rfl⟩

/-- Performing an access leaves the run state alone, unless it is a write to CMD2, which issues a command (R410). -/
theorem perform_run (a : HostAction) (s : State) :
    (perform a s).run = s.run ∨ (perform a s).run = .busy ∧ ∃ addr w, csrIndex addr = 10 ∧ a = .csrWrite addr w := by
  rcases perform_run_irq a s with ⟨hr, -⟩ | ⟨addr, w, rfl⟩
  · exact .inl hr
  · by_cases h : csrIndex addr = 10
    · exact .inr ⟨(csrWrite_run s addr w).trans (if_pos h), addr, w, h, rfl⟩
    · exact .inl ((csrWrite_run s addr w).trans (if_neg h))

/-- The run state stays, or a write to CMD2 makes it BUSY, or reset or a completion makes it IDLE (R43). -/
theorem step_run_cases {s t : State} (h : step s = .next t) :
    t.run = s.run ∨ (t.run = .busy ∧ ∃ addr w, csrIndex addr = 10 ∧ Performs s (.csrWrite addr w)) ∨
    (t.run = .idle ∧ (s.agent = .reset ∨ s.agent = .core ∧ t.status.done = true)) := by
  cases stepTo_of_step h with
  | reset ha => exact .inr (.inr ⟨rfl, .inl ha⟩)
  | performed a hp =>
    rcases perform_run a s.taken with hr | ⟨hr, addr, w, haddr, rfl⟩
    · exact .inl hr
    · exact .inr (.inl ⟨hr, addr, w, haddr, hp⟩)
  | waited => exact .inl rfl
  | idled => exact .inl rfl
  | executed ha hb ht =>
    rcases ht.completed_or_sampling with ⟨hi, hd, -⟩ | rfl
    · exact .inr (.inr ⟨hi, .inr ⟨ha, hd⟩⟩)
    · exact .inl rfl

/-- Settles O13: from what a step does to the run state. -/
theorem busyChanges : Obligations.BusyChanges := by
  intro s t h
  rcases step_run_cases h with hr | ⟨hr, hp⟩ | ⟨hr, hc⟩ <;> rw [hr]
  · exact ⟨fun hi hb => (nomatch hi.symm.trans hb), fun hb hi => (nomatch hb.symm.trans hi)⟩
  · exact ⟨fun _ _ => hp, fun _ hi => nomatch hi⟩
  · exact ⟨fun _ hb => (nomatch hb), fun _ _ => hc⟩

/-! ### irq -/

/-- What a CSR write makes of irq, which only STATUS, IRQEN and an issue move (R408). -/
theorem irq_csrWrite (s : State) (addr : Byte) (w : Word) :
    (csrWrite s addr w).irq =
      if csrIndex addr = 3 then s.irq && !w.getLsbD 1 else if csrIndex addr = 4 then s.status.done && w.getLsbD 0
      else if csrIndex addr = 10 then false else s.irq := by
  rw [State.irq, csrWrite_status, csrWrite_doneIe]
  split_ifs <;> simp_all [State.irq, Bool.and_right_comm]

/-- irq after a performed CSR write. -/
theorem irq_of_performs {s t : State} {addr : Byte} {w : Word} (hp : Performs s (.csrWrite addr w))
    (h : step s = .next t) : t.irq =
      if csrIndex addr = 3 then s.irq && !w.getLsbD 1 else if csrIndex addr = 4 then s.status.done && w.getLsbD 0
      else if csrIndex addr = 10 then false else s.irq := by
  rw [step_performs hp] at h
  cases h
  exact irq_csrWrite s.taken addr w

/-- irq after a core step of a running command. -/
theorem irq_of_executed {s t : State} (ht : Outcomes { s with sched := s.sched.tail } (.next t)) :
    t.run = .idle ∧ t.irq = s.doneIe ∨ t.run = s.run ∧ t.irq = s.irq := by
  rcases ht.completed_or_sampling with ⟨hi, hd, he⟩ | rfl
  · exact .inl ⟨hi, by rw [State.irq, hd, he]; rfl⟩
  · exact .inr ⟨rfl, rfl⟩

/-- irq stays, or a CSR write sets it, or reset clears it, or a completion makes it DONE_IE (R408). -/
theorem step_irq_cases {s t : State} (h : step s = .next t) :
    t.irq = s.irq ∨ (∃ addr w, Performs s (.csrWrite addr w)) ∨ (s.agent = .reset ∧ t.irq = false) ∨
    (s.agent = .core ∧ s.run = .busy ∧ t.run = .idle ∧ t.irq = s.doneIe) := by
  cases stepTo_of_step h with
  | reset ha => exact .inr (.inr (.inl ⟨ha, rfl⟩))
  | performed a hp =>
    rcases perform_run_irq a s.taken with ⟨-, hirq⟩ | ⟨addr, w, rfl⟩
    · exact .inl hirq
    · exact .inr (.inl ⟨addr, w, hp⟩)
  | waited => exact .inl rfl
  | idled => exact .inl rfl
  | executed ha hb ht =>
    rcases irq_of_executed ht with ⟨hi, hirq⟩ | ⟨-, hirq⟩
    · exact .inr (.inr (.inr ⟨ha, hb, hi, hirq⟩))
    · exact .inl hirq

/-- irq rises only at a completion or at a write that sets DONE_IE while DONE is 1 (R408). -/
theorem irq_rises {s t : State} (h : step s = .next t) (h0 : s.irq = false) (h1 : t.irq = true) :
    s.agent = .core ∧ s.doneIe = true ∧ s.run = .busy ∧ t.run = .idle ∨
    s.status.done = true ∧ ∃ addr w, csrIndex addr = 4 ∧ w.getLsbD 0 = true ∧ Performs s (.csrWrite addr w) := by
  rcases step_irq_cases h with he | ⟨addr, w, hp⟩ | ⟨-, he⟩ | ⟨ha, hb, hi, he⟩
  · exact nomatch h0.symm.trans (he.symm.trans h1)
  · have he := irq_of_performs hp h
    rw [h0, h1] at he
    split_ifs at he with h3 h4
    · simp at he
    · obtain ⟨hd, hw⟩ := Bool.and_eq_true_iff.mp he.symm
      exact .inr ⟨hd, addr, w, h4, hw, hp⟩
  · exact nomatch he.symm.trans h1
  · exact .inl ⟨ha, he.symm.trans h1, hb, hi⟩

/-- While a command runs, irq is 0. -/
theorem State.Inv.irq_busy {s : State} (h : s.Inv) (hb : s.run = .busy) : s.irq = false := by
  obtain ⟨hd, -⟩ := h.statusOk.2 hb
  rw [State.irq, hd, Bool.false_and]

/-- irq falls only at reset or at one of three CSR writes (R408). -/
theorem irq_falls {s t : State} (hinv : s.Inv) (h : step s = .next t) (h1 : s.irq = true) (h0 : t.irq = false) :
    s.agent = .reset ∨ ∃ addr w, Performs s (.csrWrite addr w) ∧
      (csrIndex addr = 3 ∧ w.getLsbD 1 = true ∨ csrIndex addr = 4 ∧ w.getLsbD 0 = false ∨ csrIndex addr = 10) := by
  rcases step_irq_cases h with he | ⟨addr, w, hp⟩ | ⟨ha, -⟩ | ⟨-, hb, -⟩
  · exact nomatch h1.symm.trans (he.symm.trans h0)
  · refine .inr ⟨addr, w, hp, ?_⟩
    obtain ⟨hd, -⟩ := Bool.and_eq_true_iff.mp h1
    have he := irq_of_performs hp h
    rw [h0, h1, hd] at he
    split_ifs at he with h3 h4 h10
    · exact .inl ⟨h3, by simpa using he⟩
    · exact .inr (.inl ⟨h4, by simpa using he⟩)
    · exact .inr (.inr h10)
  · exact .inl ha
  · exact nomatch h1.symm.trans (hinv.irq_busy hb)

/-- Settles O15: what makes irq rise and fall, and that each cause does so. -/
theorem interruptChanges : Obligations.InterruptChanges := by
  intro s t hinv h
  refine ⟨rfl, irq_rises h, irq_falls hinv h, fun ha hb hi hie => ?_, fun ha => ?_, fun addr w hp => ?_⟩
  · rw [step_core ha] at h
    have ht := coreStep_outcomes (s := { s with sched := s.sched.tail }) hb
    rcases irq_of_executed (h ▸ ht) with ⟨-, hirq⟩ | ⟨hr, -⟩
    · exact hirq.trans hie
    · exact nomatch hi.symm.trans (hr.trans hb)
  · rw [step_reset ha] at h
    cases h
    rfl
  · rw [irq_of_performs hp h]
    refine ⟨fun h4 hw hd => ?_, ?_⟩
    · rw [show csrIndex addr = 4 from h4, hd, hw]
      rfl
    · rintro (⟨h3, hw⟩ | ⟨h4, hw⟩ | h10)
      · rw [show csrIndex addr = 3 from h3, hw]
        exact Bool.and_false _
      · rw [show csrIndex addr = 4 from h4, hw]
        exact Bool.and_false _
      · rw [show csrIndex addr = 10 from h10]
        rfl

/-! ### The CSR port -/

/-- A CSR's index, as the statements spell its offset. -/
theorem csrIndex_eq_iff (addr : Byte) (k : Nat) : csrIndex addr = k ↔ addr.toNat / 4 * 4 = 4 * k := by
  unfold csrIndex; omega

/-- The LEVEL bits of a CFG word as a number (R37). -/
theorem levelBits_toNat (w : Word) : (w.extractLsb' 0 2).toNat = w.toNat % 4 := by
  simp [BitVec.extractLsb'_toNat]

/-- Settles O21: field by field, and the frame. -/
theorem csrWrite_effect : Obligations.CsrWrite := by
  intro s addr w hp hne
  have hi := csrIndex_eq_iff addr
  refine ⟨_, step_performs hp, ?_, ?_, ?_, ?_, ?_, csrWrite_frame hne s.taken w⟩
  · refine (csrWrite_level _ _ _).trans (if_congr (hi 2) ?_ rfl)
    rw [Level.write, levelBits_toNat]
    rfl
  · exact (csrWrite_status _ _ _).trans (if_congr (hi 3) rfl (if_neg hne))
  · exact (csrWrite_doneIe _ _ _).trans (if_congr (hi 4) rfl rfl)
  · exact (csrWrite_cmd0 _ _ _).trans (if_congr (hi 8) rfl rfl)
  · exact (csrWrite_cmd1 _ _ _).trans (if_congr (hi 9) rfl rfl)

/-- PARAMS as a number, for a MEM_BYTES that a conforming block has (R10, R41). -/
theorem paramsWord_toNat {s : State} (h : s.Conforming) :
    s.paramsWord.toNat = 16 + 2 ^ 8 * 1 + 2 ^ 16 * (s.memBytes / 256) := by
  obtain ⟨-, -, hmax⟩ := h
  simp only [State.paramsWord, toNat_append_eq, BitVec.toNat_ofNat, Config.rev, Config.npr]
  omega

/-- STATUS as a number (R38). -/
theorem statusWord_toNat (s : State) : s.statusWord.toNat =
    s.isBusy.toNat + 2 * s.status.done.toNat + 4 * s.status.err.toNat + 8 * s.status.ncan.toNat +
      2 ^ 8 * s.status.errcode.code.toNat := by
  simp only [State.statusWord, toNat_append_eq, BitVec.toNat_ofBool, BitVec.ofNat_eq_ofNat, BitVec.toNat_ofNat,
    Nat.zero_mod]
  ring

/-- Settles O20: the word that each offset reads as a number; the frame is that of `perform`. -/
theorem csrRead : Obligations.CsrRead := by
  intro s addr hc hp
  refine ⟨_, step_performs hp, ?_, rfl⟩
  show (s.csrWord addr).toNat = _
  have hi : addr.toNat / 4 * 4 = 4 * csrIndex addr := (csrIndex_eq_iff addr _).mp rfl
  rw [hi]
  unfold State.csrWord
  generalize csrIndex addr = k
  match k with
  | 0 => rfl
  | 1 => exact paramsWord_toNat hc
  | 2 => cases s.level <;> rfl
  | 3 => exact (statusWord_toNat s).trans (by cases s.status.errcode <;> rfl)
  | 4 => cases s.doneIe <;> rfl
  | 5 => rfl
  | 6 => rfl
  | 7 => rfl
  | 8 => rfl
  | 9 => rfl
  | 10 => rfl
  | k + 11 => rfl

/-! ### Reset -/

@[simp] theorem reset_poly (r : Reg) : State.reset.poly r = PolyReg.reset := by
  simp [State.poly, State.reset]

/-- Settles O17: each clause on the reset values. -/
theorem invariantAtReset : Obligations.InvariantAtReset where
  canonical := fun r => by rw [reset_poly]; exact Poly.zero_canonical
  emptyIsZero := fun r _ => by rw [reset_poly]; rfl
  memoryOk := ⟨rfl, fun _ hc => nomatch hc⟩
  conforming := by rw [State.Conforming]; decide
  statusOk := ⟨by decide, fun hb => nomatch hb⟩
  heldOk := fun _ ha => nomatch ha
  scratchZero := rfl
  triesZero := fun _ => rfl

/-- Settles O18: by the reset state, field by field; from offset 0x08 on every register is 0, as reserved offsets read. -/
theorem resetValues : Obligations.ResetValues := by
  refine ⟨rfl, rfl, ⟨reset_poly, fun _ => rfl, rfl, rfl, rfl, rfl, rfl, rfl, rfl, rfl, rfl, rfl, rfl⟩, rfl, rfl,
    fun addr h => ?_⟩
  unfold State.csrWord csrIndex
  split
  · omega
  · omega
  all_goals rfl

end Sys2Proof.Machine
end

section
/-! The buffer port (spec/20_memory.md R72, R74): the word a read returns, the bytes a write stores, and the hold while BUSY. -/

namespace Sys2Proof.Machine

open Sys2Proof.Statement

/-- A word inside M as a number, its bytes least significant first (R72). -/
theorem bufWord_toNat (s : State) (w : BitVec 14) : (s.bufWord w).toNat =
    if 4 * w.toNat + 3 < s.memBytes then
      (Memory.read s.mem (4 * w.toNat)).toNat + 2 ^ 8 * (Memory.read s.mem (4 * w.toNat + 1)).toNat +
        2 ^ 16 * (Memory.read s.mem (4 * w.toNat + 2)).toNat + 2 ^ 24 * (Memory.read s.mem (4 * w.toNat + 3)).toNat
    else 0 := by
  simp only [State.bufWord, apply_ite BitVec.toNat, toNat_append_eq]
  exact if_congr Iff.rfl (by ring) rfl

theorem wf_writeLane {m : Memory} (h : Memory.wf m = true) (a : Nat) (be : BitVec 4) (wdata : Word) (i : Nat) :
    Memory.wf (writeLane a be wdata m i) = true := by
  unfold writeLane
  split
  · exact Memory.wf_set h _ _
  · exact h

theorem read_writeLane {m : Memory} (h : Memory.wf m = true) (a : Nat) (be : BitVec 4) (wdata : Word) (i b : Nat) :
    Memory.read (writeLane a be wdata m i) b =
      if b = a + i ∧ be.getLsbD i = true then wdata.extractLsb' (8 * i) 8 else Memory.read m b := by
  unfold writeLane
  split
  · next hi => rw [Memory.read_set h, hi]; simp only [and_true]
  · next hi => exact (if_neg fun hb => hi hb.2).symm

/-- Storing the listed lanes of a word, in any order and however often, stores the enabled ones among them. -/
theorem read_foldl_writeLane (a : Nat) (be : BitVec 4) (wdata : Word) (lanes : List Nat) (b : Nat) :
    ∀ m : Memory, Memory.wf m = true →
      Memory.read (lanes.foldl (writeLane a be wdata) m) b =
        if (a ≤ b ∧ b - a ∈ lanes) ∧ be.getLsbD (b - a) = true then wdata.extractLsb' (8 * (b - a)) 8
        else Memory.read m b := by
  induction lanes with
  | nil => simp
  | cons i lanes ih =>
    intro m h
    rw [List.foldl_cons, ih _ (wf_writeLane h a be wdata i), read_writeLane h]
    by_cases hb : b = a + i
    · subst hb
      simp +contextual
    · have hmem : (a ≤ b ∧ b - a ∈ i :: lanes) ↔ (a ≤ b ∧ b - a ∈ lanes) :=
        and_congr_right fun hab => by rw [List.mem_cons, or_iff_right (by omega)]
      simp only [hb, false_and, if_false, hmem]

/-- Every byte of M after a buffer write (R72). -/
theorem read_bufWrite {s : State} (h : Memory.wf s.mem = true) (w : BitVec 14) (be : BitVec 4) (wdata : Word) (a : Nat) :
    Memory.read (bufWrite s w be wdata).mem a =
      if 4 * w.toNat + 3 < s.memBytes ∧ 4 * w.toNat ≤ a ∧ a ≤ 4 * w.toNat + 3 ∧ be.getLsbD (a - 4 * w.toNat) = true
      then wdata.extractLsb' (8 * (a - 4 * w.toNat)) 8 else Memory.read s.mem a := by
  unfold bufWrite
  simp only
  split
  · next hin =>
    have hlane : (4 * w.toNat ≤ a ∧ a - 4 * w.toNat ∈ [0, 1, 2, 3]) ↔ 4 * w.toNat ≤ a ∧ a ≤ 4 * w.toNat + 3 := by
      simp only [List.mem_cons, List.not_mem_nil, or_false]
      omega
    rw [read_foldl_writeLane _ _ _ _ _ _ h]
    exact if_congr (by rw [hlane, and_assoc, and_iff_right hin]) rfl rfl
  · next hout => exact (if_neg fun hc => hout hc.1).symm

/-- A buffer write changes M alone. -/
theorem bufWrite_frame (s : State) (w : BitVec 14) (be : BitVec 4) (wdata : Word) :
    bufWrite s w be wdata = { s with mem := (bufWrite s w be wdata).mem } := by
  unfold bufWrite
  simp only
  split <;> rfl

/-- Every access to the buffer holds while BUSY (R460). -/
theorem holds_buffer {a : HostAction} (h : (∃ w, a = .bufRead w) ∨ ∃ w be wdata, a = .bufWrite w be wdata) :
    a.holds = true := by
  rcases h with ⟨w, rfl⟩ | ⟨w, be, wdata, rfl⟩ <;> rfl

/-- The host's step holds its next access while BUSY, if it is one that holds (R460). -/
theorem step_hold {s : State} {a : HostAction} {rest : List HostAction} (hb : s.run = .busy) (ha : s.agent = .host)
    (hh : s.held = none) (hq : s.hostQueue = a :: rest) (hold : a.holds = true) :
    step s = .next { s with held := some a, hostQueue := rest, sched := s.sched.tail } := by
  have hr : s.ready a = false := by simp [ready_eq, hb, hold]
  rw [step_host ha, hostStep_hold (s := { s with sched := s.sched.tail }) hh hq hr]

/-- A held access is performed in the first step after the completion, unless that is the reset step (R460). -/
theorem performs_held {s : State} {a : HostAction} (hi : s.run = .idle) (ha : s.held = some a)
    (hs : s.sched.head? ≠ some .reset) : Performs s a :=
  ⟨agent_held hi ha hs, by simp [ready_eq, hi], .inl ha⟩

/-- Settles O22: reads and writes by the step of a performed access; the holds by what the host's step does while BUSY
and after it. -/
theorem bufferPort : Obligations.BufferPort := by
  refine ⟨fun _ _ _ => rfl, fun s w hp => ?_, fun s w be wdata hwf hp => ?_, fun s a rest hbuf hb ha hh hq => ?_,
    fun s a _ hi ha hs => performs_held hi ha hs⟩
  · exact ⟨_, step_performs hp, bufWord_toNat s w, rfl⟩
  · exact ⟨_, step_performs hp, read_bufWrite (s := s.taken) hwf w be wdata, bufWrite_frame s.taken w be wdata⟩
  · exact step_hold hb ha hh hq (holds_buffer hbuf)

end Sys2Proof.Machine
end

section
/-! The decoder, said once: a row of the opcode map decides every word with its opcode, and a word without a reserved
bit of its format is the word of the fields that the format uses (spec/30_encoding.md R101, R102, R106-R108). -/

namespace Sys2Proof

open Sys2Proof.Statement

/-! ### Masks, field by field -/

/-- `C` is the word of some fields exactly when they are its own. -/
theorem eq_commandWord_iff (C : Command) (outlen c16 addrB addrA : Half) (imm8 : Byte) (d : BitVec 4)
    (rs2 rs1 rd : Reg) (opc : Byte) :
    C = commandWord outlen c16 addrB addrA imm8 d rs2 rs1 rd opc ↔
      fieldOutlen C = outlen ∧ fieldC16 C = c16 ∧ fieldAddrB C = addrB ∧ fieldAddrA C = addrA ∧ fieldImm8 C = imm8 ∧
        fieldD C = d ∧ fieldRs2 C = rs2 ∧ fieldRs1 C = rs1 ∧ fieldRd C = rd ∧ fieldOpc C = opc := by
  constructor
  · rintro rfl
    simp
  · rintro ⟨rfl, rfl, rfl, rfl, rfl, rfl, rfl, rfl, rfl, rfl⟩
    exact (commandWord_fields C).symm

/-- The bits of a register number that are set in `m`. -/
def maskReg (r m : Reg) : Reg := (BitVec.ofFin (w := 4) r &&& BitVec.ofFin (w := 4) m).toFin

@[simp] theorem maskReg_zero (r : Reg) : maskReg r 0 = 0 := by revert r; decide
@[simp] theorem maskReg_ones (r : Reg) : maskReg r 15 = r := by revert r; decide
@[simp] theorem half_and_ones (x : Half) : x &&& 0xFFFF#16 = x := BitVec.and_allOnes
@[simp] theorem byte_and_ones (x : Byte) : x &&& 0xFF#8 = x := BitVec.and_allOnes
@[simp] theorem nibble_and_ones (x : BitVec 4) : x &&& 0xF#4 = x := BitVec.and_allOnes

/-- A word has no bit of a mask exactly when none of its fields has a bit of the mask's field. -/
@[simp] theorem and_commandWord_eq_zero_iff (C : Command) (outlen c16 addrB addrA : Half) (imm8 : Byte) (d : BitVec 4)
    (rs2 rs1 rd : Reg) (opc : Byte) :
    C &&& commandWord outlen c16 addrB addrA imm8 d rs2 rs1 rd opc = 0#96 ↔
      fieldOutlen C &&& outlen = 0#16 ∧ fieldC16 C &&& c16 = 0#16 ∧ fieldAddrB C &&& addrB = 0#16 ∧
        fieldAddrA C &&& addrA = 0#16 ∧ fieldImm8 C &&& imm8 = 0#8 ∧ fieldD C &&& d = 0#4 ∧
        maskReg (fieldRs2 C) rs2 = 0 ∧ maskReg (fieldRs1 C) rs1 = 0 ∧ maskReg (fieldRd C) rd = 0 ∧
        fieldOpc C &&& opc = 0#8 := by
  conv_lhs => rw [← commandWord_fields C, commandWord_and, commandWord_eq_zero]
  simp [maskReg]

/-- Y is the low byte of C16 (R102, S-UNI). -/
theorem fieldY_eq (C : Command) : fieldY C = (fieldC16 C).extractLsb' 0 8 := by
  conv_lhs => rw [← commandWord_fields C, fieldY_word]

/-- C16 has no high byte exactly when it is Y (R102, S-UNI). -/
theorem fieldC16_highByte_eq_zero_iff (C : Command) :
    fieldC16 C &&& 0xFF00#16 = 0#16 ↔ fieldC16 C = (fieldY C).setWidth 16 := by
  have hmask : ∀ i < 16, (0xFF00#16).getLsbD i = !decide (i < 8) := by decide
  rw [fieldY_eq, BitVec.eq_of_getLsbD_eq_iff, BitVec.eq_of_getLsbD_eq_iff]
  refine forall₂_congr fun i hi => ?_
  rw [BitVec.getLsbD_and, hmask i hi]
  by_cases h : i < 8 <;> simp [h, hi]

/-! ### The words without a reserved bit, format by format (R102) -/

section
variable (C : Command)

@[simp] theorem and_reservedN_eq_zero_iff : C &&& reservedN = 0#96 ↔
    C = commandWord 0 0 0 0 0 0 0 0 0 (fieldOpc C) := by
  rw [show reservedN = commandWord 0xFFFF 0xFFFF 0xFFFF 0xFFFF 0xFF 0xF 15 15 15 0 by decide]
  simp [eq_commandWord_iff]

@[simp] theorem and_reservedR3_eq_zero_iff : C &&& reservedR3 = 0#96 ↔
    C = commandWord 0 0 0 0 0 0 (fieldRs2 C) (fieldRs1 C) (fieldRd C) (fieldOpc C) := by
  rw [show reservedR3 = commandWord 0xFFFF 0xFFFF 0xFFFF 0xFFFF 0xFF 0xF 0 0 0 0 by decide]
  simp [eq_commandWord_iff]

@[simp] theorem and_reservedR2_eq_zero_iff : C &&& reservedR2 = 0#96 ↔
    C = commandWord 0 0 0 0 0 0 0 (fieldRs1 C) (fieldRd C) (fieldOpc C) := by
  rw [show reservedR2 = commandWord 0xFFFF 0xFFFF 0xFFFF 0xFFFF 0xFF 0xF 15 0 0 0 by decide]
  simp [eq_commandWord_iff]

@[simp] theorem and_reservedRZ_eq_zero_iff : C &&& reservedRZ = 0#96 ↔
    C = commandWord 0 0 0 0 0 (fieldD C) 0 0 (fieldRd C) (fieldOpc C) := by
  rw [show reservedRZ = commandWord 0xFFFF 0xFFFF 0xFFFF 0xFFFF 0xFF 0 15 15 0 0 by decide]
  simp [eq_commandWord_iff]

@[simp] theorem and_reservedSCbd_eq_zero_iff : C &&& reservedSCbd = 0#96 ↔
    C = commandWord 0 0 0 (fieldAddrA C) (fieldImm8 C) (fieldD C) 0 0 (fieldRd C) (fieldOpc C) := by
  rw [show reservedSCbd = commandWord 0xFFFF 0xFFFF 0xFFFF 0 0 0 15 15 0 0 by decide]
  simp [eq_commandWord_iff]

@[simp] theorem and_reservedSUni_eq_zero_iff : C &&& reservedSUni = 0#96 ↔
    C = commandWord 0 ((fieldY C).setWidth 16) 0 (fieldAddrA C) (fieldImm8 C) 0 0 0 (fieldRd C) (fieldOpc C) := by
  rw [show reservedSUni = commandWord 0xFFFF 0xFF00 0xFFFF 0 0 0xF 15 15 0 0 by decide]
  simp [fieldC16_highByte_eq_zero_iff, eq_commandWord_iff]

@[simp] theorem and_reservedMSt_eq_zero_iff : C &&& reservedMSt = 0#96 ↔
    C = commandWord 0 0 0 (fieldAddrA C) 0 0 0 (fieldRs1 C) 0 (fieldOpc C) := by
  rw [show reservedMSt = commandWord 0xFFFF 0xFFFF 0xFFFF 0 0xFF 0xF 15 0 15 0 by decide]
  simp [eq_commandWord_iff]

@[simp] theorem and_reservedMStd_eq_zero_iff : C &&& reservedMStd = 0#96 ↔
    C = commandWord 0 0 0 (fieldAddrA C) 0 (fieldD C) 0 (fieldRs1 C) 0 (fieldOpc C) := by
  rw [show reservedMStd = commandWord 0xFFFF 0xFFFF 0xFFFF 0 0xFF 0 15 0 15 0 by decide]
  simp [eq_commandWord_iff]

@[simp] theorem and_reservedMLd_eq_zero_iff : C &&& reservedMLd = 0#96 ↔
    C = commandWord 0 0 0 (fieldAddrA C) 0 (fieldD C) 0 0 (fieldRd C) (fieldOpc C) := by
  rw [show reservedMLd = commandWord 0xFFFF 0xFFFF 0xFFFF 0 0xFF 0 15 15 0 0 by decide]
  simp [eq_commandWord_iff]

@[simp] theorem and_reservedH_eq_zero_iff : C &&& reservedH = 0#96 ↔
    C = commandWord (fieldOutlen C) (fieldC16 C) (fieldAddrB C) (fieldAddrA C) 0 (fieldD C) 0 0 0 (fieldOpc C) := by
  rw [show reservedH = commandWord 0 0 0 0 0xFF 0 15 15 15 0 by decide]
  simp [eq_commandWord_iff]

@[simp] theorem and_reservedK_eq_zero_iff : C &&& reservedK = 0#96 ↔
    C = commandWord 0 (fieldC16 C) (fieldAddrB C) (fieldAddrA C) 0 0 0 0 0 (fieldOpc C) := by
  rw [show reservedK = commandWord 0xFFFF 0 0 0 0xFF 0xF 15 15 15 0 by decide]
  simp [eq_commandWord_iff]

end

/-! ### The rows of the opcode map -/

/-- A word whose opcode is not in the map (R107 check 1, R108). -/
theorem decode_illegal {C : Command} (h : fieldOpc C ∉ opcodeMap.map OpcodeRow.opc) :
    decode C = .error .illegalOpcode := by
  have hfind : opcodeMap.find? (fun row => row.opc = fieldOpc C) = none :=
    List.find?_eq_none.mpr fun row hm ho => h (List.mem_map.mpr ⟨row, hm, of_decide_eq_true ho⟩)
  simp only [decode, hfind]

/-- No two rows have one opcode, so a row is the one found by its opcode. -/
theorem find?_opcodeMap {row : OpcodeRow} (hm : row ∈ opcodeMap) {opc : Byte} (ho : row.opc = opc) :
    opcodeMap.find? (fun r => r.opc = opc) = some row := by
  cases hf : opcodeMap.find? (fun r => r.opc = opc) with
  | none => exact absurd (decide_eq_true ho) (List.find?_eq_none.mp hf row hm)
  | some r =>
    have hr : r.opc = opc := by simpa using List.find?_some hf
    have hnodup : (opcodeMap.map OpcodeRow.opc).Nodup := by decide
    rw [List.inj_on_of_nodup_map hnodup (List.mem_of_find?_eq_some hf) hm (hr.trans ho.symm)]

/-- The row of a word's opcode decides it (R107 check 2). -/
theorem decode_of_row {C : Command} {row : OpcodeRow} (hm : row ∈ opcodeMap) (ho : row.opc = fieldOpc C) :
    decode C = if C &&& row.reserved = 0 then .ok (row.read C) else .error .reservedField := by
  simp only [decode, find?_opcodeMap hm ho]

/-- The words that decode, and to what. -/
theorem decode_eq_ok_iff {C : Command} {i : Instr} :
    decode C = .ok i ↔ ∃ row ∈ opcodeMap, row.opc = fieldOpc C ∧ C &&& row.reserved = 0 ∧ row.read C = i := by
  constructor
  · intro h
    by_cases hopc : fieldOpc C ∈ opcodeMap.map OpcodeRow.opc
    · obtain ⟨row, hm, ho⟩ := List.mem_map.mp hopc
      rw [decode_of_row hm ho] at h
      split at h
      · next hr => exact ⟨row, hm, ho, hr, Except.ok.inj h⟩
      · nomatch h
    · rw [decode_illegal hopc] at h
      nomatch h
  · rintro ⟨row, hm, ho, hr, rfl⟩
    rw [decode_of_row hm ho, if_pos hr]

/-! ### The round trips -/

/-- A word that row `k` of the opcode map reads as `i` decodes to `i`. -/
theorem decode_of_getElem? {C : Command} {i : Instr} (k : Nat) {row : OpcodeRow} (hk : opcodeMap[k]? = some row)
    (h : row.opc = fieldOpc C ∧ C &&& row.reserved = 0 ∧ row.read C = i) : decode C = .ok i :=
  decode_eq_ok_iff.mpr ⟨row, List.mem_of_getElem? hk, h⟩

/-- A byte widened to 16 bits has itself as its low byte. -/
@[simp] theorem extractLsb'_setWidth_byte (y : Byte) : (y.setWidth 16).extractLsb' 0 8 = y := by
  rw [← BitVec.setWidth_eq_extractLsb' (by decide), BitVec.setWidth_setWidth (by decide), BitVec.setWidth_eq]

/-- Settles O1: the row of the command's opcode reads each operand back, and the word has no bit outside its format. -/
theorem decodeOfEncode : Obligations.DecodeOfEncode := by
  intro i
  cases i with
  | nop => exact decode_of_getElem? 0 rfl (by simp [encode])
  | padd rd rs1 rs2 => exact decode_of_getElem? 1 rfl (by simp [encode])
  | psub rd rs1 rs2 => exact decode_of_getElem? 2 rfl (by simp [encode])
  | pbmul rd rs1 rs2 => exact decode_of_getElem? 3 rfl (by simp [encode])
  | pbmac rd rs1 rs2 => exact decode_of_getElem? 4 rfl (by simp [encode])
  | pzero rd d => exact decode_of_getElem? 5 rfl (by simp [encode])
  | pmov rd rs1 => exact decode_of_getElem? 6 rfl (by simp [encode])
  | ntt rd rs1 => exact decode_of_getElem? 7 rfl (by simp [encode])
  | intt rd rs1 => exact decode_of_getElem? 8 rfl (by simp [encode])
  | scbd rd d imm8 a => exact decode_of_getElem? 9 rfl (by simp [encode])
  | samu rd imm8 y a => exact decode_of_getElem? 10 rfl (by simp [encode])
  | enc12 rs1 a => exact decode_of_getElem? 11 rfl (by simp [encode])
  | dec12 rd d a => exact decode_of_getElem? 12 rfl (by simp [encode])
  | cenc rs1 d a => exact decode_of_getElem? 13 rfl (by simp [encode])
  | cdec rd d a => exact decode_of_getElem? 14 rfl (by simp [encode])
  | hash d a b len outlen => exact decode_of_getElem? 15 rfl (by simp [encode])
  | keygen a b c => exact decode_of_getElem? 16 rfl (by simp [encode])
  | encaps a b c => exact decode_of_getElem? 17 rfl (by simp [encode])
  | decaps a b c => exact decode_of_getElem? 18 rfl (by simp [encode])
  | zeroize => exact decode_of_getElem? 19 rfl (by simp [encode])

/-- A word with a row's opcode and no reserved bit is the word of what the row reads from it: it has no bit outside the
fields of the row's format (R102). -/
theorem encode_read {row : OpcodeRow} (hm : row ∈ opcodeMap) {C : Command} (ho : row.opc = fieldOpc C)
    (hr : C &&& row.reserved = 0#96) : encode (row.read C) = C := by
  simp only [opcodeMap, List.mem_cons, List.not_mem_nil, or_false] at hm
  rcases hm with rfl | rfl | rfl | rfl | rfl | rfl | rfl | rfl | rfl | rfl | rfl | rfl | rfl | rfl | rfl | rfl | rfl |
    rfl | rfl | rfl
  all_goals simpa [encode, ← ho, eq_comm (b := C)] using hr

/-- The word of every command as a number. -/
theorem toNat_encode (i : Instr) : (encode i).toNat = wordValue i := by
  cases i with
  | samu rd imm8 y a =>
    have hy : y.toNat < 65536 := by omega
    simp [encode, wordValue, toNat_commandWord, hy]
  | _ => simp [encode, wordValue, toNat_commandWord]

/-- Settles O2: a word that decodes is one that the row of its opcode reads, and a command's word has every field at its
place. -/
theorem encodeOfDecode : Obligations.EncodeOfDecode := by
  refine ⟨fun C i h => ?_, toNat_encode⟩
  obtain ⟨row, hm, ho, hr, rfl⟩ := decode_eq_ok_iff.mp h
  exact encode_read hm ho hr

/-- Settles O3: the decoder's answer to each of the ten words. -/
theorem workedEncodings : Obligations.WorkedEncodings := by
  refine ⟨?_, ?_, ?_, ?_, ?_, ?_, ?_, ?_, ?_, ?_⟩ <;> decide

end Sys2Proof
end

section
/-! Words that are no command: the opcode table's opcodes and masks, and the two errors of the decoder, which no
command's own checks raise (spec/30_encoding.md R107, R108; spec/60_exceptions.md R402, R403). -/

namespace Sys2Proof.Machine

open Sys2Proof.Statement

/-! ### The opcode table -/

/-- The opcode table is the opcode map's opcodes, each with the mask of the opcode byte and its reserved bits. -/
theorem opcodeTable_eq : opcodeTable = opcodeMap.map fun row => (row.opc, row.reserved ||| 0xFF#96) := by decide

theorem opcodeTable_opcodes : opcodeTable.map Prod.fst = opcodeMap.map OpcodeRow.opc := by decide

/-- Under the mask of its format a word is its opcode exactly when it has no reserved bit. -/
theorem and_mask_eq_iff {C reserved : Command} (h : reserved &&& 0xFF#96 = 0#96) :
    C &&& (reserved ||| 0xFF#96) = (fieldOpc C).setWidth 96 ↔ C &&& reserved = 0#96 := by
  have hlow : ∀ i < 96, (0xFF#96).getLsbD i = decide (i < 8) := by decide
  rw [BitVec.eq_of_getLsbD_eq_iff, BitVec.eq_of_getLsbD_eq_iff]
  refine forall₂_congr fun i hi => ?_
  have hdisjoint : (reserved.getLsbD i && decide (i < 8)) = false := by
    rw [← hlow i hi, ← BitVec.getLsbD_and, h, BitVec.getLsbD_zero]
  rw [BitVec.getLsbD_and, BitVec.getLsbD_or, hlow i hi, BitVec.getLsbD_and]
  by_cases hbyte : i < 8
  · have hr : reserved.getLsbD i = false := by simpa [hbyte] using hdisjoint
    simpa [fieldOpc, hbyte, hr] using fun _ => hi
  · simp [fieldOpc, hbyte]

/-- The reserved bits of a format are outside the opcode byte (R102). -/
theorem reserved_and_opcodeByte : ∀ row ∈ opcodeMap, row.reserved &&& 0xFF#96 = 0#96 := by
  simp [opcodeMap, reservedN, reservedR3, reservedR2, reservedRZ, reservedSCbd, reservedSUni, reservedMSt, reservedMStd,
    reservedMLd, reservedH, reservedK]

/-! ### The decoder's errors are raised by the decoder only -/

/-- `c` is neither of the errors of R107's checks 1 and 2, so it can be a check of a command's own. -/
def IsOperandCheck (c : Option ErrCode) : Prop := ∀ e, c ≠ some (decodeErrorCode e)

theorem isOperandCheck_ok : IsOperandCheck (some .ok) := fun e h => decodeErrorCode_ne_ok e (Option.some.inj h).symm

@[simp] theorem isOperandCheck_range (s : State) (a n : Nat) : IsOperandCheck (checkRange s a n) := by
  intro e; unfold checkRange; cases e <;> split <;> simp [decodeErrorCode]
@[simp] theorem isOperandCheck_src (s : State) (r : Reg) : IsOperandCheck (checkSrc s r) := by
  intro e; unfold checkSrc; cases e <;> split <;> simp [decodeErrorCode]
@[simp] theorem isOperandCheck_tag (s : State) (r : Reg) (t : Tag) : IsOperandCheck (checkTag s r t) := by
  intro e; unfold checkTag; cases e <;> split <;> simp [decodeErrorCode]
@[simp] theorem isOperandCheck_sameTag (s : State) (r1 r2 : Reg) : IsOperandCheck (checkSameTag s r1 r2) := by
  intro e; unfold checkSameTag; cases e <;> split <;> simp [decodeErrorCode]
@[simp] theorem isOperandCheck_param (legal : Bool) : IsOperandCheck (checkParam legal) := by
  intro e; unfold checkParam; cases e <;> split <;> simp [decodeErrorCode]

/-- A core step from `s` that gives `o` completes with neither of the decoder's errors. -/
def NoDecodeError (s : State) (o : Host.Outcome State Fault Refusal) : Prop :=
  ∀ t, o = .next t → ∀ e, ¬ CompletedWith (decodeErrorCode e) s t

theorem noDecodeError_complete {s s' : State} {c : ErrCode} (h : IsOperandCheck (some c)) :
    NoDecodeError s (.next (complete c s')) := by
  intro t ht e hc
  cases ht
  exact h e (congrArg some hc.errcode)

theorem noDecodeError_command {s : State} {checks : List (Option ErrCode)} {effect : State}
    (hchecks : ∀ c ∈ checks, IsOperandCheck c) : NoDecodeError s (command s checks effect) := by
  rcases command_cases s checks effect with ⟨c, hc, ho⟩ | ⟨-, ho⟩ <;> rw [ho]
  · exact noDecodeError_complete (hchecks _ (firstError_mem hc))
  · exact noDecodeError_complete isOperandCheck_ok

/-- The same of a command that may go on sampling, which leaves it BUSY. -/
theorem noDecodeError_samplingCommand {s : State} (hb : s.run = .busy) {checks : List (Option ErrCode)}
    {effect : Option State} (hchecks : ∀ c ∈ checks, IsOperandCheck c) :
    NoDecodeError s (samplingCommand s checks effect) := by
  rcases samplingCommand_cases s checks effect with ⟨c, hc, ho⟩ | ⟨s', -, -, ho⟩ | ⟨-, -, ho⟩ <;> rw [ho]
  · exact noDecodeError_complete (hchecks _ (firstError_mem hc))
  · exact noDecodeError_complete isOperandCheck_ok
  · intro t ht e hc
    cases ht
    exact nomatch hb.symm.trans hc.idle

/-- No command's meaning completes with one of the decoder's errors. -/
theorem exec_noDecodeError (i : Instr) {s : State} (hb : s.run = .busy) : NoDecodeError s (exec i s) := by
  cases i with
  | nop | zeroize => exact noDecodeError_command (checks := []) (by simp)
  | samu | keygen | encaps | decaps => exact noDecodeError_samplingCommand hb (by simp)
  | _ => exact noDecodeError_command (by simp)

/-! ### The core step on each word -/

/-- A word that does not decode completes with the decoder's error and does nothing else (R402). -/
theorem coreStep_fails {s : State} {e : DecodeError} (hb : s.run = .busy) (hd : decode s.cur = .error e) :
    ∃ t, coreStep s = .next t ∧ FailedWith (decodeErrorCode e) s t :=
  ⟨_, coreStep_error hb hd, failedWith_complete (decodeErrorCode_ne_ok e) s⟩

/-- A word with an opcode of the map never raises ILLEGAL_OPCODE: it is a command or has a reserved bit. -/
theorem coreStep_not_illegalOpcode {s t : State} (hb : s.run = .busy)
    (hopc : fieldOpc s.cur ∈ opcodeMap.map OpcodeRow.opc) (h : coreStep s = .next t) :
    ¬ FailedWith .illegalOpcode s t := by
  intro hf
  obtain ⟨row, hm, ho⟩ := List.mem_map.mp hopc
  have hd := decode_of_row hm ho
  split at hd
  · rw [coreStep_ok hb hd] at h
    exact exec_noDecodeError _ hb t h .illegalOpcode hf.completed
  · rw [coreStep_error hb hd] at h
    cases h
    exact nomatch hf.completed.errcode

/-- Settles O4: by whether the opcode has a row in the map; the count is of the 256 opcodes. -/
theorem illegalOpcodes : Obligations.IllegalOpcodes := by
  refine ⟨fun s hb => ?_, by decide +kernel⟩
  rw [opcodeTable_opcodes]
  exact ⟨fun h => coreStep_fails hb (decode_illegal h), fun h t => coreStep_not_illegalOpcode hb h⟩

/-- Settles O5: by the row of the opcode, whose mask finds the reserved bits. -/
theorem reservedBits : Obligations.ReservedBits := by
  rw [Obligations.ReservedBits, opcodeTable_eq, List.forall_mem_map]
  intro row hm s hb ho
  have ho' : row.opc = fieldOpc s.cur := ho.symm
  have hd := decode_of_row hm ho'
  have hmask : s.cur &&& (row.reserved ||| 0xFF#96) = row.opc.setWidth 96 ↔ s.cur &&& row.reserved = 0#96 := by
    rw [ho', and_mask_eq_iff (reserved_and_opcodeByte row hm)]
  refine ⟨fun hr => ?_, fun hr => ?_⟩
  · exact coreStep_fails hb (hd.trans (if_neg (mt hmask.mpr hr)))
  · have hok := hd.trans (if_pos (hmask.mp hr))
    exact ⟨_, hok, coreStep_ok hb hok⟩

end Sys2Proof.Machine
end

section
/-! The coefficient units as arithmetic in ZMod q: what each unit does to residues, that two canonical values with one
residue are equal, and the laws that follow (spec/41_modular_arith.md R140-R143, R152). -/

namespace Sys2Proof.Machine

open Sys2Proof.Statement

/-! ### Residues -/

/-- The residue class of a coefficient mod q. -/
def residue (a : Coeff) : ZMod 3329 := a.toNat

/-- A canonical coefficient is determined by its residue. -/
theorem eq_of_residue_eq {a b : Coeff} (ha : a.toNat < Config.q) (hb : b.toNat < Config.q)
    (h : residue a = residue b) : a = b :=
  BitVec.eq_of_toNat_eq (((ZMod.natCast_eq_natCast_iff _ _ _).mp h).eq_of_lt_of_lt ha hb)

/-- The residue of a coefficient that is a number reduced mod q is the number's. -/
theorem residue_of_toNat_eq_mod {a : Coeff} {x : Nat} (h : a.toNat = x % Config.q) : residue a = x := by
  rw [residue, h]
  exact ZMod.natCast_mod x 3329

@[simp] theorem residue_zero : residue 0#12 = 0 := rfl

@[simp] theorem residue_modadd (a b : Coeff) : residue (modadd a b) = residue a + residue b :=
  (residue_of_toNat_eq_mod (modadd_toNat a b)).trans (Nat.cast_add _ _)

@[simp] theorem residue_modmul (a b : Coeff) : residue (modmul a b) = residue a * residue b :=
  (residue_of_toNat_eq_mod (modmul_toNat a b)).trans (Nat.cast_mul _ _)

@[simp] theorem residue_modsub (a b : Coeff) : residue (modsub a b) = residue a - residue b :=
  calc residue (modsub a b)
      = (((modsub a b).toNat : Int) : ZMod 3329) := (Int.cast_natCast _).symm
    _ = (((a.toNat : Int) - b.toNat : Int) : ZMod 3329) := by
        rw [modsub_toNat]
        exact ZMod.intCast_mod _ 3329
    _ = residue a - residue b := by
        push_cast
        rfl

/-! ### Lanes -/

/-- Lane `j` of a sum (R145). -/
theorem get_polyAdd_eq_modadd (f g : Poly) {j : Nat} (hj : j < 256) :
    (polyAdd f g).get j = modadd (f.get j) (g.get j) :=
  Poly.get_map2 _ _ _ hj

/-- Lane `j` of a difference (R145). -/
theorem get_polySub_eq_modsub (f g : Poly) {j : Nat} (hj : j < 256) :
    (polySub f g).get j = modsub (f.get j) (g.get j) :=
  Poly.get_map2 _ _ _ hj

/-- Lane `j` of a multiple. -/
theorem get_scale (c : Coeff) (f : Poly) {j : Nat} (hj : j < 256) : (scale c f).get j = modmul c (f.get j) := by
  rw [Poly.get_eq_getElem _ hj, Poly.get_eq_getElem _ hj]
  exact List.getElem_map _

/-- The lanes of pair `i` of a base product, with GAMMA[i] by its formula (R143, R182). -/
theorem get_basemul (f g : Poly) {i : Nat} (hi : i < 128) :
    ((basemul f g).get (2 * i)).toNat = ((f.get (2 * i)).toNat * (g.get (2 * i)).toNat +
      (f.get (2 * i + 1)).toNat * (g.get (2 * i + 1)).toNat * gamma i) % Config.q ∧
    ((basemul f g).get (2 * i + 1)).toNat = ((f.get (2 * i)).toNat * (g.get (2 * i + 1)).toNat +
      (f.get (2 * i + 1)).toNat * (g.get (2 * i)).toNat) % Config.q := by
  have hsize : ∀ p : Poly, p.coeffs.length = 2 * gammaTable.length := fun p => by rw [p.size, length_gammaTable]
  obtain ⟨heven, hodd⟩ :=
    getD_basemulPairs gammaTable f.coeffs g.coeffs (hsize f) (hsize g) i (length_gammaTable ▸ hi)
  rw [(transformTables_eq_powers i hi).2, ← basemul_coeffs] at heven
  rw [← basemul_coeffs] at hodd
  exact ⟨(congrArg BitVec.toNat heven).trans (coeff_toNat_of_lt (Nat.mod_lt _ (by decide))),
    (congrArg BitVec.toNat hodd).trans (coeff_toNat_of_lt (Nat.mod_lt _ (by decide)))⟩

/-- The lanes of pair `i` of `p` plus a base product (R143, R149). -/
theorem get_polyAdd_basemul (p f g : Poly) {i : Nat} (hi : i < 128) :
    ((polyAdd p (basemul f g)).get (2 * i)).toNat = ((p.get (2 * i)).toNat +
      ((f.get (2 * i)).toNat * (g.get (2 * i)).toNat +
        (f.get (2 * i + 1)).toNat * (g.get (2 * i + 1)).toNat * gamma i)) % Config.q ∧
    ((polyAdd p (basemul f g)).get (2 * i + 1)).toNat = ((p.get (2 * i + 1)).toNat +
      ((f.get (2 * i)).toNat * (g.get (2 * i + 1)).toNat +
        (f.get (2 * i + 1)).toNat * (g.get (2 * i)).toNat)) % Config.q := by
  obtain ⟨heven, hodd⟩ := get_basemul f g hi
  rw [get_polyAdd _ _ (by omega), get_polyAdd _ _ (by omega), heven, hodd, Nat.add_mod_mod, Nat.add_mod_mod]
  exact ⟨rfl, rfl⟩

/-- The two residues of pair `i` of a base product: the product modulo X² - GAMMA[i] (R143). -/
theorem residue_basemul (f g : Poly) {i : Nat} (hi : i < 128) :
    residue ((basemul f g).get (2 * i)) = residue (f.get (2 * i)) * residue (g.get (2 * i)) +
      residue (f.get (2 * i + 1)) * residue (g.get (2 * i + 1)) * gamma i ∧
    residue ((basemul f g).get (2 * i + 1)) = residue (f.get (2 * i)) * residue (g.get (2 * i + 1)) +
      residue (f.get (2 * i + 1)) * residue (g.get (2 * i)) := by
  obtain ⟨heven, hodd⟩ := get_basemul f g hi
  rw [residue_of_toNat_eq_mod heven, residue_of_toNat_eq_mod hodd]
  push_cast
  exact ⟨rfl, rfl⟩

/-- Two canonical polynomials with the same residues, pair by pair, are equal. -/
theorem Poly.eq_of_residue_pairs {f g : Poly} (hf : f.canonical) (hg : g.canonical)
    (h : ∀ i < 128, residue (f.get (2 * i)) = residue (g.get (2 * i)) ∧
      residue (f.get (2 * i + 1)) = residue (g.get (2 * i + 1))) : f = g := by
  refine Poly.ext_get fun j hj => eq_of_residue_eq (hf.get j) (hg.get j) ?_
  obtain ⟨heven, hodd⟩ := h (j / 2) (by omega)
  rcases Nat.mod_two_eq_zero_or_one j with hj2 | hj2
  · rwa [show 2 * (j / 2) = j by omega] at heven
  · rwa [show 2 * (j / 2) + 1 = j by omega] at hodd

/-! ### The laws of R152 -/

theorem modadd_comm (a b : Coeff) : modadd a b = modadd b a :=
  eq_of_residue_eq (modadd_lt _ _) (modadd_lt _ _) (by simp [add_comm])

theorem modmul_comm (a b : Coeff) : modmul a b = modmul b a :=
  eq_of_residue_eq (modmul_lt _ _) (modmul_lt _ _) (by simp [mul_comm])

theorem modadd_assoc (a b c : Coeff) : modadd (modadd a b) c = modadd a (modadd b c) :=
  eq_of_residue_eq (modadd_lt _ _) (modadd_lt _ _) (by simp [add_assoc])

theorem modmul_assoc (a b c : Coeff) : modmul (modmul a b) c = modmul a (modmul b c) :=
  eq_of_residue_eq (modmul_lt _ _) (modmul_lt _ _) (by simp [mul_assoc])

theorem modmul_modadd (a b c : Coeff) : modmul a (modadd b c) = modadd (modmul a b) (modmul a c) :=
  eq_of_residue_eq (modmul_lt _ _) (modadd_lt _ _) (by simp [mul_add])

theorem modsub_eq_modadd (a b : Coeff) : modsub a b = modadd a (modsub 0 b) :=
  eq_of_residue_eq (modsub_lt _ _) (modadd_lt _ _) (by simp [sub_eq_add_neg])

theorem modsub_modadd_cancel {a : Coeff} (ha : a.toNat < Config.q) (b : Coeff) : modsub (modadd a b) b = a :=
  eq_of_residue_eq (modsub_lt _ _) ha (by simp)

theorem polyAdd_canonical (f g : Poly) : (polyAdd f g).canonical := Poly.map2_canonical modadd_lt _ _

theorem scale_canonical (c : Coeff) (f : Poly) : (scale c f).canonical :=
  Poly.canonical_of_get fun _ hj => by rw [get_scale _ _ hj]; exact modmul_lt _ _

theorem basemul_comm (f g : Poly) : basemul f g = basemul g f := by
  refine Poly.eq_of_residue_pairs (basemul_canonical _ _) (basemul_canonical _ _) fun i hi => ?_
  simp only [residue_basemul _ _ hi]
  exact ⟨by ring, by ring⟩

theorem basemul_polyAdd_left (f f' g : Poly) :
    basemul (polyAdd f f') g = polyAdd (basemul f g) (basemul f' g) := by
  refine Poly.eq_of_residue_pairs (basemul_canonical _ _) (polyAdd_canonical _ _) fun i hi => ?_
  have heven : 2 * i < 256 := by omega
  have hodd : 2 * i + 1 < 256 := by omega
  simp only [residue_basemul _ _ hi, get_polyAdd_eq_modadd _ _ heven, get_polyAdd_eq_modadd _ _ hodd, residue_modadd]
  exact ⟨by ring, by ring⟩

theorem basemul_scale_left (c : Coeff) (f g : Poly) : basemul (scale c f) g = scale c (basemul f g) := by
  refine Poly.eq_of_residue_pairs (basemul_canonical _ _) (scale_canonical _ _) fun i hi => ?_
  have heven : 2 * i < 256 := by omega
  have hodd : 2 * i + 1 < 256 := by omega
  simp only [residue_basemul _ _ hi, get_scale _ _ heven, get_scale _ _ hodd, residue_modmul]
  exact ⟨by ring, by ring⟩

/-- Settles O23: the values of the units, the lanes of sums and differences, and the pairs of a base product. -/
theorem coefficientUnits : Obligations.CoefficientUnits :=
  ⟨fun a b _ => ⟨modadd_toNat a b, modsub_toNat a b, modmul_toNat a b, rfl, rfl⟩,
    fun f g _ hj => ⟨get_polyAdd_eq_modadd f g hj, get_polySub_eq_modsub f g hj⟩,
    fun f g _ hi => get_basemul f g hi⟩

/-- Settles O24: each law holds of the residues, and the results are canonical. -/
theorem arithmeticLaws : Obligations.ArithmeticLaws :=
  ⟨fun a b => ⟨modadd_comm a b, modmul_comm a b⟩,
    fun a b c => ⟨modadd_assoc a b c, modmul_assoc a b c, modmul_modadd a b c⟩,
    modsub_eq_modadd, fun _ b ha => modsub_modadd_cancel ha b, basemul_comm, basemul_polyAdd_left, basemul_scale_left,
    fun a b => ⟨modadd_lt a b, modsub_lt a b, modmul_lt a b⟩, basemul_canonical⟩

end Sys2Proof.Machine
end

section
/-! What the proofs about single commands share: the word of a command, its first failing check, and how it ends
(spec/30_encoding.md R102, R107; spec/60_exceptions.md R402-R404). -/

namespace Sys2Proof.Machine

open Sys2Proof.Statement

/-! ### The word of a command -/

/-- A command whose word has the opcode of row `k` of the opcode map is encoded by that row (R102, R106, R107). -/
theorem encodedBy_of_getElem? {i : Instr} (k : Nat) {opc : Byte} {reserved : Command} {read : Command → Instr}
    (hk : opcodeMap[k]? = some ⟨opc, reserved, read⟩) (ho : fieldOpc (encode i) = opc) :
    EncodedBy i opc reserved := by
  have hm := List.mem_of_getElem? hk
  have hd := (decode_of_row hm ho.symm).symm.trans (decodeOfEncode i)
  split at hd
  · next hr =>
    exact ⟨ho, hr, decodeOfEncode i, fun u hb hopc hres =>
      coreStep_fails hb ((decode_of_row hm hopc.symm).trans (if_neg hres))⟩
  · nomatch hd

/-! ### The first failing check (R403) -/

@[simp] theorem firstError_checkSrc (s : State) (r : Reg) (cs : List (Option ErrCode)) :
    firstError (checkSrc s r :: cs) = if (s.poly r).tag = .empty then some .uninit else firstError cs := by
  unfold checkSrc; split <;> rfl

@[simp] theorem firstError_checkTag (s : State) (r : Reg) (t : Tag) (cs : List (Option ErrCode)) :
    firstError (checkTag s r t :: cs) = if (s.poly r).tag = t then firstError cs else some .domain := by
  unfold checkTag; split <;> rfl

@[simp] theorem firstError_checkSameTag (s : State) (r1 r2 : Reg) (cs : List (Option ErrCode)) :
    firstError (checkSameTag s r1 r2 :: cs) =
      if (s.poly r1).tag = (s.poly r2).tag then firstError cs else some .domain := by
  unfold checkSameTag; split <;> rfl

/-- A tag code past 1 is not legal (R105). -/
theorem tagCodeLegal_of_two_le {d : BitVec 4} (h : 2 ≤ d.toNat) : tagCodeLegal d = false :=
  decide_eq_false (by omega)

/-! ### How a command ends -/

/-- A command that writes a register, when its checks pass (R404). -/
theorem command_writesRegister {s : State} {checks : List (Option ErrCode)} (rd : Reg) (tag : Tag) (f : Poly)
    (h : firstError checks = none) :
    ∃ t, command s checks (s.setPoly rd tag f) = .next t ∧ WroteRegister rd tag f false s t :=
  ⟨_, command_pass _ h, wroteRegister_complete s rd tag f⟩

/-- A command whose first failing check raises `e` (R402). -/
theorem command_fails {s : State} {checks : List (Option ErrCode)} {e : ErrCode} (effect : State)
    (h : firstError checks = some e) (he : e ≠ .ok) :
    ∃ t, command s checks effect = .next t ∧ FailedWith e s t :=
  ⟨_, command_fail effect h, failedWith_complete he s⟩

end Sys2Proof.Machine
end

section
/-! The commands of spec/41_modular_arith.md: their words, and for each its result, its frame and its errors
(R145-R151). -/

namespace Sys2Proof.Machine

/-- Settles O44: PADD and PSUB make the same checks, and write the lanes of the sum and of the difference. -/
theorem paddAndPsub : Obligations.PaddAndPsub := by
  intro rd rs1 rs2 s
  refine ⟨encodedBy_of_getElem? 1 rfl (Laws.EncodedOpcode.padd rd rs1 rs2),
    encodedBy_of_getElem? 2 rfl (Laws.EncodedOpcode.psub rd rs1 rs2),
    fun _ h2 ht => ?_, fun h => ?_, fun h1 h2 ht => ?_⟩
  · exact ⟨⟨_, _, command_pass _ (by simp [h2, ht]), wroteRegister_complete s rd _ _,
        fun _ hj => get_polyAdd _ _ hj⟩,
      ⟨_, _, command_pass _ (by simp [h2, ht]), wroteRegister_complete s rd _ _,
        fun _ hj => get_polySub _ _ hj⟩⟩
  · constructor <;> exact command_fails _ (by rcases h with h | h <;> simp [h]) (by decide)
  · constructor <;> exact command_fails _ (by simp [h1, h2, ht]) (by decide)

/-- Settles O45: every source is checked for EMPTY before any is checked for its domain. -/
theorem pbmulAndPbmac : Obligations.PbmulAndPbmac := by
  intro rd rs1 rs2 s
  refine ⟨encodedBy_of_getElem? 3 rfl (Laws.EncodedOpcode.pbmul rd rs1 rs2),
    encodedBy_of_getElem? 4 rfl (Laws.EncodedOpcode.pbmac rd rs1 rs2), fun h1 h2 => ?_, fun h1 h2 hd => ?_,
    fun h => command_fails _ ?_ (by decide), fun h1 h2 h => command_fails _ ?_ (by decide),
    fun h => command_fails _ ?_ (by decide), fun h1 h2 hd h => command_fails _ ?_ (by decide)⟩
  · exact ⟨_, _, command_pass _ (by simp [h1, h2]), wroteRegister_complete s rd _ _,
      fun _ hi => get_basemul _ _ hi⟩
  · exact ⟨_, _, command_pass _ (by simp [h1, h2, hd]), wroteRegister_complete s rd _ _,
      fun _ hi => get_polyAdd_basemul _ _ _ hi⟩
  · rcases h with h | h <;> simp [h]
  · rcases h with h | h <;> simp [h1, h2, h]
  · rcases h with h | h | h <;> simp [h]
  · rcases h with h | h | h <;> simp [h1, h2, hd, h]

/-- Settles O46: PZERO by its tag code, PMOV by its source's tag. -/
theorem pzeroAndPmov : Obligations.PzeroAndPmov := by
  intro rd rs1 d s
  refine ⟨encodedBy_of_getElem? 5 rfl (Laws.EncodedOpcode.pzero rd d),
    encodedBy_of_getElem? 6 rfl (Laws.EncodedOpcode.pmov rd rs1), ?_, ?_, fun h => ?_, fun h => ?_, fun h => ?_⟩
  · rintro rfl
    exact command_writesRegister (checks := [checkParam (tagCodeLegal 0)]) rd .normal Poly.zero rfl
  · rintro rfl
    exact command_writesRegister (checks := [checkParam (tagCodeLegal 1)]) rd .ntt Poly.zero rfl
  · exact command_fails _ (by rw [tagCodeLegal_of_two_le h]; rfl) (by decide)
  · exact command_writesRegister rd _ _ (by simp [h])
  · exact command_fails _ (by simp [h]) (by decide)

end Sys2Proof.Machine
end

section
/-! The in-place loops of the two transforms are the layers of the model, block by block (spec/42_ntt.md R183, R184). -/

namespace Sys2Proof.Machine

open Sys2Proof.Statement

/-! ### Layers, entry by entry -/

/-- The layer `len` of a transform works on `n` blocks of `2 * len` entries. -/
abbrev IsLayer (len n : Nat) : Prop := n * len = 128 ∧ n < 128

theorem IsLayer.pos {len n : Nat} (h : IsLayer len n) : 0 < n ∧ 0 < len :=
  CanonicallyOrderedAdd.mul_pos.mp (h.1.symm ▸ by decide)

theorem IsLayer.div {len n : Nat} (h : IsLayer len n) : 128 / len = n :=
  Nat.div_eq_of_eq_mul_left h.pos.2 h.1.symm

theorem IsLayer.len_eq {len n : Nat} (h : IsLayer len n) : len = 128 / n :=
  (Nat.div_eq_of_eq_mul_right h.pos.1 h.1.symm).symm

theorem IsLayer.entries {len n : Nat} (h : IsLayer len n) : 2 * len * n = 256 := by linear_combination 2 * h.1

theorem IsLayer.block_le {len n b : Nat} (h : IsLayer len n) (hb : b < n) : 2 * len * b + 2 * len ≤ 256 :=
  h.entries ▸ Nat.mul_le_mul_left (2 * len) hb

theorem IsLayer.dvd {len n : Nat} (h : IsLayer len n) : n ∣ 128 := ⟨len, h.1.symm⟩

theorem IsLayer.two_mul_le {len n : Nat} (h : IsLayer len n) : 2 * n ≤ 128 := by
  obtain ⟨hmul, hlt⟩ := h
  have hlen : 2 ≤ len := by
    by_contra hlen
    have : n * len ≤ n * 1 := Nat.mul_le_mul_left n (by omega)
    omega
  calc 2 * n ≤ len * n := Nat.mul_le_mul_right n hlen
    _ = 128 := by rw [mul_comm, hmul]

/-- What holds of the two entries of every butterfly of a layer holds of every entry. -/
theorem IsLayer.forall_entries {len n : Nat} (h : IsLayer len n) {P : Nat → Prop}
    (hP : ∀ b < n, ∀ j < len, P (2 * len * b + j) ∧ P (2 * len * b + (len + j))) : ∀ i < 256, P i := by
  intro i hi
  have hlen : 0 < 2 * len := Nat.mul_pos two_pos h.pos.2
  have hb : i / (2 * len) < n := by rwa [Nat.div_lt_iff_lt_mul hlen, mul_comm, h.entries]
  have hr : i % (2 * len) < 2 * len := Nat.mod_lt _ hlen
  rw [← Nat.div_add_mod i (2 * len)]
  rcases Nat.lt_or_ge (i % (2 * len)) len with hj | hj
  · exact (hP _ hb _ hj).1
  · obtain ⟨j, hj⟩ := Nat.exists_eq_add_of_le hj
    rw [hj]
    exact (hP _ hb j (by omega)).2

section
variable {bfly : Coeff → Coeff → Coeff → Coeff × Coeff}

theorem length_butterflyBlock {len : Nat} (z : Coeff) {block : List Coeff} (hl : block.length = 2 * len) :
    (butterflyBlock bfly len z block).length = 2 * len := by
  simp [butterflyBlock, hl]; omega

/-- The butterfly on the entries `j` and `len + j` of a block. -/
theorem getD_butterflyBlock {len j : Nat} (z : Coeff) {block : List Coeff} (hl : block.length = 2 * len)
    (hj : j < len) :
    ((butterflyBlock bfly len z block).getD j 0, (butterflyBlock bfly len z block).getD (len + j) 0) =
      bfly (block.getD j 0) (block.getD (len + j) 0) z := by
  have h1 : j < block.length := by omega
  have h2 : len + j < block.length := by omega
  have h3 : min len (block.length - len) = len := by omega
  simp [butterflyBlock, List.getElem?_append, h3, hj, h1, h2]

/-- Entry `j` of piece `b` of a concatenation of pieces of length `m`. -/
theorem getD_flatten {α : Type} {m j : Nat} (d : α) (hj : j < m) {L : List (List α)} (hL : ∀ c ∈ L, c.length = m)
    (b : Nat) : L.flatten.getD (m * b + j) d = (L.getD b []).getD j d := by
  induction L generalizing b with
  | nil => simp
  | cons c L ih =>
    have hc : c.length = m := hL c List.mem_cons_self
    cases b with
    | zero => rw [List.flatten_cons, List.getD_append _ _ _ _ (by omega)]; simp
    | succ b =>
      have hi : m * (b + 1) + j = m * b + j + m := by ring
      rw [List.flatten_cons, List.getD_append_right _ _ _ _ (by omega), hc, hi, Nat.add_sub_cancel,
        ih fun c h => hL c (List.mem_cons_of_mem _ h)]
      simp

/-- The blocks of a layer's result have the length of the layer's blocks. -/
theorem length_of_mem_layerBlocks {len n : Nat} {factors g c : List Coeff} (hg : 2 * len * n ≤ g.length)
    (hc : c ∈ List.zipWith (butterflyBlock bfly len) factors (chunks (2 * len) n g)) : c.length = 2 * len := by
  obtain ⟨i, hi, rfl⟩ := List.mem_iff_getElem.mp hc
  rw [List.getElem_zipWith]
  exact length_butterflyBlock _ (length_of_mem_chunks hg (List.getElem_mem _))

theorem length_butterflyLayer {len n : Nat} (hlen : IsLayer len n) {factors g : List Coeff}
    (hf : factors.length = n) (hg : g.length = 256) :
    (butterflyLayer bfly len factors g).length = 256 := by
  have h256 := hlen.entries
  rw [butterflyLayer, hlen.div, List.length_flatten,
    List.map_eq_replicate_iff.mpr fun c hc => length_of_mem_layerBlocks (by omega) hc]
  simp [hf, mul_comm n, h256]

/-- The butterfly on the entries `j` and `len + j` of block `b`. -/
theorem getD_butterflyLayer {len n : Nat} (hlen : IsLayer len n) {factors g : List Coeff} (hf : factors.length = n)
    (hg : g.length = 256) {b j : Nat} (hb : b < n) (hj : j < len) :
    ((butterflyLayer bfly len factors g).getD (2 * len * b + j) 0,
      (butterflyLayer bfly len factors g).getD (2 * len * b + (len + j)) 0) =
      bfly (g.getD (2 * len * b + j) 0) (g.getD (2 * len * b + (len + j)) 0) (factors.getD b 0) := by
  have h256 := hlen.entries
  have hbound := hlen.block_le hb
  have hmem : ∀ c ∈ List.zipWith (butterflyBlock bfly len) factors (chunks (2 * len) n g), c.length = 2 * len :=
    fun c hc => length_of_mem_layerBlocks (by omega) hc
  have hblock : ((g.drop (2 * len * b)).take (2 * len)).length = 2 * len := by
    rw [List.length_take, List.length_drop]; omega
  rw [butterflyLayer, hlen.div, getD_flatten _ (by omega) hmem, getD_flatten _ (by omega) hmem,
    List.getD_eq_getElem (n := b) _ _ (by simp [hf, hb]), List.getElem_zipWith, getElem_chunks,
    getD_butterflyBlock _ hblock hj, List.getD_eq_getElem (n := b) _ _ (by omega)]
  congr 1 <;> simp [show j < 2 * len by omega, show len + j < 2 * len by omega]

end

/-! ### The loops in place (R183, R184) -/

/-- ZETA[k] as the loops read it. -/
def loopZeta (k : Nat) : Coeff := BitVec.ofNat 12 (zeta k)

section
variable (bfly : Coeff → Coeff → Coeff → Coeff × Coeff)

/-- The inner loop on the entries of `x` and `y`, which stand `len` apart; `pre` and `mid` end with the entries that the
loop has already been through. -/
theorem foldl_butterflyAt (z : Coeff) (len : Nat) (pre x mid y post : List Coeff) (hxy : x.length = y.length)
    (hlen : x.length + mid.length = len) :
    (List.range' pre.length x.length).foldl (butterflyAt bfly z len) (pre ++ x ++ mid ++ y ++ post) =
      pre ++ (List.zipWith (fun a b => bfly a b z) x y).map Prod.fst ++ mid ++
        (List.zipWith (fun a b => bfly a b z) x y).map Prod.snd ++ post := by
  induction x generalizing pre mid y with
  | nil =>
    obtain rfl : y = [] := List.length_eq_zero_iff.mp hxy.symm
    simp
  | cons a x ih =>
    obtain ⟨b, y, rfl⟩ := List.exists_cons_of_length_eq_add_one hxy.symm
    have hturn : butterflyAt bfly z len (pre ++ (a :: x) ++ mid ++ (b :: y) ++ post) pre.length =
        (pre ++ [(bfly a b z).1]) ++ x ++ (mid ++ [(bfly a b z).2]) ++ y ++ post := by
      subst hlen
      simp [butterflyAt, List.set_append_right, Nat.add_right_comm _ 1]
    rw [List.length_cons, List.range'_succ, List.foldl_cons, hturn]
    have := ih (pre ++ [(bfly a b z).1]) (mid ++ [(bfly a b z).2]) y (by simpa using hxy) (by simp at hlen ⊢; omega)
    simpa using this

/-- The inner loop on one block (R183, R184). -/
theorem foldl_butterflyAt_block (z : Coeff) {len : Nat} (pre post : List Coeff) {block : List Coeff}
    (hl : block.length = 2 * len) :
    (List.range' pre.length len).foldl (butterflyAt bfly z len) (pre ++ block ++ post) =
      pre ++ butterflyBlock bfly len z block ++ post := by
  have htake : (block.take len).length = len := by rw [List.length_take]; omega
  have hdrop : (block.drop len).length = len := by rw [List.length_drop]; omega
  simpa [htake, butterflyBlock] using foldl_butterflyAt bfly z len pre (block.take len) [] (block.drop len) post
    (htake.trans hdrop.symm) (by simpa using htake)

/-- The two inner loops of R183 and R184 from block `b` on, for `n` blocks: the array and `k`, which `next` counts. -/
def blockLoop (next : Nat → Nat) (len b n : Nat) (gk : List Coeff × Nat) : List Coeff × Nat :=
  (List.range' b n).foldl (fun gk b =>
    ((List.range' (2 * len * b) len).foldl (butterflyAt bfly (loopZeta gk.2) len) gk.1, next gk.2)) gk

theorem blockLoop_succ (next : Nat → Nat) (len b n : Nat) (g : List Coeff) (k : Nat) :
    blockLoop bfly next len b (n + 1) (g, k) = blockLoop bfly next len (b + 1) n
      ((List.range' (2 * len * b) len).foldl (butterflyAt bfly (loopZeta k) len) g, next k) := rfl

/-- The loops through `n` blocks are a layer whose factors `k` reads in turn. -/
theorem blockLoop_eq (next : Nat → Nat) (len b n k : Nat) (pre g : List Coeff) (hpre : pre.length = 2 * len * b)
    (hg : g.length = 2 * len * n) :
    blockLoop bfly next len b n (pre ++ g, k) =
      (pre ++ (List.zipWith (butterflyBlock bfly len) ((List.iterate next k n).map loopZeta)
        (chunks (2 * len) n g)).flatten, next^[n] k) := by
  induction n generalizing b k pre g with
  | zero =>
    obtain rfl : g = [] := List.length_eq_zero_iff.mp hg
    rfl
  | succ n ih =>
    rw [Nat.mul_succ] at hg
    have hblock : (g.take (2 * len)).length = 2 * len := by rw [List.length_take]; omega
    have hturn : (List.range' (2 * len * b) len).foldl (butterflyAt bfly (loopZeta k) len) (pre ++ g) =
        pre ++ butterflyBlock bfly len (loopZeta k) (g.take (2 * len)) ++ g.drop (2 * len) := by
      simpa [hpre] using foldl_butterflyAt_block bfly (loopZeta k) pre (g.drop (2 * len)) hblock
    have hrest := ih (b + 1) (next k) (pre ++ butterflyBlock bfly len (loopZeta k) (g.take (2 * len)))
      (g.drop (2 * len)) (by rw [List.length_append, length_butterflyBlock _ hblock, hpre, Nat.mul_succ])
      (by rw [List.length_drop]; omega)
    rw [blockLoop_succ, hturn]
    simpa [List.iterate, chunks] using hrest

theorem blockLoop_eq_butterflyLayer (next : Nat → Nat) {len n : Nat} (hlen : IsLayer len n) (k : Nat) {g : List Coeff}
    (hg : g.length = 256) :
    blockLoop bfly next len 0 (128 / len) (g, k) =
      (butterflyLayer bfly len ((List.iterate next k n).map loopZeta) g, next^[n] k) := by
  rw [butterflyLayer, hlen.div]
  simpa using blockLoop_eq bfly next len 0 n k [] g rfl (hg.trans hlen.entries.symm)

end

theorem nttLoopLayer_eq_blockLoop (gk : List Coeff × Nat) (len : Nat) :
    nttLoopLayer gk len = blockLoop ctBfly (· + 1) len 0 (128 / len) gk := by
  rw [blockLoop, ← List.range_eq_range']; rfl

theorem inttLoopLayer_eq_blockLoop (gk : List Coeff × Nat) (len : Nat) :
    inttLoopLayer gk len = blockLoop gsBfly (· - 1) len 0 (128 / len) gk := by
  rw [blockLoop, ← List.range_eq_range']; rfl

/-- The factors that `k` reads counting up from the number of blocks, and down from twice that (R183, R184). -/
theorem layerFactors_eq_loopZetas : ∀ n < 128, n ∣ 128 →
    layerFactors (128 / n) = (List.iterate (· + 1) n n).map loopZeta ∧
    (layerFactors (128 / n)).reverse = (List.iterate (· - 1) (2 * n - 1) n).map loopZeta := by decide +kernel

theorem nttLoopLayer_eq {len n : Nat} (hlen : IsLayer len n) {g : List Coeff} (hg : g.length = 256) :
    nttLoopLayer (g, n) len = (nttLayer g len, 2 * n) := by
  rw [nttLoopLayer_eq_blockLoop, blockLoop_eq_butterflyLayer _ _ hlen _ hg, nttLayer, hlen.len_eq,
    (layerFactors_eq_loopZetas n hlen.2 hlen.dvd).1]
  simp [two_mul]

theorem inttLoopLayer_eq {len n : Nat} (hlen : IsLayer len n) {g : List Coeff} (hg : g.length = 256) :
    inttLoopLayer (g, 2 * n - 1) len = (inttLayer g len, n - 1) := by
  rw [inttLoopLayer_eq_blockLoop, blockLoop_eq_butterflyLayer _ _ hlen _ hg, inttLayer, hlen.len_eq,
    (layerFactors_eq_loopZetas n hlen.2 hlen.dvd).2]
  exact congrArg _ ((Nat.pred_iterate (2 * n - 1) n).trans (by omega))

theorem IsLayer.length_layerFactors {len n : Nat} (h : IsLayer len n) : (layerFactors len).length = n := by
  rw [h.len_eq, (layerFactors_eq_loopZetas n h.2 h.dvd).1, List.length_map, List.length_iterate]

theorem length_nttLayer {len n : Nat} (h : IsLayer len n) {g : List Coeff} (hg : g.length = 256) :
    (nttLayer g len).length = 256 :=
  length_butterflyLayer h h.length_layerFactors hg

theorem length_inttLayer {len n : Nat} (h : IsLayer len n) {g : List Coeff} (hg : g.length = 256) :
    (inttLayer g len).length = 256 :=
  length_butterflyLayer h (List.length_reverse.trans h.length_layerFactors) hg

/-! ### The sequence of layers -/

/-- The lengths of the layers of R183. -/
def forwardLens : List Nat := [128, 64, 32, 16, 8, 4, 2]

/-- The lengths of the layers of R184. -/
def inverseLens : List Nat := [2, 4, 8, 16, 32, 64, 128]

/-- A relation `R m n` between two arrays, for `n` blocks of `m` entries, that every layer keeps while it cuts the
blocks in half, holds after the layers of R183. -/
theorem foldl_forwardLens {β γ : Type} {F : β → Nat → β} {G : γ → Nat → γ} {R : Nat → Nat → β → γ → Prop}
    (hlayer : ∀ {len n y z}, IsLayer len n → R (2 * len) n y z → R len (2 * n) (F y len) (G z len)) {y : β} {z : γ}
    (h : R 256 1 y z) : R 2 128 (forwardLens.foldl F y) (forwardLens.foldl G z) :=
  hlayer (n := 64) (by decide) <| hlayer (n := 32) (by decide) <| hlayer (n := 16) (by decide) <|
    hlayer (n := 8) (by decide) <| hlayer (n := 4) (by decide) <| hlayer (n := 2) (by decide) <|
    hlayer (n := 1) (by decide) h

/-- A relation `R m n` between two arrays, for `n` blocks of `m` entries, that every layer keeps while it joins the
blocks in pairs, holds after the layers of R184. -/
theorem foldl_inverseLens {β γ : Type} {F : β → Nat → β} {G : γ → Nat → γ} {R : Nat → Nat → β → γ → Prop}
    (hlayer : ∀ {len n y z}, IsLayer len n → R len (2 * n) y z → R (2 * len) n (F y len) (G z len)) {y : β} {z : γ}
    (h : R 2 128 y z) : R 256 1 (inverseLens.foldl F y) (inverseLens.foldl G z) :=
  hlayer (n := 1) (by decide) <| hlayer (n := 2) (by decide) <| hlayer (n := 4) (by decide) <|
    hlayer (n := 8) (by decide) <| hlayer (n := 16) (by decide) <| hlayer (n := 32) (by decide) <|
    hlayer (n := 64) (by decide) h

/-- The loop of R183 and the layers of the model go through the same arrays. -/
theorem foldl_nttLoopLayer_eq {f : List Coeff} (hf : f.length = 256) :
    forwardLens.foldl nttLoopLayer (f, 1) = (forwardLens.foldl nttLayer f, 128) ∧
      (forwardLens.foldl nttLayer f).length = 256 := by
  refine foldl_forwardLens (R := fun _ n gk (g : List Coeff) => gk = (g, n) ∧ g.length = 256) ?_ ⟨rfl, hf⟩
  rintro len n _ g hlen ⟨rfl, hg⟩
  exact ⟨nttLoopLayer_eq hlen hg, length_nttLayer hlen hg⟩

/-- The loop of R184 and the layers of the model go through the same arrays. -/
theorem foldl_inttLoopLayer_eq {g : List Coeff} (hg : g.length = 256) :
    inverseLens.foldl inttLoopLayer (g, 127) = (inverseLens.foldl inttLayer g, 0) ∧
      (inverseLens.foldl inttLayer g).length = 256 := by
  refine foldl_inverseLens (R := fun _ n gk (g : List Coeff) => gk = (g, n - 1) ∧ g.length = 256) ?_ ⟨rfl, hg⟩
  rintro len n _ g hlen ⟨rfl, hg⟩
  exact ⟨inttLoopLayer_eq hlen hg, length_inttLayer hlen hg⟩

theorem ntt_coeffs (f : Poly) : (ntt f).coeffs = forwardLens.foldl nttLayer f.coeffs :=
  Poly.ofList_coeffs (foldl_nttLoopLayer_eq f.size).2

theorem intt_coeffs (g : Poly) : (intt g).coeffs = (inverseLens.foldl inttLayer g.coeffs).map fun x => modmul x ninv :=
  Poly.ofList_coeffs (by rw [List.length_map]; exact (foldl_inttLoopLayer_eq g.size).2)

/-- The loop of R183 is the layers of the model. -/
theorem nttLoop_coeffs (f : Poly) : nttLoop f.coeffs = forwardLens.foldl nttLayer f.coeffs := by
  rw [nttLoop, ← forwardLens, (foldl_nttLoopLayer_eq f.size).1]

/-- The loop of R184 is the layers of the model and the multiplication by NINV. -/
theorem inttLoop_coeffs (g : Poly) :
    inttLoop g.coeffs = (inverseLens.foldl inttLayer g.coeffs).map fun x => modmul x ninv := by
  rw [inttLoop, ← inverseLens, (foldl_inttLoopLayer_eq g.size).1, show ninv = BitVec.ofNat 12 3303 from rfl]

/-- Settles O26: the loops and the layers go through the same arrays, layer by layer. -/
theorem transformLoops : Obligations.TransformLoops := fun f =>
  ⟨(ntt_coeffs f).trans (nttLoop_coeffs f).symm, (intt_coeffs f).trans (inttLoop_coeffs f).symm⟩

end Sys2Proof.Machine
end

section
/-! The layers as arithmetic of residues, and the round trips: every layer of one transform undoes its counterpart
of the other up to a factor 2 (spec/42_ntt.md R187). -/

namespace Sys2Proof.Machine

open Sys2Proof.Statement

/-! ### The layers as arithmetic of residues -/

/-- The residue of entry `i` of an array. -/
def residueAt (g : List Coeff) (i : Nat) : ZMod 3329 := residue (g.getD i 0)

/-- The residue of ZETA[k]. -/
def zetaResidue (k : Nat) : ZMod 3329 := residueAt zetaTable k

theorem layerFactors_residue {len n : Nat} (h : IsLayer len n) {b : Nat} (hb : b < n) :
    residueAt (layerFactors len) b = zetaResidue (n + b) := by
  simp [residueAt, zetaResidue, layerFactors, h.div, hb]

theorem layerFactors_reverse_residue {len n : Nat} (h : IsLayer len n) {b : Nat} (hb : b < n) :
    residueAt (layerFactors len).reverse b = zetaResidue (2 * n - 1 - b) := by
  rw [residueAt, List.getD_reverse _ (by rwa [h.length_layerFactors]), h.length_layerFactors, ← residueAt,
    layerFactors_residue h (by omega)]
  congr 1
  omega

/-- The butterflies of a forward layer on residues (R180, R183). -/
theorem residueAt_nttLayer {len n : Nat} (h : IsLayer len n) {g : List Coeff} (hg : g.length = 256) {b j : Nat}
    (hb : b < n) (hj : j < len) :
    residueAt (nttLayer g len) (2 * len * b + j) =
        residueAt g (2 * len * b + j) + zetaResidue (n + b) * residueAt g (2 * len * b + (len + j)) ∧
      residueAt (nttLayer g len) (2 * len * b + (len + j)) =
        residueAt g (2 * len * b + j) - zetaResidue (n + b) * residueAt g (2 * len * b + (len + j)) := by
  obtain ⟨hfst, hsnd⟩ := Prod.ext_iff.mp (getD_butterflyLayer (bfly := ctBfly) h h.length_layerFactors hg hb hj)
  rw [← layerFactors_residue h hb]
  exact ⟨(congrArg residue hfst).trans (by simp [ctBfly, residueAt]),
    (congrArg residue hsnd).trans (by simp [ctBfly, residueAt])⟩

/-- The butterflies of an inverse layer on residues (R181, R184). -/
theorem residueAt_inttLayer {len n : Nat} (h : IsLayer len n) {g : List Coeff} (hg : g.length = 256) {b j : Nat}
    (hb : b < n) (hj : j < len) :
    residueAt (inttLayer g len) (2 * len * b + j) =
        residueAt g (2 * len * b + j) + residueAt g (2 * len * b + (len + j)) ∧
      residueAt (inttLayer g len) (2 * len * b + (len + j)) = zetaResidue (2 * n - 1 - b) *
        (residueAt g (2 * len * b + (len + j)) - residueAt g (2 * len * b + j)) := by
  have hf : (layerFactors len).reverse.length = n := by rw [List.length_reverse, h.length_layerFactors]
  obtain ⟨hfst, hsnd⟩ := Prod.ext_iff.mp (getD_butterflyLayer (bfly := gsBfly) h hf hg hb hj)
  rw [← layerFactors_reverse_residue h hb]
  exact ⟨(congrArg residue hfst).trans (by simp [gsBfly, residueAt]),
    (congrArg residue hsnd).trans (by simp [gsBfly, residueAt])⟩

/-! ### The round trips (R187) -/

/-- The product of the factors that the two transforms use on the same block is -1 (R183, R184). -/
theorem zetaResidue_mul_reversed : ∀ n < 128, n ∣ 128 → ∀ b < n,
    zetaResidue (n + b) * zetaResidue (2 * n - 1 - b) = -1 := by decide +kernel

/-- The array `h` is `c` times the array `g`, mod q. -/
def IsMultiple (c : ZMod 3329) (g h : List Coeff) : Prop :=
  g.length = 256 ∧ h.length = 256 ∧ ∀ i < 256, residueAt h i = c * residueAt g i

/-- An inverse layer undoes the forward layer, up to a factor 2. -/
theorem isMultiple_inttLayer {len n : Nat} (hlen : IsLayer len n) {c : ZMod 3329} {g h : List Coeff}
    (hg : g.length = 256) (hm : IsMultiple c (nttLayer g len) h) : IsMultiple (2 * c) g (inttLayer h len) := by
  obtain ⟨-, hh, hmul⟩ := hm
  refine ⟨hg, length_inttLayer hlen hh, hlen.forall_entries fun b hb j hj => ?_⟩
  have hbound := hlen.block_le hb
  obtain ⟨hi1, hi2⟩ := residueAt_inttLayer hlen hh hb hj
  obtain ⟨hf1, hf2⟩ := residueAt_nttLayer hlen hg hb hj
  have hz := zetaResidue_mul_reversed n hlen.2 hlen.dvd b hb
  rw [hi1, hi2, hmul _ (by omega), hmul _ (by omega), hf1, hf2]
  exact ⟨by ring, by linear_combination (-2 * c * residueAt g (2 * len * b + (len + j))) * hz⟩

/-- A forward layer undoes the inverse layer, up to a factor 2. -/
theorem isMultiple_nttLayer {len n : Nat} (hlen : IsLayer len n) {c : ZMod 3329} {g h : List Coeff}
    (hg : g.length = 256) (hm : IsMultiple c (inttLayer g len) h) : IsMultiple (2 * c) g (nttLayer h len) := by
  obtain ⟨-, hh, hmul⟩ := hm
  refine ⟨hg, length_nttLayer hlen hh, hlen.forall_entries fun b hb j hj => ?_⟩
  have hbound := hlen.block_le hb
  obtain ⟨hi1, hi2⟩ := residueAt_inttLayer hlen hg hb hj
  obtain ⟨hf1, hf2⟩ := residueAt_nttLayer hlen hh hb hj
  have hz := zetaResidue_mul_reversed n hlen.2 hlen.dvd b hb
  rw [hf1, hf2, hmul _ (by omega), hmul _ (by omega), hi1, hi2]
  exact ⟨by linear_combination c * (residueAt g (2 * len * b + (len + j)) - residueAt g (2 * len * b + j)) * hz,
    by linear_combination -c * (residueAt g (2 * len * b + (len + j)) - residueAt g (2 * len * b + j)) * hz⟩

/-- Layers that undo those of another transform one by one, each up to a factor 2, undo them all in opposite order. -/
theorem isMultiple_foldl {F G : List Coeff → Nat → List Coeff} (lens : List Nat)
    (hlayer : ∀ len ∈ lens, ∀ (c : ZMod 3329) (g h : List Coeff), g.length = 256 → IsMultiple c (F g len) h →
      IsMultiple (2 * c) g (G h len))
    (hF : ∀ len ∈ lens, ∀ g : List Coeff, g.length = 256 → (F g len).length = 256) {c : ZMod 3329} {g h : List Coeff}
    (hg : g.length = 256) (hm : IsMultiple c (lens.foldl F g) h) :
    IsMultiple (2 ^ lens.length * c) g (lens.reverse.foldl G h) := by
  induction lens generalizing g with
  | nil => simpa using hm
  | cons len lens ih =>
    have hrest := ih (fun l hl => hlayer l (List.mem_cons_of_mem _ hl)) (fun l hl => hF l (List.mem_cons_of_mem _ hl))
      (hF len List.mem_cons_self g hg) hm
    rw [List.reverse_cons, List.foldl_append, List.length_cons, pow_succ', mul_assoc]
    exact hlayer len List.mem_cons_self _ _ _ hg hrest

theorem isLayer_of_mem_forwardLens : ∀ len ∈ forwardLens, IsLayer len (128 / len) := by decide

theorem isLayer_of_mem_inverseLens : ∀ len ∈ inverseLens, IsLayer len (128 / len) := by decide

/-- NINV is the inverse of 128 (R182). -/
theorem residue_ninv : 2 ^ 7 * residue ninv = 1 := by decide +kernel

/-- The lanes of an inverse transform are those of its layers times NINV. -/
theorem isMultiple_intt (g : Poly) :
    IsMultiple (residue ninv) (inverseLens.foldl inttLayer g.coeffs) (intt g).coeffs := by
  have hlen := (foldl_inttLoopLayer_eq g.size).2
  refine ⟨hlen, (intt g).size, fun i hi => ?_⟩
  rw [residueAt, intt_coeffs, List.getD_eq_getElem _ _ (by simpa [hlen] using hi), List.getElem_map,
    residue_modmul, residueAt, List.getD_eq_getElem _ _ (by simpa [hlen] using hi), mul_comm]

/-- A canonical polynomial with the residues of another is that polynomial. -/
theorem Poly.eq_of_isMultiple_one {f g : Poly} (hf : f.canonical) (hg : g.canonical)
    (h : IsMultiple 1 f.coeffs g.coeffs) : g = f := by
  obtain ⟨-, -, hmul⟩ := h
  exact Poly.ext_get fun i hi => eq_of_residue_eq (hg.get i) (hf.get i) ((hmul i hi).trans (one_mul _))

/-- The inverse transform undoes the transform (R187). -/
theorem intt_ntt {f : Poly} (hf : f.canonical) : intt (ntt f) = f := by
  have hlayers : IsMultiple (2 ^ 7 * 1) f.coeffs (inverseLens.foldl inttLayer (ntt f).coeffs) :=
    isMultiple_foldl forwardLens
      (fun len h _ _ _ hg hm => isMultiple_inttLayer (isLayer_of_mem_forwardLens len h) hg hm)
      (fun len h _ hg => length_nttLayer (isLayer_of_mem_forwardLens len h) hg) f.size
      (by rw [← ntt_coeffs]; exact ⟨(ntt f).size, (ntt f).size, fun i _ => (one_mul _).symm⟩)
  obtain ⟨-, -, hl⟩ := hlayers
  obtain ⟨-, -, hi⟩ := isMultiple_intt (ntt f)
  refine Poly.eq_of_isMultiple_one hf (intt_canonical _) ⟨f.size, (intt _).size, fun i hi256 => ?_⟩
  rw [hi i hi256, hl i hi256]
  linear_combination residueAt f.coeffs i * residue_ninv

/-- The transform undoes the inverse transform (R187). -/
theorem ntt_intt {g : Poly} (hg : g.canonical) : ntt (intt g) = g := by
  have hlayers : IsMultiple (2 ^ 7 * residue ninv) g.coeffs (forwardLens.foldl nttLayer (intt g).coeffs) :=
    isMultiple_foldl inverseLens
      (fun len h _ _ _ hg hm => isMultiple_nttLayer (isLayer_of_mem_inverseLens len h) hg hm)
      (fun len h _ hg => length_inttLayer (isLayer_of_mem_inverseLens len h) hg) g.size (isMultiple_intt g)
  rw [residue_ninv, ← ntt_coeffs] at hlayers
  exact Poly.eq_of_isMultiple_one hg (ntt_canonical _) hlayers

/-- Settles O27: every layer undoes its counterpart up to a factor 2, and NINV is the inverse of the product. -/
theorem transformRoundTrip : Obligations.TransformRoundTrip := fun _ hf => ⟨intt_ntt hf, ntt_intt hf⟩

end Sys2Proof.Machine
end

section
/-! What the NTT domain holds: every layer splits X^(2 len) - ζ² into X^len - ζ and X^len + ζ, down to the residues
modulo X² - GAMMA[i] (spec/42_ntt.md R189). -/

namespace Sys2Proof.Machine

open Sys2Proof.Statement

/-- The root of block `k` of the transform, counted as the layers count: the two halves of block `k` have the roots
ZETA[k] and -ZETA[k]. -/
def blockRoot (k : Nat) : ZMod 3329 := if k % 2 = 0 then zetaResidue (k / 2) else -zetaResidue (k / 2)

theorem blockRoot_even (k : Nat) : blockRoot (2 * k) = zetaResidue k := by simp [blockRoot]

theorem blockRoot_odd (k : Nat) : blockRoot (2 * k + 1) = -zetaResidue k := by
  simp [blockRoot, Nat.add_mod, show (2 * k + 1) / 2 = k by omega]

/-- ZETA[k] is a square root of the root of block `k` (R182). -/
theorem zetaResidue_sq : ∀ k < 128, 0 < k → zetaResidue k ^ 2 = blockRoot k := by decide +kernel

/-- The roots of the last 128 blocks are GAMMA (R182). -/
theorem blockRoot_eq_gamma : ∀ i < 128, blockRoot (128 + i) = gamma i := by decide +kernel

/-- Lane `j` of `f` mod X^m - `r`, for `f` of `m * n` coefficients. -/
def foldedLane (f : Poly) (m n : Nat) (r : ZMod 3329) (j : Nat) : ZMod 3329 :=
  ∑ t ∈ Finset.range n, residue (f.get (m * t + j)) * r ^ t

theorem sum_range_two_mul {R : Type} [AddCommMonoid R] (F : Nat → R) (n : Nat) :
    ∑ t ∈ Finset.range (2 * n), F t = ∑ t ∈ Finset.range n, (F (2 * t) + F (2 * t + 1)) := by
  induction n with
  | zero => rfl
  | succ n ih => rw [Nat.mul_succ, Finset.sum_range_succ, Finset.sum_range_succ, Finset.sum_range_succ, ih, add_assoc]

/-- Folding at a square root, from the two lanes folded at the square. -/
theorem foldedLane_sqrt (f : Poly) (len n : Nat) (r : ZMod 3329) (j : Nat) :
    foldedLane f len (2 * n) r j =
      foldedLane f (2 * len) n (r ^ 2) j + r * foldedLane f (2 * len) n (r ^ 2) (len + j) := by
  rw [foldedLane, foldedLane, foldedLane, sum_range_two_mul, Finset.mul_sum, ← Finset.sum_add_distrib]
  refine Finset.sum_congr rfl fun t _ => ?_
  rw [show len * (2 * t) + j = 2 * len * t + j by ring, show len * (2 * t + 1) + j = 2 * len * t + (len + j) by ring]
  ring

/-- The array `g` holds, in `n` blocks of `m` entries, `f` modulo X^m - r for the root `r` of each block. -/
def HoldsResidues (f : Poly) (m n : Nat) (g : List Coeff) : Prop :=
  g.length = 256 ∧ ∀ b < n, ∀ j < m, residueAt g (m * b + j) = foldedLane f m n (blockRoot (n + b)) j

theorem holdsResidues_coeffs (f : Poly) : HoldsResidues f 256 1 f.coeffs := by
  refine ⟨f.size, fun b hb j _ => ?_⟩
  obtain rfl : b = 0 := by omega
  simp [foldedLane, residueAt, Poly.get]

/-- A layer splits every block X^(2 len) - ζ² into X^len - ζ and X^len + ζ. -/
theorem HoldsResidues.layer {f : Poly} {len n : Nat} (hlen : IsLayer len n) {g : List Coeff}
    (h : HoldsResidues f (2 * len) n g) : HoldsResidues f len (2 * n) (nttLayer g len) := by
  obtain ⟨hg, hres⟩ := h
  refine ⟨length_nttLayer hlen hg, fun b' hb' j hj => ?_⟩
  have hsqrt : ∀ b < n, zetaResidue (n + b) ^ 2 = blockRoot (n + b) := fun b hb =>
    zetaResidue_sq _ (by have := hlen.two_mul_le; omega) (by omega)
  obtain ⟨b, rfl | rfl⟩ : ∃ b, b' = 2 * b ∨ b' = 2 * b + 1 := ⟨b' / 2, by omega⟩
  · have hb : b < n := by omega
    obtain ⟨hfst, -⟩ := residueAt_nttLayer hlen hg hb hj
    rw [show len * (2 * b) + j = 2 * len * b + j by ring, hfst, hres b hb j (by omega), hres b hb _ (by omega),
      show 2 * n + 2 * b = 2 * (n + b) by ring, blockRoot_even, foldedLane_sqrt, hsqrt b hb]
  · have hb : b < n := by omega
    obtain ⟨-, hsnd⟩ := residueAt_nttLayer hlen hg hb hj
    rw [show len * (2 * b + 1) + j = 2 * len * b + (len + j) by ring, hsnd, hres b hb j (by omega),
      hres b hb _ (by omega), show 2 * n + (2 * b + 1) = 2 * (n + b) + 1 by ring, blockRoot_odd, foldedLane_sqrt,
      neg_sq, hsqrt b hb, neg_mul, sub_eq_add_neg]

/-- The transform holds the residues modulo X² - GAMMA[i] (R189). -/
theorem residue_ntt (f : Poly) {i j : Nat} (hi : i < 128) (hj : j < 2) :
    residue ((ntt f).get (2 * i + j)) =
      ∑ t ∈ Finset.range 128, residue (f.get (2 * t + j)) * (gamma i : ZMod 3329) ^ t := by
  have h : HoldsResidues f 2 128 (ntt f).coeffs := by
    rw [ntt_coeffs]
    exact foldl_forwardLens (R := fun m n g (_ : Unit) => HoldsResidues f m n g) (G := fun _ _ => ()) (z := ())
      (fun hlen h => h.layer hlen) (holdsResidues_coeffs f)
  obtain ⟨-, hres⟩ := h
  rw [← blockRoot_eq_gamma i hi]
  exact hres i hi j hj

/-- Settles O28: the residues of the sums are those that the transform holds. -/
theorem transformResidues : Obligations.TransformResidues := by
  intro f i hi
  have hlane : ∀ j < 2, ((ntt f).get (2 * i + j)).toNat =
      (∑ t ∈ Finset.range 128, (f.get (2 * t + j)).toNat * gamma i ^ t) % 3329 := fun j hj => by
    rw [← Nat.mod_eq_of_lt ((ntt_canonical f).get (2 * i + j))]
    refine (ZMod.natCast_eq_natCast_iff' _ _ _).mp ((residue_ntt f hi hj).trans ?_)
    push_cast
    rfl
  exact ⟨hlane 0 (by omega), hlane 1 (by omega)⟩

end Sys2Proof.Machine
end

section
/-! The product law: the transform is a map into the rings Z_q[X]/(X² - GAMMA[i]), where base multiplication is the
product (spec/42_ntt.md R188). -/

namespace Sys2Proof.Machine

open Sys2Proof.Statement

/-- The residues modulo X² - GAMMA[i]. -/
abbrev PairRing (i : Nat) : Type := QuadraticAlgebra (ZMod 3329) (gamma i : ZMod 3329) 0

/-- Pair `i` of an NTT-domain polynomial. -/
def pairAt (g : Poly) (i : Nat) : PairRing i := ⟨residue (g.get (2 * i)), residue (g.get (2 * i + 1))⟩

theorem pairAt_eq_iff {f g : Poly} {i : Nat} : pairAt f i = pairAt g i ↔
    residue (f.get (2 * i)) = residue (g.get (2 * i)) ∧ residue (f.get (2 * i + 1)) = residue (g.get (2 * i + 1)) :=
  QuadraticAlgebra.ext_iff

/-- Base multiplication multiplies the pairs (R143). -/
theorem pairAt_basemul (f g : Poly) {i : Nat} (hi : i < 128) : pairAt (basemul f g) i = pairAt f i * pairAt g i := by
  obtain ⟨heven, hodd⟩ := residue_basemul f g hi
  rw [pairAt, heven, hodd]
  ext
  · simp [pairAt]; ring
  · simp [pairAt]

/-- X in the ring of pair `i`. -/
abbrev pairX (i : Nat) : PairRing i := QuadraticAlgebra.omega

theorem pairX_sq (i : Nat) : pairX i ^ 2 = algebraMap (ZMod 3329) (PairRing i) (gamma i) := by
  rw [sq]
  exact QuadraticAlgebra.omega_mul_omega_eq_mk

/-- 17^128 = -1 mod q (R182), and GAMMA[i] is an odd power of 17. -/
theorem gamma_pow : ∀ i < 128, (gamma i : ZMod 3329) ^ 128 = -1 := by decide +kernel

theorem pairX_pow {i : Nat} (hi : i < 128) : pairX i ^ 256 = -1 := by
  rw [show 256 = 2 * 128 from rfl, pow_mul, pairX_sq, ← map_pow, gamma_pow i hi, map_neg, map_one]

/-- Pair `i` of a transform is the polynomial at X (R189). -/
theorem pairAt_ntt (f : Poly) {i : Nat} (hi : i < 128) :
    pairAt (ntt f) i = ∑ m ∈ Finset.range 256, algebraMap _ (PairRing i) (residue (f.get m)) * pairX i ^ m := by
  have hsplit : pairAt (ntt f) i = algebraMap _ (PairRing i) (residue ((ntt f).get (2 * i + 0))) +
      algebraMap _ (PairRing i) (residue ((ntt f).get (2 * i + 1))) * pairX i := by
    ext <;> simp [pairAt]
  rw [hsplit, residue_ntt f hi (by omega), residue_ntt f hi (by omega), map_sum, map_sum, Finset.sum_mul,
    ← Finset.sum_add_distrib, show 256 = 2 * 128 from rfl, sum_range_two_mul]
  refine Finset.sum_congr rfl fun t _ => ?_
  rw [map_mul, map_mul, map_pow, ← pairX_sq, add_zero]
  ring

/-- Coefficient `m` of the product of `a` and `b` modulo X^256 + 1, over any ring. -/
def negacyclic {R : Type} [Ring R] (a b : Nat → R) (m : Nat) : R :=
  ∑ i ∈ Finset.range 256, ∑ j ∈ Finset.range 256,
    if i + j = m then a i * b j else if i + j = m + 256 then -(a i * b j) else 0

/-- The negacyclic product at a point whose 256th power is -1. -/
theorem sum_negacyclic_mul_pow {R : Type} [CommRing R] (a b : Nat → R) {x : R} (hx : x ^ 256 = -1) :
    ∑ m ∈ Finset.range 256, negacyclic a b m * x ^ m =
      (∑ m ∈ Finset.range 256, a m * x ^ m) * ∑ m ∈ Finset.range 256, b m * x ^ m := by
  simp only [negacyclic, Finset.sum_mul]
  rw [Finset.sum_comm]
  refine Finset.sum_congr rfl fun i hi => ?_
  rw [Finset.sum_comm, Finset.mul_sum]
  refine Finset.sum_congr rfl fun j hj => ?_
  rw [Finset.mem_range] at hi hj
  rcases Nat.lt_or_ge (i + j) 256 with hlt | hge
  · rw [Finset.sum_eq_single_of_mem (i + j) (Finset.mem_range.mpr hlt), if_pos rfl]
    · ring
    · intro m hm hne
      rw [if_neg hne.symm, if_neg (by rw [Finset.mem_range] at hm; omega), zero_mul]
  · obtain ⟨m, hm⟩ := Nat.exists_eq_add_of_le' hge
    rw [Finset.sum_eq_single_of_mem m (Finset.mem_range.mpr (by omega)), if_neg (by omega), if_pos hm]
    · have hpow : x ^ i * x ^ j = -x ^ m := by rw [← pow_add, hm, pow_add, hx]; ring
      linear_combination -(a i * b j) * hpow
    · intro l hl hne
      rw [if_neg (by rw [Finset.mem_range] at hl; omega), if_neg (by omega), zero_mul]

theorem map_negacyclic {R S : Type} [Ring R] [Ring S] (φ : R →+* S) (a b : Nat → R) (m : Nat) :
    φ (negacyclic a b m) = negacyclic (fun i => φ (a i)) (fun i => φ (b i)) m := by
  simp [negacyclic, map_sum, apply_ite φ]

/-- Coefficient `m` of the product of two polynomials in Z[X]/(X^256 + 1). -/
def productCoeff (a b : Poly) (m : Nat) : Int :=
  negacyclic (fun i => ((a.get i).toNat : Int)) (fun i => ((b.get i).toNat : Int)) m

/-- The product of two polynomials in Z_q[X]/(X^256 + 1). -/
def ringProduct (a b : Poly) : Poly :=
  ⟨(List.range 256).map fun m => coeff (productCoeff a b m % Config.q).toNat, by simp⟩

theorem get_ringProduct (a b : Poly) {m : Nat} (hm : m < 256) :
    (((ringProduct a b).get m).toNat : Int) = productCoeff a b m % Config.q := by
  rw [Poly.get_eq_getElem _ hm]
  simp only [ringProduct, List.getElem_map, List.getElem_range]
  rw [coeff_toNat_of_lt (int_emod_toNat_lt _)]
  exact Int.toNat_of_nonneg (Int.emod_nonneg _ (by decide))

theorem ringProduct_canonical (a b : Poly) : (ringProduct a b).canonical := fun x hx => by
  obtain ⟨m, -, rfl⟩ := List.mem_map.mp hx
  rw [coeff_toNat_of_lt (int_emod_toNat_lt _)]
  exact int_emod_toNat_lt _

theorem residue_ringProduct (a b : Poly) {m : Nat} (hm : m < 256) :
    residue ((ringProduct a b).get m) = negacyclic (fun i => residue (a.get i)) (fun i => residue (b.get i)) m :=
  calc residue ((ringProduct a b).get m)
      = ((((ringProduct a b).get m).toNat : Int) : ZMod 3329) := (Int.cast_natCast _).symm
    _ = (productCoeff a b m : ZMod 3329) := by
        rw [get_ringProduct a b hm]
        exact ZMod.intCast_mod _ 3329
    _ = negacyclic (fun i => residue (a.get i)) (fun i => residue (b.get i)) m := by
        simpa [residue, productCoeff] using map_negacyclic (Int.castRingHom (ZMod 3329))
          (fun i => ((a.get i).toNat : Int)) (fun i => ((b.get i).toNat : Int)) m

/-- The transform takes the ring product to the base product. -/
theorem ntt_ringProduct (a b : Poly) : ntt (ringProduct a b) = basemul (ntt a) (ntt b) := by
  refine Poly.eq_of_residue_pairs (ntt_canonical _) (basemul_canonical _ _) fun i hi => pairAt_eq_iff.mp ?_
  rw [pairAt_basemul _ _ hi, pairAt_ntt _ hi, pairAt_ntt _ hi, pairAt_ntt _ hi,
    ← sum_negacyclic_mul_pow _ _ (pairX_pow hi)]
  refine Finset.sum_congr rfl fun m hm => ?_
  rw [residue_ringProduct _ _ (Finset.mem_range.mp hm), map_negacyclic]

/-- Settles O29: the ring product is the inverse transform of its transform, and that is the base product. -/
theorem transformProduct : Obligations.TransformProduct := by
  intro a b m hm
  rw [← ntt_ringProduct, intt_ntt (ringProduct_canonical a b)]
  exact get_ringProduct a b hm

end Sys2Proof.Machine
end

section
/-! The commands of spec/42_ntt.md: their words, and for each its result, its frame and its errors (R185, R186). -/

namespace Sys2Proof.Machine

/-- Settles O47: NTT and INTT check the same source, each for its own domain. -/
theorem nttAndIntt : Obligations.NttAndIntt := by
  intro rd rs1 s
  refine ⟨encodedBy_of_getElem? 7 rfl (Laws.EncodedOpcode.ntt rd rs1),
    encodedBy_of_getElem? 8 rfl (Laws.EncodedOpcode.intt rd rs1),
    fun h => ⟨?_, ?_⟩, fun h => ⟨?_, ?_⟩, fun h => ⟨?_, ?_⟩⟩
  · exact command_writesRegister rd _ _ (by simp [h])
  · exact command_fails _ (by simp [h]) (by decide)
  · exact command_writesRegister rd _ _ (by simp [h])
  · exact command_fails _ (by simp [h]) (by decide)
  · exact command_fails _ (by simp [h]) (by decide)
  · exact command_fails _ (by simp [h]) (by decide)

end Sys2Proof.Machine
end

section
/-! The two samplers: the centered binomial formula and its range (spec/43_sampling.md R210-R212), and the rejection loop
on the part of the stream that is read (R220-R222). -/

namespace Sys2Proof.Machine

open Sys2Proof.Statement

/-! ### The centered binomial sampler -/

/-- How many of the `n` bits of `B` from bit `t` on are 1. -/
def bitCount (B : List Byte) (t n : Nat) : Nat := ∑ j ∈ Finset.range n, (bit B (t + j)).toNat

theorem bitCount_le (B : List Byte) (t n : Nat) : bitCount B t n ≤ n :=
  (Finset.sum_le_card_nsmul _ _ 1 fun _ _ => Bool.toNat_le _).trans_eq (by simp)

/-- Counting in a stretch of the bit string; bits past its end count as 0. -/
theorem count_true_take_drop_bytesToBits (B : List Byte) (t n : Nat) :
    (((bytesToBits B).drop t).take n).count true = bitCount B t n := by
  induction n with
  | zero => simp [bitCount]
  | succ n ih =>
    have hbit : bit B (t + n) = (bytesToBits B)[t + n]?.getD false := by
      rw [← getD_bytesToBits, List.getD_eq_getElem?_getD]
    rw [List.take_add_one, List.count_append, ih, bitCount, bitCount, Finset.sum_range_succ, List.getElem?_drop, hbit]
    rcases (bytesToBits B)[t + n]? with _ | _ | _ <;> rfl

/-- Coefficient `i` of `cbd` is the difference of the counts of its two stretches of eta bits (R210). -/
theorem get_cbd (B : List Byte) (eta : Nat) {i : Nat} (hi : i < 256) :
    (((cbd B eta).get i).toNat : Int) =
      ((bitCount B (2 * i * eta) eta : Int) - bitCount B (2 * i * eta + eta) eta) % Config.q := by
  have hl : ((chunks (2 * eta) 256 (bytesToBits B)).map (cbdCoeff eta)).length = 256 := by simp
  have hstart : 2 * eta * i = 2 * i * eta := Nat.mul_right_comm 2 eta i
  have hpos : min eta (2 * eta) = eta := by omega
  have hneg : 2 * eta - eta = eta := by omega
  rw [Poly.get, cbd, Poly.ofList_coeffs hl, List.getD_eq_getElem _ _ (hl.symm ▸ hi), List.getElem_map, getElem_chunks,
    cbdCoeff, List.take_take, List.drop_take, List.drop_drop, hstart, hpos, hneg, count_true_take_drop_bytesToBits,
    count_true_take_drop_bytesToBits, coeff_toNat_of_lt (int_emod_toNat_lt _)]
  exact Int.toNat_of_nonneg (Int.emod_nonneg _ (by decide))

/-- Settles O32: the difference of the two counts, each at most eta, and PRF is SHAKE256 of seed and nonce. -/
theorem centeredBinomial : Obligations.CenteredBinomial := by
  refine ⟨fun _ _ _ => rfl, fun eta B heta _ i hi => ?_⟩
  have heta' : eta = 2 ∨ eta = 3 := by simpa using heta
  have hget := get_cbd B eta hi
  have hpos := bitCount_le B (2 * i * eta) eta
  have hneg := bitCount_le B (2 * i * eta + eta) eta
  constructor
  · rw [hget, bitCount, bitCount, Nat.cast_sum, Nat.cast_sum]
    rfl
  · rw [show (Config.q : Int) = 3329 from rfl] at hget
    omega

/-! ### The rejection loop -/

/-- The candidates of a stream that are below q, in order (R221). -/
def accepted (S : List Byte) : List Nat := (candidates S).filter (· < Config.q)

/-- The first 256 entries of a list, when there are as many. -/
def firstFull (l : List Nat) : Option (List Nat) := if 256 ≤ l.length then some (l.take 256) else none

/-- Entries behind the first 256 make no difference. -/
theorem firstFull_append_of_full {l : List Nat} (h : l.length = 256) (rest : List Nat) :
    firstFull (l ++ rest) = some l := by
  rw [firstFull, if_pos (by rw [List.length_append]; omega), List.take_left' h]

/-- `parse` gives the first 256 accepted candidates. -/
theorem map_parse (S : List Byte) :
    (parse S).map (fun f => f.coeffs.map BitVec.toNat) = firstFull (accepted S) := by
  have hvalues : ((accepted S).map coeff).map BitVec.toNat = accepted S := by
    rw [List.map_map]
    refine (List.map_congr_left fun x hx => ?_).trans (List.map_id _)
    exact coeff_toNat_of_lt (of_decide_eq_true (List.mem_filter.mp hx).2)
  have hfull : (((accepted S).map coeff).take 256).length = 256 ↔ 256 ≤ (accepted S).length := by simp
  unfold parse
  rw [firstFull, ← accepted]
  by_cases h : 256 ≤ (accepted S).length
  · rw [dif_pos (hfull.mpr h), if_pos h, Option.map_some, List.map_take, hvalues]
  · rw [dif_neg (mt hfull.mp h), if_neg h, Option.map_none]

/-- The loop's `out` after the candidate `d` (R221). -/
def offer (out : List Nat) (d : Nat) : List Nat := if d < 3329 ∧ out.length < 256 then out ++ [d] else out

theorem length_offer_le {out : List Nat} (h : out.length ≤ 256) (d : Nat) : (offer out d).length ≤ 256 := by
  unfold offer
  split
  · next hd => rw [List.length_append, List.length_singleton]; omega
  · exact h

/-- Offering a candidate is putting it in line, if it is below q. -/
theorem firstFull_offer {out : List Nat} (h : out.length ≤ 256) (d : Nat) (rest : List Nat) :
    firstFull (offer out d ++ rest.filter (· < Config.q)) = firstFull (out ++ (d :: rest).filter (· < Config.q)) := by
  have hq : Config.q = 3329 := rfl
  by_cases hd : d < 3329
  · by_cases hfull : out.length < 256
    · simp [offer, hd, hfull, hq]
    · have hlen : out.length = 256 := by omega
      rw [offer, if_neg (fun hc => hfull hc.2), firstFull_append_of_full hlen, firstFull_append_of_full hlen]
  · simp [offer, hd, hq]

/-- One turn of the loop: it offers both candidates of three bytes, while `out` is not full (R221). -/
theorem parseLoop_cons (b0 b1 b2 : Byte) (S : List Byte) {out : List Nat} (h : out.length < 256) :
    parseLoop (b0 :: b1 :: b2 :: S) out = parseLoop S
      (offer (offer out (b0.toNat + 256 * (b1.toNat % 16))) (b1.toNat / 16 + 16 * b2.toNat)) := by
  simp [parseLoop, offer, h]

/-- The loop from any `out` on gives the first 256 of `out` and the accepted candidates. -/
theorem parseLoop_eq_firstFull (S : List Byte) {out : List Nat} (h : out.length ≤ 256) :
    parseLoop S out = firstFull (out ++ accepted S) := by
  induction S using candidates.induct generalizing out with
  | case1 b0 b1 b2 S ih =>
    by_cases hfull : out.length < 256
    · rw [parseLoop_cons _ _ _ _ hfull, ih (length_offer_le (length_offer_le h _) _), accepted, accepted,
        firstFull_offer (length_offer_le h _), firstFull_offer h, candidates]
    · have hlen : out.length = 256 := by omega
      rw [firstFull_append_of_full hlen, parseLoop, if_pos (by omega)]
  | case2 S hshort =>
    rw [accepted, candidates, parseLoop, List.filter_nil, List.append_nil, firstFull, List.take_of_length_le h]
    all_goals exact hshort

/-- Settles O33: `parse` and the loop both give the first 256 accepted candidates. -/
theorem rejectionLoop : Obligations.RejectionLoop :=
  ⟨fun S => (map_parse S).trans (parseLoop_eq_firstFull (out := []) S (Nat.zero_le 256)).symm, fun _ _ _ _ => rfl⟩

end Sys2Proof.Machine
end

section
/-! The commands of spec/43_sampling.md: their words, and for each its result, its frame and its errors (R213, R223), and
the bounded progress of SAMU (R224). -/

namespace Sys2Proof.Machine

/-! ### SCBD -/

/-- The legal values of eta (R105). -/
theorem etaLegal_iff (d : BitVec 4) : etaLegal d = true ↔ d = 2 ∨ d = 3 := by
  revert d; decide

/-- Settles O48: eta is checked first, then the range of the seed. -/
theorem scbd : Obligations.Scbd := by
  intro rd d imm8 a s
  refine ⟨encodedBy_of_getElem? 9 rfl (Laws.EncodedOpcode.scbd rd d imm8 a), fun hd hr => ?_, fun h2 h3 => ?_,
    fun hd hr => ?_⟩
  · have heta := (etaLegal_iff d).mpr hd
    exact command_writesRegister rd .normal _ (by simp [heta, checkRange_pass hr])
  · have heta : etaLegal d = false := Bool.eq_false_iff.mpr fun h => ((etaLegal_iff d).mp h).elim h2 h3
    exact command_fails _ (by simp [heta]) (by decide)
  · have heta := (etaLegal_iff d).mpr hd
    exact command_fails _ (by simp [heta, checkRange_fail hr]) (by decide)

/-! ### SAMU -/

section
variable {s : State} {rd : Reg} {x y : Byte} {a : Half}

/-- SAMU completes when the part of the stream that it reads yields a polynomial (R223). -/
theorem exec_samu_yields {f : Poly} (hr : a.toNat + 32 ≤ s.memBytes)
    (hf : sampleUniform s.streamBlocks (s.memRead a.toNat 32) x y = some f) :
    exec (.samu rd x y a) s = .next (complete .ok (s.setPoly rd .ntt f)) := by
  show execSamu rd x y a s = _
  rw [execSamu, samplingCommand_pass _ (by simp [checkRange_pass hr]), hf, Option.map_some, completeOrSample_some]

/-- SAMU reads further when it does not (R224, log 4). -/
theorem exec_samu_keepSampling (hr : a.toNat + 32 ≤ s.memBytes)
    (hf : sampleUniform s.streamBlocks (s.memRead a.toNat 32) x y = none) :
    exec (.samu rd x y a) s = .next (keepSampling s) := by
  show execSamu rd x y a s = _
  rw [execSamu, samplingCommand_pass _ (by simp [checkRange_pass hr]), hf, Option.map_none, completeOrSample_none]

/-- A seed past MEM_BYTES (R74, R223). -/
theorem exec_samu_addrRange (hr : s.memBytes < a.toNat + 32) :
    exec (.samu rd x y a) s = .next (complete .addrRange s) :=
  samplingCommand_fail _ (by simp [checkRange_fail hr])

end

/-- Settles O49: by whether the part of the stream that is read yields a polynomial. -/
theorem samu : Obligations.Samu := by
  intro rd x y a s
  refine ⟨encodedBy_of_getElem? 10 rfl (Laws.EncodedOpcode.samu rd x y a), fun f hr hf => ?_, fun hr => ?_, fun hr => ?_⟩
  · exact ⟨_, exec_samu_yields hr hf, wroteRegister_complete s rd .ntt f⟩
  · cases hf : sampleUniform s.streamBlocks (s.memRead a.toNat 32) x y with
    | some f =>
      exact ⟨_, exec_samu_yields hr hf, .inl ⟨f, parse_canonical hf, wroteRegister_complete s rd .ntt f⟩⟩
    | none => exact ⟨_, exec_samu_keepSampling hr hf, .inr rfl⟩
  · exact ⟨_, exec_samu_addrRange hr, failedWith_complete (by decide) s⟩

/-! ### A running SAMU completes -/

/-- While BUSY with no schedule given, the step is the latched command's (log 6). -/
theorem step_running {s : State} {i : Instr} (hb : s.run = .busy) (hs : s.sched = []) (hd : decode s.cur = .ok i) :
    step s = exec i s := by
  have hagent : s.agent = .core := by simp [State.agent, hs, isBusy_eq, hb]
  have hsame : { s with sched := s.sched.tail } = s := by rw [hs, List.tail_nil, ← hs]
  rw [step_core hagent, hsame, coreStep_ok hb hd]

/-- Two numbers of blocks that both yield a polynomial yield the same one. -/
theorem sampleUniform_unique {b b' : Nat} {rho : List Byte} {x y : Byte} {f g : Poly}
    (hf : sampleUniform b rho x y = some f) (hg : sampleUniform b' rho x y = some g) : f = g :=
  Option.some.inj ((sampleUniform_mono (le_max_left b b') hf).symm.trans (sampleUniform_mono (le_max_right b b') hg))

/-- `s` is running a SAMU, with no schedule given, whose stream yields `f` in `n` blocks. -/
structure RunsSamu (rd : Reg) (x y : Byte) (a : Half) (n : Nat) (f : Poly) (s : State) : Prop where
  busy : s.run = .busy
  unscheduled : s.sched = []
  latched : decode s.cur = .ok (.samu rd x y a)
  seedInM : a.toNat + 32 ≤ s.memBytes
  yields : sampleUniform n (s.memRead a.toNat 32) x y = some f

section
variable {rd : Reg} {x y : Byte} {a : Half} {n : Nat} {f : Poly} {s : State}

/-- Reading further leaves the command and its stream alone. -/
theorem RunsSamu.afterKeepSampling (h : RunsSamu rd x y a n f s) : RunsSamu rd x y a n f (keepSampling s) := { h with }

/-- What a command wrote after reading further, it wrote. -/
theorem WroteRegister.of_keepSampling {tag : Tag} {nc : Bool} {t : State}
    (h : WroteRegister rd tag f nc (keepSampling s) t) : WroteRegister rd tag f nc s t :=
  { h with completed := { h.completed with control := { h.completed.control with } } }

/-- One step of a running SAMU: it completes with `f`, or it reads further because fewer than `n` blocks were read. -/
theorem RunsSamu.step_cases (h : RunsSamu rd x y a n f s) :
    step s = .next (complete .ok (s.setPoly rd .ntt f)) ∨
      step s = .next (keepSampling s) ∧ s.streamBlocks < n := by
  rw [step_running h.busy h.unscheduled h.latched]
  cases hg : sampleUniform s.streamBlocks (s.memRead a.toNat 32) x y with
  | some g =>
    obtain rfl := sampleUniform_unique hg h.yields
    exact .inl (exec_samu_yields h.seedInM hg)
  | none =>
    refine .inr ⟨exec_samu_keepSampling h.seedInM hg, ?_⟩
    by_contra hn
    exact nomatch hg.symm.trans (sampleUniform_mono (Nat.le_of_not_lt hn) h.yields)

/-- A running SAMU completes within `k + 1` steps, once `k` tries more reach block `n`: each try adds a block at least. -/
theorem RunsSamu.completes {k : Nat} (h : RunsSamu rd x y a n f s) (hk : n ≤ s.streamBlocks + k) :
    ∃ j t, j ≤ k ∧ s.after (j + 1) = .next t ∧ WroteRegister rd .ntt f false s t := by
  induction k generalizing s with
  | zero =>
    rcases h.step_cases with hs | ⟨-, hlt⟩
    · exact ⟨0, _, le_rfl, (after_one s).trans hs, wroteRegister_complete s rd .ntt f⟩
    · omega
  | succ k ih =>
    rcases h.step_cases with hs | ⟨hs, -⟩
    · exact ⟨0, _, Nat.zero_le _, (after_one s).trans hs, wroteRegister_complete s rd .ntt f⟩
    · have hmore : n ≤ (keepSampling s).streamBlocks + k := by
        have : s.streamBlocks + 37 = (keepSampling s).streamBlocks := rfl
        omega
      obtain ⟨j, t, hj, hafter, hwrote⟩ := ih h.afterKeepSampling hmore
      exact ⟨j + 1, t, by omega, (after_succ hs _).trans hafter, hwrote.of_keepSampling⟩

end

/-- Settles O50: by the progress of a running SAMU, with a step for each of the `n` blocks at most. -/
theorem samuCompletes : Obligations.SamuCompletes :=
  fun _ _ _ _ _ _ _ hb hs hd hr hf => RunsSamu.completes ⟨hb, hs, hd, hr, hf⟩ (Nat.le_add_left _ _)

end Sys2Proof.Machine
end

section
/-! Bit packing, bit by bit: a packed string's groups are numbers with the string's bits, and packing undoes unpacking
(spec/44_codec.md R240, R241). -/

namespace Sys2Proof.Machine

open Sys2Proof.Statement

/-- A group is the number of its bits (R241). -/
theorem group_eq_bitsToNat (E : List Byte) (d i : Nat) :
    group E d i = bitsToNat ((List.range d).map fun j => bit E (i * d + j)) := by
  rw [bitsToNat_eq_sum _ d (by simp)]
  refine Finset.sum_congr rfl fun j hj => ?_
  have hj : j < d := Finset.mem_range.mp hj
  simp [List.getD, hj]

/-- Group `i` is what unpacking gives for entry `i` (R241). -/
theorem getD_byteDecode_eq_group (E : List Byte) (d : Nat) {i : Nat} (hi : i < 256) :
    (byteDecode E d).getD i 0 = group E d i := getD_byteDecode E d hi

theorem group_lt (E : List Byte) (d i : Nat) : group E d i < 2 ^ d := by
  rw [group_eq_bitsToNat]
  simpa using bitsToNat_lt ((List.range d).map fun j => bit E (i * d + j))

theorem testBit_group (E : List Byte) {d j : Nat} (i : Nat) (hj : j < d) :
    (group E d i).testBit j = bit E (i * d + j) := by
  rw [group_eq_bitsToNat, testBit_bitsToNat]
  simp [List.getD, hj]

/-- Bit `i d + j` of a packed array is bit `j` of its entry `i` (R240). -/
theorem bit_byteEncode {f : List Nat} {d i j : Nat} (hf : f.length = 256) (h : ∀ x ∈ f, x < 2 ^ d) (hi : i < 256)
    (hj : j < d) : bit (byteEncode f d) (i * d + j) = (f.getD i 0).testBit j := by
  rw [← testBit_group _ i hj]
  exact congrArg (Nat.testBit · j) (group_byteEncode hf h hi)

/-- The bits of the unpacked groups make up the bit string. -/
theorem flatMap_natToBits_byteDecode {E : List Byte} {d : Nat} (hE : E.length = 32 * d) :
    (byteDecode E d).flatMap (natToBits d) = bytesToBits E := by
  have hl : (bytesToBits E).length = d * 256 := by rw [length_bytesToBits, hE]; ring
  have hc : (chunks d 256 (bytesToBits E)).map (fun c => natToBits d (bitsToNat c)) = chunks d 256 (bytesToBits E) := by
    conv_rhs => rw [← List.map_id (chunks d 256 (bytesToBits E))]
    refine List.map_congr_left fun c hm => ?_
    have hcl : c.length = d := length_of_mem_chunks (by omega) hm
    exact hcl ▸ natToBits_bitsToNat c
  rw [byteDecode, List.flatMap_map, List.flatMap_def, hc, flatten_chunks, List.take_of_length_le hl.le]

/-- Packing undoes unpacking (R241). -/
theorem byteEncode_byteDecode {E : List Byte} {d : Nat} (hE : E.length = 32 * d) :
    byteEncode (byteDecode E d) d = E := by
  rw [byteEncode, flatMap_natToBits_byteDecode hE, ← hE, bitsToBytes_bytesToBits]

/-- Settles O34: entry and group are the same number, read as bits or as a sum of bits. -/
theorem bitPacking : Obligations.BitPacking :=
  ⟨fun _ _ => rfl, fun _ _ _ =>
    ⟨fun f hf h => ⟨length_byteEncode f _, fun _ hi _ hj => bit_byteEncode hf h hi hj, byteDecode_byteEncode hf h⟩,
      fun E hE => ⟨length_byteDecode E _, fun i hi => ⟨getD_byteDecode_eq_group E _ hi, group_lt E _ i⟩,
        byteEncode_byteDecode hE⟩⟩⟩

end Sys2Proof.Machine
end

section
/-! Compression: the integer forms are the rounded quotients, the error of a round trip, and the message codec, its case
of width 1 (spec/44_codec.md R244-R246, R249). -/

namespace Sys2Proof.Machine

open Sys2Proof.Statement

/-! ### Rounded quotients (R15) -/

/-- The rounded quotient of two numbers, in integers; halves go up. -/
def roundDiv (a b : Nat) : Nat := (2 * a + b) / (2 * b)

theorem floor_div_add_half (a : Nat) {b : Nat} (hb : 0 < b) : ⌊(a : ℚ) / b + 1 / 2⌋₊ = roundDiv a b := by
  have hb' : (b : ℚ) ≠ 0 := by positivity
  rw [roundDiv, ← Nat.floor_div_eq_div (K := ℚ)]
  congr 1
  push_cast
  field_simp

/-- A rounded quotient is within half a unit of the quotient. -/
theorem roundDiv_bounds (a : Nat) {b : Nat} (hb : 0 < b) :
    2 * (b * roundDiv a b) ≤ 2 * a + b ∧ 2 * a + b < 2 * (b * roundDiv a b) + 2 * b := by
  rw [← Nat.mul_assoc]
  exact ⟨Nat.mul_div_le _ _, Nat.lt_mul_div_succ _ (by omega)⟩

theorem roundDiv_mul_self (c : Nat) {b : Nat} (hb : 0 < b) : roundDiv (c * b) b = c := by
  obtain ⟨hle, hlt⟩ := roundDiv_bounds (c * b) hb
  apply le_antisymm <;> exact Nat.lt_succ_iff.mp (Nat.lt_of_mul_lt_mul_left (a := b) (by linarith))

/-- A quotient is a half-integer when twice it is odd. -/
theorem div_eq_add_half_iff (a k : Nat) {b : Nat} (hb : 0 < b) :
    (a : ℚ) / b = k + 1 / 2 ↔ 2 * a = (2 * k + 1) * b := by
  have hb' : (b : ℚ) ≠ 0 := by positivity
  rw [div_eq_iff hb', ← Nat.cast_inj (R := ℚ)]
  push_cast
  constructor <;> intro h <;> linarith

/-! ### Compression and decompression (R244, R245) -/

theorem compress_eq_roundDiv (x d : Nat) : compress x d = roundDiv (x * 2 ^ d) 3329 % 2 ^ d := by
  rw [compress, roundDiv, Nat.pow_succ, ← Nat.mul_assoc, Nat.mul_comm _ 2]
  rfl

theorem decompress_eq_roundDiv (y d : Nat) : decompress y d = roundDiv (y * 3329) (2 ^ d) := by
  rw [decompress, roundDiv, Nat.pow_succ, Nat.mul_assoc, Nat.mul_comm (2 ^ d) 2]
  rfl

/-- compress is the rounded quotient (R244). -/
theorem compress_eq_floor (x d : Nat) : compress x d = ⌊(x : ℚ) * 2 ^ d / 3329 + 1 / 2⌋₊ % 2 ^ d := by
  rw [compress_eq_roundDiv, ← floor_div_add_half _ (by decide)]
  push_cast
  rfl

/-- Compression meets no tie: an odd multiple of q is not even (R244). -/
theorem compress_no_tie (x d k : Nat) : (x : ℚ) * 2 ^ d / 3329 ≠ k + 1 / 2 := by
  have h := (div_eq_add_half_iff (x * 2 ^ d) k (b := 3329) (by decide)).not
  push_cast at h
  rw [ne_eq, h]
  omega

/-- decompress is the rounded quotient (R245). -/
theorem decompress_eq_floor (y d : Nat) : decompress y d = ⌊(y : ℚ) * 3329 / 2 ^ d + 1 / 2⌋₊ := by
  rw [decompress_eq_roundDiv, ← floor_div_add_half _ (by positivity)]
  push_cast
  rfl

/-- The one tie of decompression is in the middle of the range (R245). -/
theorem decompress_tie_iff {y d : Nat} (hd : 1 ≤ d) (hy : y < 2 ^ d) :
    (∃ k : ℕ, (y : ℚ) * 3329 / 2 ^ d = k + 1 / 2) ↔ y = 2 ^ (d - 1) := by
  obtain ⟨e, rfl⟩ : ∃ e, d = e + 1 := ⟨d - 1, by omega⟩
  have h : ∀ k : ℕ, (y : ℚ) * 3329 / 2 ^ (e + 1) = k + 1 / 2 ↔ y * 3329 = (2 * k + 1) * 2 ^ e := fun k => by
    have h := div_eq_add_half_iff (y * 3329) k (b := 2 ^ (e + 1)) (by positivity)
    push_cast at h
    rw [h, Nat.pow_succ]
    constructor <;> intro h <;> linarith
  simp only [h, Nat.add_sub_cancel]
  constructor
  · rintro ⟨k, hk⟩
    have hdvd : 2 ^ e ∣ y :=
      (Nat.Coprime.pow_left e (by decide : Nat.Coprime 2 3329)).dvd_of_dvd_mul_right (hk ▸ Nat.dvd_mul_left _ _)
    obtain ⟨m, rfl⟩ := hdvd
    have hpos : 0 < 2 ^ e := by positivity
    have hm : m < 2 := Nat.lt_of_mul_lt_mul_left (by rwa [Nat.pow_succ] at hy)
    have hodd : m * 3329 = 2 * k + 1 := Nat.eq_of_mul_eq_mul_left hpos (by linarith)
    rw [show m = 1 by omega, Nat.mul_one]
  · rintro rfl
    exact ⟨1664, Nat.mul_comm _ _⟩

/-- Settles O35: both are integer forms of rounded quotients, whose ties parity decides. -/
theorem compressionRounding : Obligations.CompressionRounding := fun d h1 h11 =>
  ⟨fun x _ => ⟨compress_eq_floor x d, compress_no_tie x d⟩,
    fun y hy => ⟨decompress_eq_floor y d, decompress_lt hy h11, decompress_tie_iff h1 hy⟩⟩

/-! ### The error of a round trip (R246) -/

/-- The bound of R246, in integers. -/
def errorBound (d : Nat) : Nat := roundDiv 3329 (2 ^ (d + 1))

theorem floor_eq_errorBound (d : Nat) : ⌊(3329 : ℚ) / 2 ^ (d + 1) + 1 / 2⌋₊ = errorBound d := by
  rw [errorBound, ← floor_div_add_half _ (by positivity)]
  push_cast
  rfl

/-- Before it wraps, compression gives at most 2^d. -/
theorem roundDiv_compress_le {x : Nat} (hx : x < 3329) (d : Nat) : roundDiv (x * 2 ^ d) 3329 ≤ 2 ^ d := by
  have hN : x * 2 ^ d ≤ 3328 * 2 ^ d := Nat.mul_le_mul_right _ (by omega)
  rw [roundDiv]
  omega

/-- Rounding to a multiple of q / 2^d moves a coefficient by q / 2^(d+1) at most, and rounding back by half a unit. -/
theorem decompress_roundDiv_bounds (x d : Nat) :
    x ≤ decompress (roundDiv (x * 2 ^ d) 3329) d + errorBound d ∧
      decompress (roundDiv (x * 2 ^ d) 3329) d ≤ x + errorBound d := by
  rw [decompress_eq_roundDiv, errorBound]
  obtain ⟨hc, hc'⟩ := roundDiv_bounds (x * 2 ^ d) (b := 3329) (by decide)
  obtain ⟨hD, hD'⟩ := roundDiv_bounds (roundDiv (x * 2 ^ d) 3329 * 3329) (b := 2 ^ d) (by positivity)
  have hB := (roundDiv_bounds 3329 (b := 2 ^ (d + 1)) (by positivity)).2
  rw [Nat.pow_succ] at hB ⊢
  constructor <;> exact Nat.lt_succ_iff.mp (Nat.lt_of_mul_lt_mul_left (a := 2 ^ d) (by linarith))

/-- 2^d stands for q itself, the residue that 0 stands for. -/
theorem decompress_two_pow (d : Nat) : decompress (2 ^ d) d = 3329 := by
  rw [decompress_eq_roundDiv, Nat.mul_comm, roundDiv_mul_self _ (by positivity)]

theorem decompress_zero (d : Nat) : decompress 0 d = 0 := by
  simpa [decompress_eq_roundDiv] using roundDiv_mul_self 0 (b := 2 ^ d) (by positivity)

theorem ringDistance_le {a b e : Nat} (ha : a < 3329) (hb : b < 3329) (h1 : b ≤ a + e) (h2 : a ≤ b + e) :
    ringDistance a b ≤ e := by
  rw [ringDistance, min_le_iff]
  omega

theorem ringDistance_zero_le {b e : Nat} (hb : b < 3329) (h : 3329 ≤ b + e) : ringDistance 0 b ≤ e := by
  rw [ringDistance, min_le_iff]
  omega

/-- No coefficient is further than the bound from its decompressed compression (R246). -/
theorem ringDistance_decompress_compress_le {x d : Nat} (hx : x < 3329) (hd : d ≤ 11) :
    ringDistance (decompress (compress x d) d) x ≤ errorBound d := by
  obtain ⟨hlow, hhigh⟩ := decompress_roundDiv_bounds x d
  rw [compress_eq_roundDiv]
  rcases (roundDiv_compress_le hx d).lt_or_eq with hlt | heq
  · rw [Nat.mod_eq_of_lt hlt]
    exact ringDistance_le (decompress_lt hlt hd) hx hlow hhigh
  · rw [heq, decompress_two_pow] at hhigh
    rw [heq, Nat.mod_self, decompress_zero]
    exact ringDistance_zero_le hx hhigh

/-- For each width from 1, a coefficient at the largest distance; those of widths 8, 10 and 11 are R246's examples. -/
def farthestInputs : List Nat := [832, 416, 208, 104, 52, 26, 13, 1658, 3, 5, 1]

theorem farthestInput_reaches_errorBound : ∀ d < 12, 1 ≤ d →
    farthestInputs.getD (d - 1) 0 < 3329 ∧
      ringDistance (decompress (compress (farthestInputs.getD (d - 1) 0) d) d) (farthestInputs.getD (d - 1) 0) =
        errorBound d := by decide

/-- Settles O36: the bound by rounding twice, and a coefficient for each width that reaches it. -/
theorem compressionErrorBound : Obligations.CompressionErrorBound := by
  intro d h1 h11
  rw [floor_eq_errorBound]
  exact ⟨fun x hx => ringDistance_decompress_compress_le hx h11,
    _, farthestInput_reaches_errorBound d (by omega) h1⟩

/-! ### The message codec (R249) -/

theorem compress_one_eq_one_iff {x : Nat} (hx : x < 3329) : compress x 1 = 1 ↔ 833 ≤ x ∧ x ≤ 2496 := by
  have h : compress x 1 = (x * 4 + 3329) / 6658 % 2 := rfl
  omega

/-- A coefficient within 831 of a decoded bit compresses to that bit. -/
theorem compress_one_of_ringDistance_le {x : Nat} {b : Bool} (hx : x < 3329)
    (h : ringDistance x (if b then 1665 else 0) ≤ 831) : compress x 1 = b.toNat := by
  have hc := compress_one_eq_one_iff hx
  have hlt : compress x 1 < 2 := compress_lt x 1
  rw [ringDistance, min_le_iff] at h
  cases b
  · simp only [Bool.false_eq_true, if_false] at h
    show compress x 1 = 0
    omega
  · simp only [if_true] at h
    show compress x 1 = 1
    omega

/-- Byte strings of one length with the same bits are equal. -/
theorem eq_of_bit_eq {A B : List Byte} (hl : A.length = B.length) (h : ∀ t < 8 * A.length, bit A t = bit B t) :
    A = B := by
  have hbits : bytesToBits A = bytesToBits B := by
    refine List.ext_getElem (by simp [hl]) fun t h1 h2 => ?_
    have ht := h t (by simpa using h1)
    rwa [← getD_bytesToBits, ← getD_bytesToBits, List.getD_eq_getElem _ _ h1, List.getD_eq_getElem _ _ h2] at ht
  rw [← bitsToBytes_bytesToBits A, ← bitsToBytes_bytesToBits B, hbits, hl]

/-- The margin of 831: noise up to it leaves the message as it was. -/
theorem msgEncode_eq_of_ringDistance_le {m : List Byte} {w : Poly} (hm : m.length = 32) (hw : w.canonical)
    (h : ∀ i < 256, ringDistance (w.get i).toNat ((msgDecode m).get i).toNat ≤ 831) : msgEncode w = m := by
  refine eq_of_bit_eq (by simp [hm]) fun t ht => ?_
  have ht : t < 256 := by simpa using ht
  have hd := h t ht
  rw [get_msgDecode m ht] at hd
  have hbit : (bit (msgEncode w) t).toNat = (bit m t).toNat :=
    (bit_msgEncode w ht).trans (compress_one_of_ringDistance_le (hw.get t) hd)
  rw [Bool.eq_iff_iff, ← Bool.toNat_eq_one, hbit, Bool.toNat_eq_one]

/-- Settles O37: bit by bit, by the decision interval of width 1. -/
theorem messageCodec : Obligations.MessageCodec :=
  ⟨fun _ hx => compress_one_eq_one_iff hx, fun m _ _ hi => get_msgDecode m hi,
    fun w => ⟨length_msgEncode w, fun _ hi => bit_msgEncode w hi⟩,
    fun _ _ hm hw h => msgEncode_eq_of_ringDistance_le hm hw h⟩

end Sys2Proof.Machine
end

section
/-! The commands of spec/44_codec.md: their words, and for each what it stores or writes, its frame and its errors (R242,
R243, R247, R248). -/

namespace Sys2Proof.Machine

open Sys2Proof.Statement

/-! ### The legal field values (R105) -/

theorem tagCodeLegal_of_le_one {d : BitVec 4} (h : d.toNat ≤ 1) : tagCodeLegal d = true := decide_eq_true h

theorem widthLegal_of_mem {d : BitVec 4} (h1 : 1 ≤ d.toNat) (h11 : d.toNat ≤ 11) : widthLegal d = true :=
  decide_eq_true ⟨h1, h11⟩

theorem widthLegal_of_not_mem {d : BitVec 4} (h : d.toNat = 0 ∨ 12 ≤ d.toNat) : widthLegal d = false :=
  decide_eq_false (by omega)

/-! ### Storing -/

/-- ENC12 inside M with a written source (R242). -/
theorem exec_enc12_stores {rs1 : Reg} {a : Half} {s : State} (hm : Memory.wf s.mem = true)
    (hr : a.toNat + 384 ≤ s.memBytes) (ht : (s.poly rs1).tag ≠ .empty) :
    ∃ t, exec (.enc12 rs1 a) s = .next t ∧ WroteBytes a.toNat (enc12 (s.poly rs1).f) s t :=
  ⟨_, command_pass _ (by simp [checkRange_pass hr, ht]), wroteBytes_complete hm _ _⟩

/-- Settles O51: the range is checked first, then the source. -/
theorem enc12_effect : Obligations.Enc12 := by
  intro rs1 a s hm
  refine ⟨encodedBy_of_getElem? 11 rfl (Laws.EncodedOpcode.enc12 rs1 a), fun hr ht => ?_, fun hr => ?_, fun hr ht => ?_⟩
  · obtain ⟨t, hs, hw⟩ := exec_enc12_stores hm hr ht
    exact ⟨t, _, hs, length_enc12 _, hw, fun _ hi => group_enc12 _ hi⟩
  · exact command_fails _ (by simp [checkRange_fail hr]) (by decide)
  · exact command_fails _ (by simp [checkRange_pass hr, ht]) (by decide)

/-- Settles O53: width, range, source and tag are checked in this order. -/
theorem cenc_effect : Obligations.Cenc := by
  intro rs1 d a s hm
  refine ⟨encodedBy_of_getElem? 13 rfl (Laws.EncodedOpcode.cenc rs1 d a), fun h1 h11 hr ht => ?_, fun hd => ?_,
    fun h1 h11 => ?_⟩
  · have hd := widthLegal_of_mem h1 h11
    exact ⟨_, _, command_pass _ (by simp [hd, checkRange_pass hr, ht]), length_cenc _ _, wroteBytes_complete hm _ _,
      fun _ hi => group_cenc _ _ hi⟩
  · exact command_fails _ (by simp [widthLegal_of_not_mem hd]) (by decide)
  · have hd := widthLegal_of_mem h1 h11
    refine ⟨fun hr => command_fails _ ?_ (by decide), fun hr ht => command_fails _ ?_ (by decide),
      fun hr ht => command_fails _ ?_ (by decide)⟩
    · simp [hd, checkRange_fail hr]
    · simp [hd, checkRange_pass hr, ht]
    · simp [hd, checkRange_pass hr, ht]

/-! ### Loading -/

/-- Settles O54: the width is checked first, then the range, and no content of M is an error. -/
theorem cdec_effect : Obligations.Cdec := by
  intro rd d a s
  refine ⟨encodedBy_of_getElem? 14 rfl (Laws.EncodedOpcode.cdec rd d a), fun h1 h11 hr => ?_, fun hd => ?_,
    fun h1 h11 hr => ?_⟩
  · have hd := widthLegal_of_mem h1 h11
    refine ⟨_, _, command_pass _ (by simp [hd, checkRange_pass hr]), wroteRegister_complete s rd .normal _,
      fun i hi => ?_⟩
    rw [get_cdec _ h11 hi, getD_byteDecode_eq_group _ _ hi]
  · exact command_fails _ (by simp [widthLegal_of_not_mem hd]) (by decide)
  · have hd := widthLegal_of_mem h1 h11
    exact command_fails _ (by simp [hd, checkRange_fail hr]) (by decide)

/-- Some group is 3329 or more (R243). -/
theorem nonCanonical12_iff (B : List Byte) : nonCanonical12 B = true ↔ ∃ i < 256, 3329 ≤ group B 12 i := by
  have h : ∀ i (hi : i < (byteDecode B 12).length), (byteDecode B 12)[i] = group B 12 i := fun i hi => by
    rw [← List.getD_eq_getElem _ 0 hi, getD_byteDecode_eq_group _ _ (by simpa using hi)]
  rw [nonCanonical12, List.any_eq_true]
  constructor
  · rintro ⟨x, hx, hq⟩
    obtain ⟨i, hi, rfl⟩ := List.getElem_of_mem hx
    exact ⟨i, by simpa using hi, h i hi ▸ of_decide_eq_true hq⟩
  · rintro ⟨i, hi, hq⟩
    have hi : i < (byteDecode B 12).length := by simpa using hi
    exact ⟨_, List.getElem_mem hi, decide_eq_true (h i hi ▸ hq)⟩

/-- A command that writes a register and notes what it met in NCAN. -/
theorem wroteRegister_noteNcan (s : State) (rd : Reg) (tag : Tag) (f : Poly) (nc : Bool) :
    WroteRegister rd tag f nc s (complete .ok ((s.setPoly rd tag f).noteNcan nc)) where
  completed := completedWith_complete _ ((sameControl_setPoly s rd tag f).trans (effect_noteNcan _ nc).control)
  result := by simp
  others := fun r h => by simp [setPoly_poly, h]
  memory := fun _ => rfl
  scratch := rfl
  ncan := rfl

/-- DEC12 inside M with a legal tag code (R243). -/
theorem exec_dec12_loads {rd : Reg} {d : BitVec 4} {a : Half} {s : State} (hd : d.toNat ≤ 1)
    (hr : a.toNat + 384 ≤ s.memBytes) :
    ∃ t, exec (.dec12 rd d a) s = .next t ∧
      WroteRegister rd (tagOfCode d) (dec12 (s.memRead a.toNat 384)) (nonCanonical12 (s.memRead a.toNat 384)) s t :=
  ⟨_, command_pass _ (by simp [tagCodeLegal_of_le_one hd, checkRange_pass hr]), wroteRegister_noteNcan s rd _ _ _⟩

/-- Unpacking the 12-bit packing of a canonical polynomial gives it back (R242, R243). -/
theorem dec12_enc12 {f : Poly} (hf : f.canonical) : dec12 (enc12 f) = f :=
  Poly.ext_get fun i hi => by
    apply BitVec.eq_of_toNat_eq
    rw [get_dec12 _ hi, getD_byteDecode _ _ hi, group_enc12 f hi, Nat.mod_eq_of_lt (hf.get i)]

theorem nonCanonical12_enc12 {f : Poly} (hf : f.canonical) : nonCanonical12 (enc12 f) = false := by
  refine Bool.eq_false_iff.mpr fun h => ?_
  obtain ⟨i, hi, hq⟩ := (nonCanonical12_iff _).mp h
  rw [group, group_enc12 f hi] at hq
  exact absurd (hf.get i) (Nat.not_lt.mpr hq)

/-- DEC12 after ENC12 with the same tag restores the register (R243). -/
theorem dec12_after_enc12 {r : Reg} {d : BitVec 4} {a : Half} {s : State} (h : s.Inv) (hd : d.toNat ≤ 1)
    (ht : (s.poly r).tag = tagOfCode d) (hr : a.toNat + 384 ≤ s.memBytes) :
    ∃ t u, exec (.enc12 r a) s = .next t ∧ exec (.dec12 r d a) t = .next u ∧ u.poly r = s.poly r ∧
      SamePolys s u ∧ u.status.ncan = s.status.ncan := by
  have hf := h.canonical r
  obtain ⟨t, hs, hw⟩ := exec_enc12_stores h.memoryOk.1 hr (ht ▸ tagOfCode_ne_empty d)
  obtain ⟨u, hs', hw'⟩ := exec_dec12_loads (rd := r) hd (hw.completed.control.memBytes ▸ hr)
  have hread : t.memRead a.toNat 384 = enc12 (s.poly r).f := length_enc12 (s.poly r).f ▸ hw.result
  rw [hread, dec12_enc12 hf, nonCanonical12_enc12 hf, ← ht] at hw'
  have hu : u.poly r = s.poly r := hw'.result
  refine ⟨t, u, hs, hs', hu, fun r' => ?_, ?_⟩
  · by_cases hr' : r' = r
    · rw [hr', hu]
    · exact (hw'.others r' hr').trans (hw.polys r')
  · rw [hw'.ncan, Bool.or_false, hw.ncan]

/-- Settles O52: the tag code is checked first, then the range; the round trip by what ENC12 stores. -/
theorem dec12_effect : Obligations.Dec12 := by
  refine ⟨fun rd d a s => ⟨encodedBy_of_getElem? 12 rfl (Laws.EncodedOpcode.dec12 rd d a), fun hd hr => ?_, fun hd => ?_,
    fun hd hr => ?_⟩, fun r d a s h hd ht hr => dec12_after_enc12 h hd ht hr⟩
  · obtain ⟨t, hs, hw⟩ := exec_dec12_loads hd hr
    exact ⟨t, _, _, hs, hw, fun i hi => by rw [get_dec12 _ hi, getD_byteDecode_eq_group _ _ hi, Config.q],
      nonCanonical12_iff _⟩
  · exact command_fails _ (by simp [tagCodeLegal_of_two_le hd]) (by decide)
  · exact command_fails _ (by simp [tagCodeLegal_of_le_one hd, checkRange_fail hr]) (by decide)

end Sys2Proof.Machine
end

section
/-! Keccak-f[1600]: the lanes of a string of 200 bytes, bit by bit, and the steps of a round, lane by lane
(spec/45_hash.md R280-R286). -/

namespace Sys2Proof.Machine

/-! ### Strings in pieces -/

/-- The pieces of a list, each as its part of the list. -/
theorem chunks_eq_map_range {α : Type} (m count : Nat) (l : List α) :
    chunks m count l = (List.range count).map fun i => (l.drop (m * i)).take m :=
  List.ext_getElem (by simp) fun i h _ => by simp [getElem_chunks m count l i h]

/-- Entry `j` of the piece that entry `i` of a list gives, when every piece is `m` long. -/
theorem getD_flatMap {α β : Type} {f : α → List β} {m i j : Nat} (hf : ∀ x, (f x).length = m) {l : List α} (d : β)
    (hi : i < l.length) (hj : j < m) : (l.flatMap f).getD (m * i + j) d = (f l[i]).getD j d := by
  rw [List.flatMap_def, getD_flatten d hj (by simp [hf])]
  simp [List.getD, hi]

/-! ### Lanes and bytes (R280) -/

theorem bit_cons_of_lt (b : Byte) (B : List Byte) {t : Nat} (h : t < 8) : bit (b :: B) t = b.getLsbD t := by
  simp [bit, Nat.div_eq_of_lt h, Nat.mod_eq_of_lt h]

/-- The bits of the number of a byte string are those of the string. -/
theorem testBit_bytesToNat (B : List Byte) (t : Nat) : (bytesToNat B).testBit t = bit B t := by
  induction B generalizing t with
  | nil => simp [bytesToNat, bit]
  | cons b B ih =>
    rw [bytesToNat, Nat.add_comm, show 256 = 2 ^ 8 from rfl, Nat.testBit_two_pow_mul_add _ b.isLt]
    split
    · next h => rw [bit_cons_of_lt b B h, BitVec.testBit_toNat]
    · next h =>
      obtain ⟨u, rfl⟩ : ∃ u, t = 8 + u := ⟨t - 8, by omega⟩
      rw [Nat.add_sub_cancel_left, ih]
      exact bit_drop (b :: B) 1 u

/-- Lane A[x][y] is the number of its 8 bytes. -/
theorem lane_lanesOfBytes (S : List Byte) (x y : Fin 5) : lane (lanesOfBytes S) x y =
    BitVec.ofNat 64 (bytesToNat (slice S (8 * (x.val + 5 * y.val)) 8)) := by
  rw [lanesOfBytes, NatKeccak.lane_lanes, chunks_eq_map_range, List.map_map, getD_map_range _ _ _ (by omega)]
  rfl

/-- Bit `8 j + b` of a lane is bit `b` of its byte `j`. -/
theorem getLsbD_lane_lanesOfBytes (S : List Byte) (x y : Fin 5) {j b : Nat} (hj : j < 8) (hb : b < 8) :
    (lane (lanesOfBytes S) x y).getLsbD (8 * j + b) = (S.getD (8 * (x.val + 5 * y.val) + j) 0).getLsbD b := by
  have ht : 8 * j + b < 64 := by omega
  rw [lane_lanesOfBytes, BitVec.getLsbD_ofNat, testBit_bytesToNat, bit_slice _ _ ht, decide_eq_true ht, Bool.true_and,
    bit]
  congr 2 <;> omega

/-- Byte `j` of lane A[x][y] in the string of the lanes. -/
theorem getD_bytesOfLanes (A : KState) (x y : Fin 5) {j : Nat} (hj : j < 8) :
    (bytesOfLanes A).getD (8 * (x.val + 5 * y.val) + j) 0 = (lane A x y).extractLsb' (8 * j) 8 := by
  have hrow : ∀ row : Vector Lane 5, (row.toList.flatMap laneToBytes).length = 40 := fun row => by
    rw [length_flatMap_const length_laneToBytes, Vector.length_toList]
  rw [bytesOfLanes, show 8 * (x.val + 5 * y.val) + j = 40 * y.val + (8 * x.val + j) by ring,
    getD_flatMap hrow 0 (by simp) (by omega), getD_flatMap length_laneToBytes 0 (by simp) hj, laneToBytes,
    getD_map_range _ _ _ hj]
  simp [lane]

theorem KState.ext_lane {A B : KState} (h : ∀ x y, lane A x y = lane B x y) : A = B :=
  Vector.ext fun y hy => Vector.ext fun x hx => h ⟨x, hx⟩ ⟨y, hy⟩

/-- The lanes of the string of the lanes are the lanes. -/
theorem lanesOfBytes_bytesOfLanes (A : KState) : lanesOfBytes (bytesOfLanes A) = A := by
  refine KState.ext_lane fun x y => BitVec.eq_of_getLsbD_eq fun t ht => ?_
  have hj : t / 8 < 8 := by omega
  have hb : t % 8 < 8 := by omega
  rw [← Nat.div_add_mod t 8, getLsbD_lane_lanesOfBytes _ _ _ hj hb, getD_bytesOfLanes A x y hj]
  simp [hb]

/-! ### The round (R281-R286) -/

/-- θ (R281). -/
theorem lane_theta (A : KState) (x y : Fin 5) : lane (theta A) x y = lane A x y ^^^
    ((lane A (x - 1) 0 ^^^ lane A (x - 1) 1 ^^^ lane A (x - 1) 2 ^^^ lane A (x - 1) 3 ^^^ lane A (x - 1) 4) ^^^
      (lane A (x + 1) 0 ^^^ lane A (x + 1) 1 ^^^ lane A (x + 1) 2 ^^^ lane A (x + 1) 3 ^^^
        lane A (x + 1) 4).rotateLeft 1) := by
  rw [theta, NatKeccak.lane_lanes, NatKeccak.five_get, NatKeccak.five_get, NatKeccak.five_get]

/-- ρ and π by the lane that is moved (R283); the model's `i + 3 * j` inverts `j = 2x + 3y` at `i = y`. -/
theorem lane_rhoPi (A : KState) (x y : Fin 5) :
    lane (rhoPi A) y (2 * x + 3 * y) = (lane A x y).rotateLeft (rotationOffsets[y][x]) := by
  have hinv : ∀ x y : Fin 5, y + 3 * (2 * x + 3 * y) = x := by decide
  rw [rhoPi, NatKeccak.lane_lanes]
  simp only [hinv]

/-- ι changes lane A[0][0] only (R285). -/
theorem lane_iota (A : KState) (rc : Lane) (x y : Fin 5) :
    lane (iota rc A) x y = if x = 0 ∧ y = 0 then lane A 0 0 ^^^ rc else lane A x y := by
  by_cases hy : y = 0
  · subst hy
    by_cases hx : x = 0
    · subst hx; simpa using NatKeccak.lane_iota0 rc A
    · simpa [hx] using NatKeccak.lane_iotaX rc A x hx
  · simpa [hy] using NatKeccak.lane_iotaY rc A x y hy

/-- The 24 rounds by their number (R286). -/
theorem keccakF_eq_foldl_range (A : KState) : keccakF A =
    (List.range 24).foldl (fun A ir => iota (roundConstants.getD ir 0) (chi (rhoPi (theta A)))) A := by
  have hrc : roundConstants = (List.range 24).map (roundConstants.getD · 0) := by decide
  rw [keccakF, hrc, List.foldl_map, ← hrc]
  rfl

/-- Settles O30: the bytes of a lane by bits, and each step by its lanes. -/
theorem keccakPermutation : Obligations.KeccakPermutation :=
  ⟨fun S x y _ _ _ hj hb => getLsbD_lane_lanesOfBytes S x y hj hb,
    fun A => ⟨length_bytesOfLanes A, lanesOfBytes_bytesOfLanes A⟩,
    fun A x y => ⟨lane_theta A x y, lane_rhoPi A x y, NatKeccak.lane_lanes _ x y, fun rc => lane_iota A rc x y⟩,
    keccakF_eq_foldl_range⟩

end Sys2Proof.Machine
end

section
/-! The sponge byte by byte: what padding, absorption and squeezing give, and the hashes bound to it (spec/45_hash.md
R287-R292). -/

namespace Sys2Proof.Machine

/-! ### Padding and absorbing (R287) -/

/-- The number of zero bytes of the padding. -/
def padZeros (n r : Nat) : Nat := (r - (n + 1) % r) % r

theorem padZeros_lt (n : Nat) {r : Nat} (h : 0 < r) : padZeros n r < r := Nat.mod_lt _ h

/-- The padded length is a whole number of blocks. -/
theorem dvd_add_padZeros (n : Nat) {r : Nat} (h : 0 < r) : r ∣ n + 1 + padZeros n r := by
  have hlt : (n + 1) % r ≤ r := (Nat.mod_lt _ h).le
  rw [Nat.dvd_iff_mod_eq_zero, padZeros, Nat.add_mod_mod, ← Nat.mod_add_mod, Nat.add_sub_cancel' hlt, Nat.mod_self]

theorem pad_eq (Mg : List Byte) (r : Nat) (sfx : Byte) : pad Mg r sfx =
    (Mg ++ sfx :: List.replicate (padZeros Mg.length r) 0).modify (Mg.length + padZeros Mg.length r)
      (· ||| 0x80) := by
  rw [pad, ← padZeros]
  simp

theorem length_pad (Mg : List Byte) (r : Nat) (sfx : Byte) :
    (pad Mg r sfx).length = Mg.length + 1 + padZeros Mg.length r := by
  simp [pad_eq]; omega

/-- The string before the last byte's top bit is set. -/
theorem getD_append_suffix (Mg : List Byte) (sfx : Byte) (z i : Nat) :
    (Mg ++ sfx :: List.replicate z 0).getD i 0 =
      if i < Mg.length then Mg.getD i 0 else if i = Mg.length then sfx else 0 := by
  split
  · next h => rw [List.getD_append _ _ _ _ h]
  · next h =>
    obtain ⟨j, rfl⟩ : ∃ j, i = Mg.length + j := ⟨i - Mg.length, by omega⟩
    rw [List.getD_append_right _ _ _ _ (by omega), Nat.add_sub_cancel_left]
    cases j <;> simp

/-- Byte `i` of the padded string. -/
theorem getD_pad (Mg : List Byte) (r : Nat) (sfx : Byte) {i : Nat} (hi : i < Mg.length + 1 + padZeros Mg.length r) :
    (pad Mg r sfx).getD i 0 = (if i < Mg.length then Mg.getD i 0 else if i = Mg.length then sfx else 0) |||
      (if i = Mg.length + padZeros Mg.length r then 0x80 else 0) := by
  rw [← getD_append_suffix Mg sfx (padZeros Mg.length r), pad_eq, List.getD_eq_getElem _ _ (by simp; omega),
    List.getElem_modify, List.getD_eq_getElem _ _ (by simp; omega)]
  by_cases h : Mg.length + padZeros Mg.length r = i
  · simp [h]
  · simp [h, Ne.symm h]

/-- A block is XORed into the first bytes, and the rest is kept. -/
theorem getD_xorBlock {S block : List Byte} (hl : block.length ≤ S.length) {i : Nat} (hi : i < S.length) :
    (xorBlock S block).getD i 0 = if i < block.length then S.getD i 0 ^^^ block.getD i 0 else S.getD i 0 := by
  rw [xorBlock, getD_zipWith _ _ _ 0 0 _ hi (by simp; omega)]
  split
  · next h => rw [List.getD_append _ _ _ _ h]
  · next h =>
    rw [List.getD_append_right _ _ _ _ (by omega), List.getD_replicate _ (by omega)]
    exact BitVec.xor_zero

/-- Absorption takes the blocks of the padded string in order. -/
theorem absorb_eq_foldl_range (Mg : List Byte) (r : Nat) (sfx : Byte) : absorb Mg r sfx =
    (List.range ((pad Mg r sfx).length / r)).foldl
      (fun S i => keccakBytes (xorBlock S (((pad Mg r sfx).drop (r * i)).take r))) (List.replicate 200 0) := by
  rw [absorb, chunks_eq_map_range, List.foldl_map]

/-! ### Squeezing (R288) -/

theorem squeezeBlocks_add_one (r n : Nat) (S : List Byte) :
    squeezeBlocks r (n + 1) S = S.take r ++ squeezeBlocks r n (keccakBytes S) := by
  cases n with
  | zero => exact (List.append_nil _).symm
  | succ n => rfl

/-- Byte `i` of the output is byte `i mod r` of the state after `i / r` permutations. -/
theorem getD_squeezeBlocks {r : Nat} (hr : r ≤ 200) {n i : Nat} {S : List Byte} (hS : S.length = 200) (hi : i < r * n) :
    (squeezeBlocks r n S).getD i 0 = (keccakBytes^[i / r] S).getD (i % r) 0 := by
  induction n generalizing S i with
  | zero => exact absurd hi (Nat.not_lt_zero i)
  | succ n ih =>
    have hl : (S.take r).length = r := by rw [List.length_take, hS, Nat.min_eq_left hr]
    rw [squeezeBlocks_add_one]
    by_cases h : i < r
    · rw [List.getD_append _ _ _ _ (hl.symm ▸ h), Nat.div_eq_of_lt h, Nat.mod_eq_of_lt h]
      simp [List.getD, h]
    · obtain ⟨k, rfl⟩ : ∃ k, i = k + r := ⟨i - r, by omega⟩
      have hk : k < r * n := by rw [Nat.mul_succ] at hi; omega
      have hr0 : 0 < r := Nat.pos_of_ne_zero fun h0 => by simp [h0] at hk
      rw [List.getD_append_right _ _ _ _ (by omega), hl, Nat.add_sub_cancel, ih (length_keccakBytes S) hk,
        Nat.add_div_right _ hr0, Nat.add_mod_right, Function.iterate_succ_apply]

/-- Byte `i` of the sponge's output. -/
theorem getD_sponge {r : Nat} (h0 : 0 < r) (hr : r ≤ 200) (sfx : Byte) (Mg : List Byte) {l i : Nat} (hi : i < l) :
    (sponge r sfx Mg l).getD i 0 = (keccakBytes^[i / r] (absorb Mg r sfx)).getD (i % r) 0 := by
  have hblocks : i < r * ((l + r - 1) / r) := by
    have hdiv := Nat.div_add_mod (l + r - 1) r
    have hmod := Nat.mod_lt (l + r - 1) h0
    omega
  rw [← getD_squeezeBlocks hr (length_absorb Mg r sfx) hblocks, sponge, squeeze]
  simp [List.getD, hi]

/-- A shorter output begins a longer one. -/
theorem sponge_eq_take {r : Nat} (h0 : 0 < r) (hr : r ≤ 200) (sfx : Byte) (Mg : List Byte) {l l' : Nat} (h : l ≤ l') :
    sponge r sfx Mg l = (sponge r sfx Mg l').take l := by
  refine List.ext_getElem (by simp [length_sponge h0 hr, h]) fun i hi _ => ?_
  have hil : i < l := length_sponge h0 hr sfx Mg l ▸ hi
  have hil' : i < (sponge r sfx Mg l').length := by rw [length_sponge h0 hr]; omega
  rw [List.getElem_take, ← List.getD_eq_getElem _ 0 hi, ← List.getD_eq_getElem _ 0 hil', getD_sponge h0 hr sfx Mg hil,
    getD_sponge h0 hr sfx Mg (hil.trans_le h)]

/-- Settles O31: padding, absorption and output by bytes, and the instances of the sponge as the model binds them. -/
theorem spongeBytes : Obligations.SpongeBytes := by
  refine ⟨fun r sfx Mg h0 hr _ => ⟨?padding, ?xor, absorb_eq_foldl_range Mg r sfx, ?output, ?shorter⟩, fun _ => rfl,
    fun _ _ => ⟨rfl, rfl, rfl, rfl⟩, fun _ _ _ => rfl, ?roles⟩
  case padding =>
    exact ⟨padZeros Mg.length r, padZeros_lt _ h0, length_pad Mg r sfx, dvd_add_padZeros _ h0,
      fun _ hi => getD_pad Mg r sfx hi⟩
  case xor =>
    intro S block hS hb i hi
    rw [getD_xorBlock (by omega) (by omega), hb]
  case output => exact fun l => ⟨length_sponge h0 hr.le sfx Mg l, fun _ hi => getD_sponge h0 hr.le sfx Mg hi⟩
  case shorter => exact fun _ _ h => sponge_eq_take h0 hr.le sfx Mg h
  case roles =>
    exact fun Mg => ⟨rfl, length_hashH Mg, List.take_append_drop 32 (sha3_512 Mg), length_hashG_fst Mg,
      length_hashG_snd Mg, rfl, length_kdf Mg⟩

end Sys2Proof.Machine
end

section
/-! The command HASH: its word, what it stores, its frame and its errors (spec/45_hash.md R293). -/

namespace Sys2Proof.Machine

/-- The SHAKE functions take every OUTLEN (R105, R293). -/
theorem hashLegal_of_shake {d : BitVec 4} (h : d = 2 ∨ d = 3) (outlen : Half) : hashLegal d outlen = true :=
  decide_eq_true (by rcases h with rfl | rfl <;> simp)

theorem hashLegal_eq_false {d : BitVec 4} {outlen : Half} (h : 4 ≤ d.toNat ∨ d.toNat ≤ 1 ∧ outlen ≠ 0) :
    hashLegal d outlen = false := by
  refine decide_eq_false fun ⟨h3, h0⟩ => ?_
  rcases h with h4 | ⟨h1, hne⟩
  · omega
  · exact hne (h0 h1)

/-- HASH with legal FN and OUTLEN and both ranges inside M. -/
theorem exec_hash_stores {d : BitVec 4} {a b len outlen : Half} {s : State} (hm : Memory.wf s.mem = true)
    (hl : hashLegal d outlen = true) (ha : a.toNat + len.toNat ≤ s.memBytes)
    (hb : b.toNat + hashOutLen d outlen ≤ s.memBytes) :
    ∃ t, exec (.hash d a b len outlen) s = .next t ∧
      WroteBytes b.toNat (hashOutput d (hashOutLen d outlen) (s.memRead a.toNat len.toNat)) s t :=
  ⟨_, command_pass _ (by simp [hl, checkRange_pass ha, checkRange_pass hb]), wroteBytes_complete hm _ _⟩

/-- HASH with legal FN and OUTLEN and a range that leaves M. -/
theorem exec_hash_addrRange {d : BitVec 4} {a b len outlen : Half} {s : State} (hl : hashLegal d outlen = true)
    (h : s.memBytes < a.toNat + len.toNat ∨ s.memBytes < b.toNat + hashOutLen d outlen) :
    ∃ t, exec (.hash d a b len outlen) s = .next t ∧ FailedWith .addrRange s t := by
  refine command_fails _ ?_ (by decide)
  by_cases ha : s.memBytes < a.toNat + len.toNat
  · simp [hl, checkRange_fail ha]
  · simp [hl, checkRange_pass (not_lt.mp ha), checkRange_fail (h.resolve_left ha)]

/-- Settles O55: FN and OUTLEN are checked first, then the ranges; the digest is of what stood in M before the store. -/
theorem hash_effect : Obligations.Hash := by
  intro d a b len outlen s hm
  refine ⟨encodedBy_of_getElem? 15 rfl (Laws.EncodedOpcode.hash d a b len outlen), ?sha3_256, ?sha3_512, ?shake128,
    ?shake256, ?badParam, ?addrRange⟩
  case sha3_256 => rintro rfl rfl ha hb; exact exec_hash_stores hm rfl ha hb
  case sha3_512 => rintro rfl rfl ha hb; exact exec_hash_stores hm rfl ha hb
  case shake128 => rintro rfl ha hb; exact exec_hash_stores hm (hashLegal_of_shake (.inl rfl) outlen) ha hb
  case shake256 => rintro rfl ha hb; exact exec_hash_stores hm (hashLegal_of_shake (.inr rfl) outlen) ha hb
  case badParam => exact fun h => command_fails _ (by simp [hashLegal_eq_false h]) (by decide)
  case addrRange =>
    rintro (⟨rfl, rfl, h⟩ | ⟨rfl, rfl, h⟩ | ⟨rfl | rfl, h⟩)
    · exact exec_hash_addrRange rfl h
    · exact exec_hash_addrRange rfl h
    · exact exec_hash_addrRange (hashLegal_of_shake (.inl rfl) outlen) h
    · exact exec_hash_addrRange (hashLegal_of_shake (.inr rfl) outlen) h

end Sys2Proof.Machine
end

section
/-! The compare and the select of decapsulation (spec/46_kem.md R328). -/

namespace Sys2Proof.Machine

/-- The running OR is 0 only over zero bytes. -/
theorem foldl_or_eq_zero_iff (l : List Byte) (acc : Byte) :
    l.foldl (· ||| ·) acc = 0 ↔ acc = 0 ∧ ∀ x ∈ l, x = 0 := by
  induction l generalizing acc with
  | nil => simp
  | cons x l ih =>
    rw [List.foldl_cons, ih, List.forall_mem_cons, ← and_assoc]
    exact and_congr_left' BitVec.or_eq_zero_iff

/-- Strings of one length differ nowhere exactly when they are equal. -/
theorem zipWith_xor_eq_zero_iff {a b : List Byte} (h : a.length = b.length) :
    (∀ x ∈ List.zipWith (· ^^^ ·) a b, x = 0) ↔ a = b := by
  induction a generalizing b with
  | nil => simp [List.eq_nil_of_length_eq_zero h.symm]
  | cons x a ih =>
    cases b with
    | nil => simp at h
    | cons y b =>
      rw [List.zipWith_cons_cons, List.forall_mem_cons, ih (Nat.succ.inj h), List.cons.injEq]
      exact and_congr_left' BitVec.xor_eq_zero_iff

theorem ctEqual_iff {a b : List Byte} (h : a.length = b.length) : ctEqual a b = true ↔ a = b := by
  rw [ctEqual, decide_eq_true_iff, foldl_or_eq_zero_iff, zipWith_xor_eq_zero_iff h]
  exact and_iff_right rfl

/-- With every mask bit set the first string remains, with none the second. -/
theorem ctSelect_eq {x y : List Byte} (h : x.length = y.length) (eq : Bool) :
    ctSelect eq x y = if eq then x else y := by
  cases eq with
  | true => exact List.ext_getElem (by simp [ctSelect, h]) fun i _ _ => by simp [ctSelect]
  | false => exact List.ext_getElem (by simp [ctSelect, h]) fun i _ _ => by simp [ctSelect]

/-- Settles O38: the OR of the differences is 0 when there is none, and the mask keeps one string. -/
theorem compareAndSelect : Obligations.CompareAndSelect :=
  ⟨fun _ _ h => ctEqual_iff h, fun eq _ _ hx hy => ctSelect_eq (hx.trans hy.symm) eq⟩

end Sys2Proof.Machine
end

section
/-! The KEM transform over the CPA primitive: each procedure as a function of the encryption or the key generation it
makes, when its streams give a result, implicit rejection and the round trip (spec/46_kem.md R320, R325-R327, R335). -/

namespace Sys2Proof.Machine

open Sys2Proof.Statement

/-! ### The procedures over the CPA primitive -/

/-- The decryption m' that decapsulation encrypts again (R327). -/
def decapsMessage (lv : Level) (sk c : List Byte) : List Byte := cpaDecrypt lv (part sk 0 (384 * lv.k)) c

/-- G(m' ‖ h) with the hash that sk holds: Kbar' and the coins of the encryption (R327). -/
def decapsHash (lv : Level) (sk c : List Byte) : List Byte × List Byte :=
  hashG (decapsMessage lv sk c ++ part sk (768 * lv.k + 32) 32)

/-- Encapsulation answers its ciphertext and KDF(Kbar ‖ H(c)) (R326). -/
theorem kemEncaps_eq_map (lv : Level) (blocks : Nat) (pk m : List Byte) :
    kemEncaps lv blocks pk m = (cpaEncrypt lv blocks pk m (hashG (m ++ hashH pk)).2).map fun c =>
      (c, kdf ((hashG (m ++ hashH pk)).1 ++ hashH c)) := by
  unfold kemEncaps
  cases h : cpaEncrypt lv blocks pk m (hashG (m ++ hashH pk)).2 <;> simp [h]

theorem kemEncaps_of_cpaEncrypt {lv : Level} {blocks : Nat} {pk m c : List Byte}
    (h : cpaEncrypt lv blocks pk m (hashG (m ++ hashH pk)).2 = some c) :
    kemEncaps lv blocks pk m = some (c, kdf ((hashG (m ++ hashH pk)).1 ++ hashH c)) := by
  rw [kemEncaps_eq_map, h, Option.map_some]

/-- Decapsulation chooses by its re-encryption c' (R327). -/
theorem kemDecaps_eq_map (lv : Level) (blocks : Nat) (sk c : List Byte) :
    kemDecaps lv blocks sk c = (cpaEncrypt lv blocks (part sk (384 * lv.k) (384 * lv.k + 32)) (decapsMessage lv sk c)
      (decapsHash lv sk c).2).map fun c' =>
        kdf (ctSelect (ctEqual c c') (decapsHash lv sk c).1 (part sk (768 * lv.k + 64) 32) ++ hashH c) := by
  unfold kemDecaps
  simp only
  split
  · next h => exact (Option.map_eq_none_iff.mpr h).symm
  · next h =>
    rw [eq_comm, Option.map_eq_some_iff]
    exact ⟨_, h, rfl⟩

/-! ### When there is a result (R224, R320) -/

/-- The matrix of key generation, entry by entry: x = j, y = i. -/
theorem isSome_genA_rows (lv : Level) (blocks : Nat) (rho : List Byte) :
    (genA lv blocks rho false).isSome ↔
      ∀ i < lv.k, ∀ j < lv.k, (sampleUniform blocks rho (BitVec.ofNat 8 j) (BitVec.ofNat 8 i)).isSome :=
  isSome_genA lv blocks rho false

/-- The matrix of encryption, entry by entry: x = i, y = j. -/
theorem isSome_genA_transposed (lv : Level) (blocks : Nat) (rho : List Byte) :
    (genA lv blocks rho true).isSome ↔
      ∀ i < lv.k, ∀ j < lv.k, (sampleUniform blocks rho (BitVec.ofNat 8 i) (BitVec.ofNat 8 j)).isSome :=
  isSome_genA lv blocks rho true

/-- Encryption waits for the matrix only. -/
theorem isSome_cpaEncrypt (lv : Level) (blocks : Nat) (pk m coins : List Byte) :
    (cpaEncrypt lv blocks pk m coins).isSome ↔ (genA lv blocks (part pk (384 * lv.k) 32) true).isSome := by
  simp only [Option.isSome_iff_exists]
  constructor
  · rintro ⟨c, h⟩
    obtain ⟨A, -, -, hA, -⟩ := cpaEncrypt_eq_some h
    exact ⟨A, hA⟩
  · rintro ⟨A, hA⟩
    exact cpaEncrypt_of_genA hA m coins

/-- Key generation waits for the matrix only. -/
theorem isSome_kemKeygen (lv : Level) (blocks : Nat) (d z : List Byte) :
    (kemKeygen lv blocks d z).isSome ↔ (genA lv blocks (hashG d).1 false).isSome := by
  simp only [Option.isSome_iff_exists]
  constructor
  · rintro ⟨⟨pk, sk⟩, h⟩
    obtain ⟨skCpa, hc, -⟩ := kemKeygen_eq_some h
    obtain ⟨A, -, -, hA, -⟩ := cpaKeygen_eq_some hc
    exact ⟨A, hA⟩
  · rintro ⟨A, hA⟩
    exact kemKeygen_of_genA hA z

/-- A part of a part. -/
theorem part_part (B : List Byte) (a b : Nat) {n m : Nat} (h : b + m ≤ n) :
    part (part B a n) b m = part B (a + b) m := by
  rw [part, part, part, List.drop_take, List.drop_drop, List.take_take, Nat.min_eq_left (by omega)]

/-- rho of the public key that sk holds (R324). -/
theorem part_secretKey_rho (lv : Level) (sk : List Byte) :
    part (part sk (384 * lv.k) (384 * lv.k + 32)) (384 * lv.k) 32 = part sk (768 * lv.k) 32 := by
  rw [part_part _ _ _ le_rfl, show 384 * lv.k + 384 * lv.k = 768 * lv.k by ring]

/-- Settles O60: each procedure has a result when its matrix is there, and the matrix when every entry is. -/
theorem kemStreams : Obligations.KemStreams := by
  refine fun lv blocks => ⟨fun d z => ?_, fun pk m => ?_, fun sk c => ?_⟩
  · rw [isSome_kemKeygen, isSome_genA_rows]
  · rw [kemEncaps_eq_map, Option.isSome_map, isSome_cpaEncrypt, isSome_genA_transposed]
  · rw [kemDecaps_eq_map, Option.isSome_map, isSome_cpaEncrypt, part_secretKey_rho, isSome_genA_transposed]

/-! ### Implicit rejection and the round trip (R335) -/

theorem length_part_z {lv : Level} {sk : List Byte} (hs : sk.length = 768 * lv.k + 96) :
    (part sk (768 * lv.k + 64) 32).length = 32 := by
  simp [part, hs]

/-- The secret of decapsulation, by whether the re-encryption is the ciphertext. -/
theorem kemDecaps_of_reencrypt {lv : Level} {blocks : Nat} {sk c c' : List Byte} (hs : sk.length = 768 * lv.k + 96)
    (hc : c.length = lv.ctBytes)
    (h : cpaEncrypt lv blocks (part sk (384 * lv.k) (384 * lv.k + 32)) (decapsMessage lv sk c) (decapsHash lv sk c).2 =
      some c') :
    kemDecaps lv blocks sk c =
      some (kdf ((if c = c' then (decapsHash lv sk c).1 else part sk (768 * lv.k + 64) 32) ++ hashH c)) := by
  have hl : c.length = c'.length := hc.trans (length_cpaEncrypt h).symm
  have hx : (decapsHash lv sk c).1.length = (part sk (768 * lv.k + 64) 32).length := by
    rw [length_part_z hs]; exact length_hashG_fst _
  rw [kemDecaps_eq_map, h, Option.map_some, ctSelect_eq hx]
  simp only [ctEqual_iff hl]

/-- Settles O41: the compare decides between Kbar' and z. -/
theorem implicitRejection : Obligations.ImplicitRejection := by
  rintro lv blocks sk c c' _ hs hc rfl h
  have hK := kemDecaps_of_reencrypt hs hc h
  exact ⟨fun heq => by rw [hK, if_pos heq]; rfl, fun hne => by rw [hK, if_neg hne]⟩

/-- Settles O42: decapsulation encrypts the same message with the same coins again, so the compare finds a match. -/
theorem kemRoundTrip : Obligations.KemRoundTrip := by
  rintro lv blocks _ sk m c K hs rfl hH henc hdec
  rw [kemEncaps_eq_map, Option.map_eq_some_iff] at henc
  obtain ⟨c', hc, heq⟩ := henc
  obtain ⟨rfl, rfl⟩ := Prod.mk.inj heq
  rw [← hH] at hc ⊢
  exact (implicitRejection lv blocks sk c' c' m hs (length_cpaEncrypt hc) hdec.symm hc).1 rfl

end Sys2Proof.Machine
end

section
/-! Encryption and decryption, group by group: what a ciphertext packs and what decryption makes of any ciphertext
(spec/46_kem.md R322-R324). -/

namespace Sys2Proof.Machine

open Sys2Proof.Statement

/-! ### Groups of parts -/

/-- A group inside the first n bytes. -/
theorem group_take (B : List Byte) {d n j : Nat} (hj : (j + 1) * d ≤ 8 * n) : group (B.take n) d j = group B d j := by
  refine Finset.sum_congr rfl fun l hl => ?_
  have hl : l < d := Finset.mem_range.mp hl
  have hbit : bit (B.take n) (j * d + l) = bit B (j * d + l) := by
    rw [Nat.succ_mul] at hj
    simpa [slice] using bit_slice B 0 (show j * d + l < 8 * n by omega)
  rw [hbit]

/-- The groups of one packed polynomial are in its 32·d bytes. -/
theorem group_take_part (B : List Byte) {d j : Nat} (hj : j < 256) : group (B.take (32 * d)) d j = group B d j :=
  group_take B (by have : (j + 1) * d ≤ 256 * d := Nat.mul_le_mul_right d hj; omega)

/-- Groups behind the first i parts of 32·d bytes. -/
theorem group_drop (B : List Byte) (d i j : Nat) : group (B.drop (32 * d * i)) d j = group B d (256 * i + j) := by
  refine Finset.sum_congr rfl fun l _ => ?_
  rw [bit_drop, show 8 * (32 * d * i) + (j * d + l) = (256 * i + j) * d + l by ring]

/-- Group j of the i-th part of 32·d bytes is group 256·i + j of the string. -/
theorem group_part (B : List Byte) (d i : Nat) {j : Nat} (hj : j < 256) :
    group (part B (32 * d * i) (32 * d)) d j = group B d (256 * i + j) :=
  (group_take_part _ hj).trans (group_drop B d i j)

/-! ### Vectors in packed strings -/

/-- Group 256·i + j of a string that begins with compressed polynomials is coefficient j of polynomial i (R322). -/
theorem group_flatMap_cenc (l : List Poly) (d : Nat) (rest : List Byte) {i j : Nat} (hi : i < l.length) (hj : j < 256) :
    group (l.flatMap (cenc · d) ++ rest) d (256 * i + j) = compress ((l.getD i Poly.zero).get j).toNat d := by
  calc group (l.flatMap (cenc · d) ++ rest) d (256 * i + j)
      = group (part (l.flatMap (cenc · d) ++ rest) (32 * d * i) (32 * d)) d j := (group_part _ d i hj).symm
    _ = group (cenc l[i] d) d j := congrArg (group · d j) (slice_flatMap (length_cenc · d) l rest hi)
    _ = compress ((l.getD i Poly.zero).get j).toNat d := by
        rw [List.getD_eq_getElem _ _ hi]; exact group_cenc l[i] d hj

/-- Coefficient j of polynomial i of a 12-bit packed vector is group 256·i + j mod q (R322, R323). -/
theorem get_decVector {lv : Level} (B : List Byte) {i j : Nat} (hi : i < lv.k) (hj : j < 256) :
    (((decVector lv B).getD i Poly.zero).get j).toNat = group B 12 (256 * i + j) % 3329 := by
  rw [getD_decVector hi, get_dec12 _ hj]
  exact congrArg (· % 3329) (getD_byteDecode_slice B 12 i hj)

/-- Coefficient j of an unpacked and decompressed polynomial is its group, decompressed (R323). -/
theorem get_cdec_take (B : List Byte) {d : Nat} (hd : d ≤ 11) {j : Nat} (hj : j < 256) :
    ((cdec (B.take (32 * d)) d).get j).toNat = decompress (group B d j) d := by
  rw [get_cdec _ hd hj, getD_byteDecode_eq_group _ _ hj, group_take_part B hj]

theorem du_le (lv : Level) : lv.du ≤ 11 := by cases lv <;> decide

theorem dv_le (lv : Level) : lv.dv ≤ 11 := by cases lv <;> decide

/-! ### Encryption (R322) -/

/-- Coefficient j of u[i], before compression. -/
theorem get_encryptedVector {lv : Level} {A : List (List Poly)} {R E : List Poly} (hA : A.length = lv.k)
    (hE : E.length = lv.k) {i j : Nat} (hi : i < lv.k) (hj : j < 256) :
    (((List.zipWith (fun row ei => polyAdd (intt (dot row R)) ei) A E).getD i Poly.zero).get j).toNat =
      (((intt (dot (A.getD i []) R)).get j).toNat + ((E.getD i Poly.zero).get j).toNat) % 3329 := by
  rw [getD_zipWith _ _ _ [] Poly.zero _ (by omega) (by omega)]
  exact get_polyAdd _ _ hj

/-- Coefficient j of v, before compression. -/
theorem get_encryptedMessage (p e : Poly) (m : List Byte) {j : Nat} (hj : j < 256) :
    ((polyAdd (polyAdd p e) (msgDecode m)).get j).toNat =
      ((p.get j).toNat + (e.get j).toNat + if bit m j then 1665 else 0) % 3329 := by
  rw [get_polyAdd _ _ hj, get_polyAdd _ _ hj, get_msgDecode m hj, Nat.mod_add_mod, Config.q]

/-- Settles O40: the size, then the groups of the two parts of the ciphertext. -/
theorem ciphertext : Obligations.Ciphertext := by
  intro lv blocks pk m coins c h
  refine ⟨length_cpaEncrypt h, ?_⟩
  obtain ⟨A, R, E1, hA, hR, hE1, rfl⟩ := cpaEncrypt_eq_some h
  have hAl : A.length = lv.k := length_genA hA
  have hRl : R.length = lv.k := by simp [hR]
  have hEl : E1.length = lv.k := by simp [hE1]
  refine ⟨fun i j => (A.getD i []).getD j Poly.zero, ((decVector lv pk).getD · Poly.zero), (R.getD · Poly.zero),
    fun i hi j hj => (getD_genA hA hi hj).1, fun i hi => ⟨?_, fun j hj => get_decVector pk hi hj⟩, fun i hi => ?_,
    _, sumOfProducts_dot (length_decVector lv pk) hRl, fun j hj => ?_⟩
  · simpa only [hR, Nat.zero_add] using getD_map_ntt_noiseVector (first := 0) hi
  · have hrow : (A.getD i []).length = lv.k := (getD_genA hA hi hi).2
    refine ⟨_, sumOfProducts_dot hrow hRl, fun j hj => ?_⟩
    rw [group_flatMap_cenc _ _ _ (by rw [List.length_zipWith]; omega) hj, get_encryptedVector hAl hEl hi hj, hE1,
      getD_noiseVector hi, byteOf]
  · have hul := length_flatMap_const (length_cenc · lv.du)
      (List.zipWith (fun row e1i => polyAdd (intt (dot row R)) e1i) A E1)
    rw [List.length_zipWith, hAl, hEl, Nat.min_self] at hul
    rw [List.drop_left' hul]
    exact (group_cenc _ _ hj).trans (congrArg (compress · lv.dv) (get_encryptedMessage _ _ m hj))

/-! ### Decryption (R323) -/

/-- Entry `i` of a mapped list. -/
theorem getD_map_of_lt {α β : Type} (f : α → β) {l : List α} {i : Nat} (h : i < l.length) (x : α) (y : β) :
    (l.map f).getD i y = f (l.getD i x) := by
  rw [List.getD_eq_getElem _ _ (by simpa using h), List.getElem_map, List.getD_eq_getElem _ _ h]

/-- The sum of base products with the transforms of a vector. -/
theorem sumOfProducts_dot_map_ntt {k : Nat} {S U : List Poly} (hS : S.length = k) (hU : U.length = k) :
    SumOfProducts k (S.getD · Poly.zero) (fun i => ntt (U.getD i Poly.zero)) (dot S (U.map ntt)) := by
  intro j hj
  rw [get_dot hS (by simpa using hU) hj, Config.q]
  refine congrArg (· % 3329) (Finset.sum_congr rfl fun l hl => ?_)
  rw [getD_map_of_lt ntt (hU ▸ Finset.mem_range.mp hl) Poly.zero]

/-- Bit j of the encoded difference of two polynomials. -/
theorem bit_msgEncode_polySub (v p : Poly) {j : Nat} (hj : j < 256) :
    (bit (msgEncode (polySub v p)) j).toNat = compress (((v.get j).toNat - (p.get j).toNat : Int) % 3329).toNat 1 := by
  have h : ((polySub v p).get j).toNat = ((v.get j).toNat - (p.get j).toNat : Int) % 3329 := get_polySub v p hj
  rw [bit_msgEncode _ hj, ← h, Int.toNat_natCast]

/-- Settles O59: every bit of the decoded message is a compressed coefficient of w. -/
theorem decryption : Obligations.Decryption := by
  intro lv sk c
  obtain ⟨U, hUl, hU, hdec⟩ := cpaDecrypt_eq lv sk c
  rw [hdec]
  refine ⟨length_msgEncode _, ((decVector lv sk).getD · Poly.zero), (U.getD · Poly.zero), _,
    fun i hi j hj => ⟨get_decVector sk hi hj, ?_⟩, sumOfProducts_dot_map_ntt (length_decVector lv sk) hUl,
    fun j hj => ?_⟩
  · show ((U.getD i Poly.zero).get j).toNat = _
    rw [hU i hi, slice, get_cdec_take _ (du_le lv) hj, group_drop]
  · rw [bit_msgEncode_polySub _ _ hj, slice, get_cdec_take _ (dv_le lv) hj]

end Sys2Proof.Machine
end

section
/-! The commands KEYGEN, ENCAPS and DECAPS: their words, and for each its result, its frame and its errors
(spec/46_kem.md R329-R334). -/

namespace Sys2Proof.Machine

open Sys2Proof.Statement

/-! ### The three ranges (R332) -/

section
variable {s : State} {a l b m c n : Nat}

theorem firstError_ranges_pass (ha : a + l ≤ s.memBytes) (hb : b + m ≤ s.memBytes) (hc : c + n ≤ s.memBytes) :
    firstError [checkRange s a l, checkRange s b m, checkRange s c n] = none := by
  simp [checkRange_pass ha, checkRange_pass hb, checkRange_pass hc]

theorem firstError_ranges_fail (h : s.memBytes < a + l ∨ s.memBytes < b + m ∨ s.memBytes < c + n) :
    firstError [checkRange s a l, checkRange s b m, checkRange s c n] = some .addrRange := by
  by_cases ha : s.memBytes < a + l
  · simp [checkRange_fail ha]
  by_cases hb : s.memBytes < b + m
  · simp [checkRange_pass (not_lt.mp ha), checkRange_fail hb]
  · have hc := (h.resolve_left ha).resolve_left hb
    simp [checkRange_pass (not_lt.mp ha), checkRange_pass (not_lt.mp hb), checkRange_fail hc]

/-- A KEM command with a range past MEM_BYTES. -/
theorem samplingCommand_addrRange (effect : Option State)
    (h : s.memBytes < a + l ∨ s.memBytes < b + m ∨ s.memBytes < c + n) :
    ∃ t, samplingCommand s [checkRange s a l, checkRange s b m, checkRange s c n] effect = .next t ∧
      FailedWith .addrRange s t :=
  ⟨_, samplingCommand_fail effect (firstError_ranges_fail h), failedWith_complete (by decide) s⟩

/-- A KEM command inside M whose procedure has the result `x`. -/
theorem samplingCommand_completes {α : Type} {result : Option α} {x : α} (effect : α → State)
    (ha : a + l ≤ s.memBytes) (hb : b + m ≤ s.memBytes) (hc : c + n ≤ s.memBytes) (hx : result = some x) :
    samplingCommand s [checkRange s a l, checkRange s b m, checkRange s c n] (result.map effect) =
      .next (complete .ok (effect x)) := by
  rw [samplingCommand_pass _ (firstError_ranges_pass ha hb hc), hx, Option.map_some, completeOrSample_some]

end

/-! ### Reading and writing in pieces -/

theorem Memory.readBytes_add (m : Memory) (a k n : Nat) :
    Memory.readBytes m a (k + n) = Memory.readBytes m a k ++ Memory.readBytes m (a + k) n := by
  simp [Memory.readBytes, List.range_add, Nat.add_assoc]

theorem memRead_take (s : State) (a k n : Nat) : (s.memRead a (k + n)).take k = s.memRead a k := by
  rw [State.memRead, Memory.readBytes_add, List.take_left' (Memory.length_readBytes _ _ _), State.memRead]

theorem memRead_drop (s : State) (a k n : Nat) : (s.memRead a (k + n)).drop k = s.memRead (a + k) n := by
  rw [State.memRead, Memory.readBytes_add, List.drop_left' (Memory.length_readBytes _ _ _), State.memRead]

/-- A group inside the first k bytes read is the same in a longer read. -/
theorem group_memRead_add (s : State) (a : Nat) {k d j : Nat} (n : Nat) (hj : (j + 1) * d ≤ 8 * k) :
    group (s.memRead a k) d j = group (s.memRead a (k + n)) d j := by
  rw [← memRead_take s a k n, group_take _ hj]

theorem Memory.writeBytes_append (m : Memory) (a : Nat) (u v : List Byte) :
    Memory.writeBytes m a (u ++ v) = Memory.writeBytes (Memory.writeBytes m a u) (a + u.length) v := by
  induction u generalizing m a with
  | nil => rfl
  | cons x u ih =>
    rw [List.cons_append, Memory.writeBytes, ih, Memory.writeBytes, List.length_cons, Nat.add_right_comm, Nat.add_assoc]

theorem memWrite_append (s : State) (a : Nat) (u v : List Byte) :
    s.memWrite a (u ++ v) = (s.memWrite a u).memWrite (a + u.length) v :=
  congrArg (fun m => { s with mem := m }) (Memory.writeBytes_append s.mem a u v)

/-- A KEM command that stores its output, notes what it met in NCAN and wipes the scratch (R332, R333). -/
theorem wroteOutput_complete {s : State} (hm : Memory.wf s.mem = true) (a : Nat) (v : List Byte) (nc : Bool) :
    WroteOutput a v nc s (complete .ok ((s.memWrite a v).noteNcan nc).wipeScratch) where
  completed := completedWith_complete _ (((sameControl_memWrite s a v).trans (effect_noteNcan _ nc).control).trans
    (effect_wipeScratch _).control)
  result := (wroteBytes_complete hm a v).result
  outside := (wroteBytes_complete hm a v).outside
  polys := fun _ => rfl
  scratch := rfl
  ncan := rfl

/-! ### Non-canonical keys (R330, R331) -/

/-- Some 12-bit group of a packed vector is 3329 or more. -/
theorem nonCanonicalVector_iff (lv : Level) (B : List Byte) :
    nonCanonicalVector lv B = true ↔ ∃ i < 256 * lv.k, 3329 ≤ group B 12 i := by
  simp only [nonCanonicalVector, List.any_eq_true, List.mem_range, nonCanonical12_iff]
  constructor
  · rintro ⟨i, hi, j, hj, h⟩
    exact ⟨256 * i + j, by omega, h.trans_eq (group_part B 12 i hj)⟩
  · rintro ⟨i, hi, h⟩
    have hj : i % 256 < 256 := Nat.mod_lt i (by decide)
    rw [← Nat.div_add_mod i 256] at h
    exact ⟨i / 256, by omega, i % 256, hj, h.trans_eq (group_part B 12 _ hj).symm⟩

/-- Some 12-bit group of the two vectors at the start of a secret key, s and t, is 3329 or more. -/
theorem nonCanonicalVectors_iff (lv : Level) (B : List Byte) :
    (nonCanonicalVector lv B || nonCanonicalVector lv (B.drop (384 * lv.k))) = true ↔
      ∃ i < 512 * lv.k, 3329 ≤ group B 12 i := by
  have hdrop : ∀ i, group (B.drop (384 * lv.k)) 12 i = group B 12 (256 * lv.k + i) := group_drop B 12 lv.k
  simp only [Bool.or_eq_true, nonCanonicalVector_iff, hdrop]
  constructor
  · rintro (⟨i, hi, h⟩ | ⟨i, hi, h⟩)
    · exact ⟨i, by omega, h⟩
    · exact ⟨256 * lv.k + i, by omega, h⟩
  · rintro ⟨i, hi, h⟩
    by_cases hlt : i < 256 * lv.k
    · exact .inl ⟨i, hlt, h⟩
    · exact .inr ⟨i - 256 * lv.k, by omega, by rwa [Nat.add_sub_cancel' (not_lt.mp hlt)]⟩

/-! ### The commands -/

/-- Settles O56: the secret key is stored last, over the public key where the two overlap. -/
theorem keygen : Obligations.Keygen := by
  intro a b c s hm
  refine ⟨encodedBy_of_getElem? 16 rfl (Laws.EncodedOpcode.keygen a b c), fun pk sk ha hb hc hk => ?_,
    fun h => samplingCommand_addrRange _ h⟩
  obtain ⟨hpk, hsk⟩ := kemKeygen_lengths (memRead_length _ _ _) hk
  rw [← memRead_take s a.toNat 32 32, ← memRead_drop s a.toNat 32 32] at hk
  refine ⟨_, samplingCommand_completes _ ha hb hc hk, completedWith_complete _ ?_, fun _ => rfl, rfl, rfl, hpk, hsk,
    fun x => ?_⟩
  · exact ((sameControl_memWrite _ _ _).trans (sameControl_memWrite _ _ _)).trans (effect_wipeScratch _).control
  · simp only [complete_mem, wipeScratch_mem, memWrite_mem]
    rw [Memory.read_writeBytes (Memory.wf_writeBytes hm _ _), Memory.read_writeBytes hm]

/-- Settles O57: ciphertext and secret are stored one behind the other, as one string. -/
theorem encaps : Obligations.Encaps := by
  intro a b c s hm
  refine ⟨encodedBy_of_getElem? 17 rfl (Laws.EncodedOpcode.encaps a b c), fun pk m G ct ha hb hc hpk hm' hG henc => ?_,
    fun h => samplingCommand_addrRange _ h⟩
  subst hpk hm' hG
  have hk := kemEncaps_of_cpaEncrypt henc
  obtain ⟨hct, hK⟩ := kemEncaps_lengths hk
  refine ⟨_, _, _, samplingCommand_completes _ ha hb hc hk, ?_, rfl, hk, hct, hK, nonCanonicalVector_iff _ _⟩
  dsimp only
  rw [← hct, ← memWrite_append]
  exact wroteOutput_complete hm _ _ _

/-- Settles O58: only the ranges are checked, and NCAN tells of the vectors at the start of the secret key. -/
theorem decaps : Obligations.Decaps := by
  intro a b c s hm
  refine ⟨encodedBy_of_getElem? 18 rfl (Laws.EncodedOpcode.decaps a b c), fun K ha hb hc hk => ?_,
    fun h => samplingCommand_addrRange _ h⟩
  refine ⟨_, _, samplingCommand_completes _ ha hb hc hk, wroteOutput_complete hm _ _ _, length_kemDecaps hk, ?_⟩
  rw [nonCanonicalVectors_iff, Level.skBytes]
  exact exists_congr fun i => and_congr_right fun hi => by
    rw [group_memRead_add s _ (k := 768 * s.level.k) 96 (by omega)]

end Sys2Proof.Machine
end

section
/-! The commands NOP and ZEROIZE: their words, and for each its effect and its frame (spec/47_control.md R370, R371). -/

namespace Sys2Proof.Machine

/-- Settles O43: neither command checks anything; NOP completes on the state itself, ZEROIZE on its wiped data. -/
theorem nopAndZeroize : Obligations.NopAndZeroize := by
  refine ⟨encodedBy_of_getElem? 0 rfl Laws.EncodedOpcode.nop, by decide,
    encodedBy_of_getElem? 19 rfl Laws.EncodedOpcode.zeroize, fun s => ⟨?nop, ?zeroize⟩⟩
  case nop =>
    exact ⟨_, command_pass (s := s) s firstError_nil, completedWith_complete .ok (SameControl.refl s),
      fun _ => rfl, fun _ => rfl, rfl, rfl⟩
  case zeroize =>
    exact ⟨_, command_pass (s := s) s.wipeData firstError_nil, completedWith_complete .ok (effect_wipeData s).control,
      fun r => wipeData_poly s r, fun _ => rfl, rfl, rfl⟩

end Sys2Proof.Machine
end

section
/-! The host's step and the core's step at issue: a write to CMD2 latches the command, the accesses of R460 hold while
BUSY, and the core executes what was latched (spec/60_exceptions.md R410; spec/70_reset_and_hazards.md R460-R466). -/

namespace Sys2Proof.Machine

open Sys2Proof.Statement

/-! ### Issue and hold -/

theorem csrWrite_issues {addr : Byte} (h : csrIndex addr = 10) (s : State) (w : Word) : csrWrite s addr w = issue s w := by
  simp only [csrWrite, h]

/-- Settles O7: the performed write is an issue, which says every field; while BUSY the write is one that holds. -/
theorem commandIssue : Obligations.CommandIssue := by
  intro s addr w haddr
  refine ⟨fun hp => ?issued, fun hb ha hh rest hq => ?held⟩
  case issued =>
    have hstep : step s = .next (issue s.taken w) := by rw [step_performs hp, perform, csrWrite_issues haddr]
    exact ⟨_, hstep, rfl, rfl, rfl, rfl, rfl, rfl, rfl, rfl, rfl, fun _ => rfl, fun _ => rfl, rfl, rfl, rfl⟩
  case held => exact step_hold hb ha hh hq ((holds_csrWrite addr w).mpr (.inr (.inr (.inr haddr))))

/-- The CSR writes that hold, by the byte offsets of their registers (R460). -/
theorem holds_csrWrite_iff_offset (addr : Byte) (w : Word) :
    (HostAction.csrWrite addr w).holds = true ↔ addr.toNat / 4 * 4 ∈ [0x08, 0x20, 0x24, 0x28] := by
  rw [holds_csrWrite]
  simp only [List.mem_cons, List.not_mem_nil, or_false]
  omega

/-- The host's next access is performed at once if its port is ready. -/
theorem step_performs_next {s : State} {a : HostAction} {rest : List HostAction} (ha : s.agent = .host)
    (hh : s.held = none) (hq : s.hostQueue = a :: rest) (hr : s.ready a = true) :
    step s = .next (perform a { s with hostQueue := rest, sched := s.sched.tail }) := by
  rw [step_host ha, hostStep_next (s := { s with sched := s.sched.tail }) hh hq hr]

/-- Settles O8: the next access by whether it is one that holds, a held access by whether the core is BUSY. -/
theorem holdsWhileBusy : Obligations.HoldsWhileBusy := by
  refine ⟨fun s a rest hb ha hh hq => ⟨fun hold => ?hold, fun hnow => ?now⟩, fun s a hb ha hh hold => ?held,
    fun s a hi hh hs => ?performed⟩
  case hold =>
    refine step_hold hb ha hh hq ?_
    rcases hold with ⟨i, rfl⟩ | ⟨i, be, w, rfl⟩ | ⟨addr, w, rfl, hmem⟩
    · rfl
    · rfl
    · exact (holds_csrWrite_iff_offset addr w).mpr hmem
  case now =>
    have hnot : a.holds = false := by
      rcases hnow with ⟨addr, rfl⟩ | ⟨addr, w, rfl, hmem⟩
      · rfl
      · exact Bool.eq_false_iff.mpr (mt (holds_csrWrite_iff_offset addr w).mp hmem)
    exact step_performs_next ha hh hq (by rw [ready_eq, hnot, Bool.and_false]; rfl)
  case held =>
    have hr : s.ready a = false := by simp [ready_eq, hb, hold]
    rw [step_host ha, hostStep_held_busy (s := { s with sched := s.sched.tail }) hh hr]
  case performed =>
    have hr : s.ready a = true := by simp [ready_eq, hi]
    rw [step_host (agent_held hi hh hs), hostStep_held (s := { s with sched := s.sched.tail }) hh hr]

/-! ### The latched command -/

theorem step_latched {s : State} {i : Instr} (ha : s.agent = .core) (hb : s.run = .busy) (hd : decode s.cur = .ok i) :
    step s = exec i { s with sched := s.sched.tail } := by
  rw [step_core ha, coreStep_ok (s := { s with sched := s.sched.tail }) hb hd]

/-- A command word of 96 bits comes back from its number. -/
theorem withFetchWord_encode (s : State) (i : Instr) :
    s.withFetchWord 96 (encode i).toNat = { s with cur := encode i, run := .busy, sched := .core :: s.sched } := by
  have h : BitVec.ofNat 96 ((encode i).toNat % 2 ^ 96) = encode i := by
    rw [Nat.mod_eq_of_lt (encode i).isLt, BitVec.ofNat_toNat, BitVec.setWidth_eq]
  rw [State.withFetchWord, h]

/-- Settles O6: the core's step executes CUR, and the state of `withFetchWord` is BUSY with the word of `i` in CUR. -/
theorem stepRunsLatchedCommand : Obligations.StepRunsLatchedCommand := by
  refine ⟨fun s i ha hb hd => step_latched ha hb hd, fun s i => ?_⟩
  rw [withFetchWord_encode]
  exact step_latched (agent_busy rfl .core s.sched rfl) rfl (decodeOfEncode i)

end Sys2Proof.Machine
end

section
/-! How a core step ends: in an error that only the command word, the level, MEM_BYTES and the tags decide, in a
completion, or in reading further (spec/60_exceptions.md R401-R404). -/

namespace Sys2Proof.Machine

/-! ### Which ends are errors -/

theorem failedWith_complete_iff {c e : ErrCode} {s : State} (he : e ≠ .ok) : FailedWith c s (complete e s) ↔ c = e :=
  ⟨fun h => h.completed.errcode.symm, fun h => h ▸ failedWith_complete he s⟩

theorem not_failedWith_complete_ok (c : ErrCode) (s s' : State) : ¬ FailedWith c s (complete .ok s') :=
  fun h => h.isError h.completed.errcode.symm

theorem not_failedWith_completeOrSample {s : State} (hb : s.run = .busy) (c : ErrCode) (effect : Option State) :
    ¬ FailedWith c s (completeOrSample s effect) := by
  cases effect with
  | some s' => exact not_failedWith_complete_ok c s s'
  | none => exact fun h => nomatch hb.symm.trans h.completed.idle

/-! ### Errors read only tags -/

/-- Two states agree on everything a check reads: the tags, MEM_BYTES and the level (R401). -/
structure SameChecked (s s' : State) : Prop where
  tags : ∀ r : Reg, (s.poly r).tag = (s'.poly r).tag
  memBytes : s.memBytes = s'.memBytes
  level : s.level = s'.level

/-- Every check gives the same in two states that agree on what a check reads. -/
theorem SameChecked.checks {s s' : State} (h : SameChecked s s') :
    s'.level = s.level ∧ (∀ a n, checkRange s' a n = checkRange s a n) ∧ (∀ r, checkSrc s' r = checkSrc s r) ∧
    (∀ r t, checkTag s' r t = checkTag s r t) ∧ ∀ r1 r2, checkSameTag s' r1 r2 = checkSameTag s r1 r2 := by
  refine ⟨h.level.symm, fun a n => ?_, fun r => ?_, fun r t => ?_, fun r1 r2 => ?_⟩
  · simp only [checkRange, h.memBytes]
  · simp only [checkSrc, h.tags]
  · simp only [checkTag, h.tags]
  · simp only [checkSameTag, h.tags]

/-- Two core steps, from `s` and from `s'`, end in the same error or both in none. -/
def FailAlike (s s' : State) (o o' : Host.Outcome State Fault Refusal) : Prop :=
  ∃ t t', o = .next t ∧ o' = .next t' ∧ ∀ c, FailedWith c s t ↔ FailedWith c s' t'

theorem failAlike_complete {e : ErrCode} (he : e ≠ .ok) (s s' : State) :
    FailAlike s s' (.next (complete e s)) (.next (complete e s')) :=
  ⟨_, _, rfl, rfl, fun _ => (failedWith_complete_iff he).trans (failedWith_complete_iff he).symm⟩

/-- Neither of two core steps ends in an error. -/
theorem failAlike_of_not {s s' t t' : State} (h : ∀ c, ¬ FailedWith c s t) (h' : ∀ c, ¬ FailedWith c s' t') :
    FailAlike s s' (.next t) (.next t') :=
  ⟨_, _, rfl, rfl, fun c => iff_of_false (h c) (h' c)⟩

theorem failAlike_command {s s' effect effect' : State} {checks checks' : List (Option ErrCode)}
    (hc : ∀ c ∈ checks, IsCheck c) (heq : checks' = checks) :
    FailAlike s s' (command s checks effect) (command s' checks' effect') := by
  subst heq
  cases h : firstError checks' with
  | some e =>
    rw [command_fail _ h, command_fail _ h]
    exact failAlike_complete (fun he => hc _ (firstError_mem h) (congrArg some he)) s s'
  | none =>
    rw [command_pass _ h, command_pass _ h]
    exact failAlike_of_not (not_failedWith_complete_ok · s effect) (not_failedWith_complete_ok · s' effect')

/-- The same of a command that may go on sampling, which is no error. -/
theorem failAlike_samplingCommand {s s' : State} {effect effect' : Option State} {checks checks' : List (Option ErrCode)}
    (hb : s.run = .busy) (hb' : s'.run = .busy) (hc : ∀ c ∈ checks, IsCheck c) (heq : checks' = checks) :
    FailAlike s s' (samplingCommand s checks effect) (samplingCommand s' checks' effect') := by
  subst heq
  cases h : firstError checks' with
  | some e =>
    rw [samplingCommand_fail _ h, samplingCommand_fail _ h]
    exact failAlike_complete (fun he => hc _ (firstError_mem h) (congrArg some he)) s s'
  | none =>
    rw [samplingCommand_pass _ h, samplingCommand_pass _ h]
    exact failAlike_of_not (not_failedWith_completeOrSample hb · effect) (not_failedWith_completeOrSample hb' · effect')

/-- Each command makes the same checks on states that agree on what a check reads (R403). -/
theorem exec_failAlike (i : Instr) {s s' : State} (hb : s.run = .busy) (hb' : s'.run = .busy) (h : SameChecked s s') :
    FailAlike s s' (exec i s) (exec i s') := by
  cases i with
  | nop | zeroize => exact failAlike_command (checks := []) (by simp) rfl
  | samu | keygen | encaps | decaps =>
    exact failAlike_samplingCommand hb hb' (by simp [isCheck_range]) (by simp only [h.checks])
  | _ =>
    exact failAlike_command (by simp [isCheck_range, isCheck_src, isCheck_tag, isCheck_sameTag, isCheck_param])
      (by simp only [h.checks])

/-- Settles O11: the decoder reads CUR alone, and every command's checks read only tags, MEM_BYTES and the level. -/
theorem errorsReadOnlyTags : Obligations.ErrorsReadOnlyTags := by
  intro s s' hb hb' hcur hlevel hbytes htags
  show FailAlike s s' (coreStep s) (coreStep s')
  cases hd : decode s.cur with
  | error e =>
    rw [coreStep_error hb hd, coreStep_error hb' (hcur ▸ hd)]
    exact failAlike_complete (decodeErrorCode_ne_ok e) s s'
  | ok i =>
    rw [coreStep_ok hb hd, coreStep_ok hb' (hcur ▸ hd)]
    exact exec_failAlike i hb hb' ⟨htags, hbytes, hlevel⟩

/-! ### Which commands read further -/

theorem command_idle {s t effect : State} {checks : List (Option ErrCode)} (h : command s checks effect = .next t) :
    t.run = .idle := by
  rcases command_cases s checks effect with ⟨e, -, ho⟩ | ⟨-, ho⟩ <;> rw [ho] at h <;> cases h <;> rfl

/-- Only the four commands that read the uniform sampler's stream can be left BUSY by a core step (R224). -/
theorem samples_of_exec_busy {i : Instr} {s t : State} (h : exec i s = .next t) (hb : t.run = .busy) :
    (∃ rd x y a, i = .samu rd x y a) ∨ (∃ a b c, i = .keygen a b c) ∨ (∃ a b c, i = .encaps a b c) ∨
      (∃ a b c, i = .decaps a b c) := by
  cases i with
  | samu rd x y a => exact .inl ⟨rd, x, y, a, rfl⟩
  | keygen a b c => exact .inr (.inl ⟨a, b, c, rfl⟩)
  | encaps a b c => exact .inr (.inr (.inl ⟨a, b, c, rfl⟩))
  | decaps a b c => exact .inr (.inr (.inr ⟨a, b, c, rfl⟩))
  | nop | zeroize => exact nomatch hb.symm.trans (command_idle (s := s) (checks := []) h)
  | _ => exact nomatch hb.symm.trans (command_idle h)

/-- A running core step that keeps BUSY is of a word that decodes, since the decoder's errors complete. -/
theorem decode_of_coreStep_busy {s t : State} (hb : s.run = .busy) (h : coreStep s = .next t) (ht : t.run = .busy) :
    ∃ i, decode s.cur = .ok i ∧ exec i s = .next t := by
  cases hd : decode s.cur with
  | error e =>
    rw [coreStep_error hb hd] at h
    cases h
    exact nomatch ht
  | ok i => exact ⟨i, rfl, (coreStep_ok hb hd).symm.trans h⟩

/-- Settles O12: from the outcomes of a core step; only a sampling command is left BUSY. -/
theorem commandOutcomes : Obligations.CommandOutcomes := by
  intro s hb
  have ho := coreStep_outcomes hb
  obtain ⟨t, ht⟩ := ho.next
  refine ⟨t, ht, ?_⟩
  rw [ht] at ho
  cases ho with
  | failed e he => exact .inl ⟨e, failedWith_complete he s⟩
  | completed s' he => exact .inr (.inl (completedWith_complete .ok he.control))
  | sampling =>
    obtain ⟨i, hd, hx⟩ := decode_of_coreStep_busy hb ht hb
    exact .inr (.inr ⟨rfl, i, hd, samples_of_exec_busy hx hb⟩)

end Sys2Proof.Machine
end

section
/-! What moves NCAN: reset and a write to STATUS clear it, and three commands set it (spec/10_state.md R38;
spec/60_exceptions.md R407; spec/70_reset_and_hazards.md R451). -/

namespace Sys2Proof.Machine

open Sys2Proof.Statement

/-- Performing an access that is no CSR write leaves STATUS alone. -/
theorem perform_status (a : HostAction) (s : State) :
    (perform a s).status = s.status ∨ ∃ addr w, a = .csrWrite addr w := by
  cases a with
  | csrRead addr => exact .inl rfl
  | csrWrite addr w => exact .inr ⟨addr, w, rfl⟩
  | bufRead index => exact .inl rfl
  | bufWrite index be w => exact .inl (by rw [perform, bufWrite_frame])

/-- Performing an access keeps NCAN, unless it is a write of 1 to it, which clears it (R38). -/
theorem perform_ncan (a : HostAction) (s : State) :
    (perform a s).status.ncan = s.status.ncan ∨
    (perform a s).status.ncan = false ∧ ∃ addr w, csrIndex addr = 3 ∧ w.getLsbD 3 = true ∧ a = .csrWrite addr w := by
  rcases perform_status a s with h | ⟨addr, w, rfl⟩
  · exact .inl (congrArg Status.ncan h)
  rw [perform, csrWrite_status]
  split_ifs with h3
  · cases hw : w.getLsbD 3 with
    | true => exact .inr ⟨by rw [write_ncan, hw]; exact Bool.and_false _, addr, w, h3, hw, rfl⟩
    | false => exact .inl (by rw [write_ncan, hw]; exact Bool.and_true _)
  · exact .inl rfl
  · exact .inl rfl

theorem command_ncan {s t effect : State} {checks : List (Option ErrCode)}
    (h : command s checks effect = .next t) (he : effect.status.ncan = s.status.ncan) :
    t.status.ncan = s.status.ncan := by
  rcases command_cases s checks effect with ⟨e, -, ho⟩ | ⟨-, ho⟩ <;> rw [ho] at h <;> cases h
  · rfl
  · exact he

theorem samplingCommand_ncan {α : Type} {s t : State} {checks : List (Option ErrCode)} {result : Option α}
    {effect : α → State} (h : samplingCommand s checks (result.map effect) = .next t)
    (he : ∀ x, (effect x).status.ncan = s.status.ncan) : t.status.ncan = s.status.ncan := by
  rcases samplingCommand_cases s checks (result.map effect) with ⟨e, -, ho⟩ | ⟨s', -, hs', ho⟩ | ⟨-, -, ho⟩ <;>
    rw [ho] at h <;> cases h
  · rfl
  · obtain ⟨x, -, rfl⟩ := Option.map_eq_some_iff.mp hs'
    exact he x
  · rfl

/-- Only DEC12, ENCAPS and DECAPS move NCAN (R407). -/
theorem exec_ncan {i : Instr} {s t : State} (h : exec i s = .next t) :
    t.status.ncan = s.status.ncan ∨ (∃ rd d a, i = .dec12 rd d a) ∨ (∃ a b c, i = .encaps a b c) ∨
      (∃ a b c, i = .decaps a b c) := by
  cases i with
  | dec12 rd d a => exact .inr (.inl ⟨rd, d, a, rfl⟩)
  | encaps a b c => exact .inr (.inr (.inl ⟨a, b, c, rfl⟩))
  | decaps a b c => exact .inr (.inr (.inr ⟨a, b, c, rfl⟩))
  | samu | keygen => exact .inl (samplingCommand_ncan h fun _ => rfl)
  | nop | zeroize => exact .inl (command_ncan (checks := []) h rfl)
  | _ => exact .inl (command_ncan h rfl)

/-- A core step keeps NCAN, or one of three commands completes without error and sets it (R407). -/
theorem coreStep_ncan {s t : State} (hb : s.run = .busy) (h : coreStep s = .next t) :
    t.status.ncan = s.status.ncan ∨
    t.status.ncan = true ∧ t.status.done = true ∧ t.status.err = false ∧
      ((∃ rd d a, decode s.cur = .ok (.dec12 rd d a)) ∨ (∃ a b c, decode s.cur = .ok (.encaps a b c)) ∨
        (∃ a b c, decode s.cur = .ok (.decaps a b c))) := by
  have ho : Outcomes s (.next t) := h ▸ coreStep_outcomes hb
  cases hd : decode s.cur with
  | error e =>
    rw [coreStep_error hb hd] at h
    cases h
    exact .inl rfl
  | ok i =>
    rcases exec_ncan ((coreStep_ok hb hd).symm.trans h) with hn | hi
    · exact .inl hn
    · cases ho with
      | failed e _ => exact .inl rfl
      | sampling => exact .inl rfl
      | completed s' he =>
        cases hn : (complete .ok s').status.ncan with
        | true => exact .inr ⟨rfl, rfl, rfl, by simpa only [Except.ok.injEq] using hi⟩
        | false => exact .inl (Bool.eq_false_iff.mpr fun h1 => nomatch hn.symm.trans (he.ncan h1)).symm

/-- NCAN stays, or reset or a write of 1 to it clears it, or a completion of one of three commands sets it (R407). -/
theorem step_ncan_cases {s t : State} (h : step s = .next t) :
    t.status.ncan = s.status.ncan ∨
    (t.status.ncan = false ∧ (s.agent = .reset ∨
      ∃ addr w, csrIndex addr = 3 ∧ w.getLsbD 3 = true ∧ Performs s (.csrWrite addr w))) ∨
    (t.status.ncan = true ∧ s.agent = .core ∧ t.status.done = true ∧ t.status.err = false ∧
      ((∃ rd d a, decode s.cur = .ok (.dec12 rd d a)) ∨ (∃ a b c, decode s.cur = .ok (.encaps a b c)) ∨
        (∃ a b c, decode s.cur = .ok (.decaps a b c)))) := by
  cases stepTo_of_step h with
  | reset ha => exact .inr (.inl ⟨rfl, .inl ha⟩)
  | performed a hp =>
    rcases perform_ncan a s.taken with hn | ⟨hn, addr, w, h3, hw, rfl⟩
    · exact .inl hn
    · exact .inr (.inl ⟨hn, .inr ⟨addr, w, h3, hw, hp⟩⟩)
  | waited => exact .inl rfl
  | idled => exact .inl rfl
  | executed ha hb =>
    rw [step_core ha] at h
    rcases coreStep_ncan (s := { s with sched := s.sched.tail }) hb h with hn | ⟨hn, hset⟩
    · exact .inl hn
    · exact .inr (.inr ⟨hn, ha, hset⟩)

/-- Settles O14: from what a step does to NCAN. -/
theorem ncanChanges : Obligations.NcanChanges := by
  intro s t h
  rcases step_ncan_cases h with hn | ⟨hn, hclear⟩ | ⟨hn, hset⟩ <;> rw [hn]
  · exact ⟨fun h1 h0 => (nomatch h1.symm.trans h0), fun h0 h1 => (nomatch h0.symm.trans h1)⟩
  · exact ⟨fun _ _ => hclear, fun _ h1 => nomatch h1⟩
  · exact ⟨fun _ h0 => (nomatch h0), fun _ _ => hset⟩

end Sys2Proof.Machine
end

section
/-! The schedule: host steps before the core's step leave a running command's inputs alone, so it ends alike
(spec/20_memory.md R82; spec/70_reset_and_hazards.md R460, R465, R467). -/

namespace Sys2Proof.Machine

/-- Two states that agree on what a running command reads, and on CUR, make core steps that end alike (R465). -/
theorem coreStep_endAlike {s s' : State} (h : SameInputs s s') (hcur : s.cur = s'.cur) (hb : s.run = .busy)
    (hb' : s'.run = .busy) : EndAlike s s' (coreStep s) (coreStep s') := by
  cases hd : decode s.cur with
  | error e =>
    rw [coreStep_error hb hd, coreStep_error hb' (hcur ▸ hd)]
    exact endAlike_complete _ h.sameEffect
  | ok i =>
    rw [coreStep_ok hb hd, coreStep_ok hb' (hcur ▸ hd)]
    exact commandReadsOnlyItsInputs i s s' h

/-- Reading further changes nothing that a command leaves alone. -/
theorem KeptSampling.sameControl {s t : State} (h : KeptSampling s t) : SameControl s t := by
  rw [h]
  exact ⟨rfl, rfl, rfl, rfl, rfl, rfl, rfl, rfl, rfl, rfl, rfl⟩

theorem KeptSampling.run_eq {s t : State} (h : KeptSampling s t) : t.run = s.run := by rw [h]

/-- Two running core steps that end alike, field by field; a completion gives both the same outcome in STATUS. -/
theorem EndAlike.fields {s s' : State} {o o' : Host.Outcome State Fault Refusal} (h : EndAlike s s' o o')
    (hb : s.run = .busy) (hb' : s'.run = .busy) :
    ∃ t t', o = .next t ∧ o' = .next t' ∧ t'.polys = t.polys ∧ t'.mem = t.mem ∧ t'.scratch = t.scratch ∧
      SameControl s t ∧ SameControl s' t' ∧ t'.run = t.run ∧
      (t.run = .idle → t'.status.done = t.status.done ∧ t'.status.err = t.status.err ∧
        t'.status.errcode = t.status.errcode) := by
  obtain ⟨t, t', ho, ho', hpolys, hmem, hscratch, -, ⟨k, k'⟩ | ⟨c, hc, hc'⟩⟩ := h
  · have hr : t.run = .busy := k.run_eq.trans hb
    exact ⟨t, t', ho, ho', hpolys.symm, hmem.symm, hscratch.symm, k.sameControl, k'.sameControl,
      (k'.run_eq.trans hb').trans hr.symm, fun hi => nomatch hr.symm.trans hi⟩
  · exact ⟨t, t', ho, ho', hpolys.symm, hmem.symm, hscratch.symm, hc.control, hc'.control,
      hc'.idle.trans hc.idle.symm,
      fun _ => ⟨hc'.done.trans hc.done.symm, hc'.err.trans hc.err.symm, hc'.errcode.trans hc.errcode.symm⟩⟩

/-- What a host step keeps, it keeps whatever the schedule says. -/
theorem HostKept.withSched {s t : State} (h : HostKept s t) (l : List Agent) :
    HostKept { s with sched := l } { t with sched := l } := { h with sched := rfl }

/-- While BUSY, any number of host steps before the core's step keep all that the command uses (R460, R467). -/
theorem after_hosts_then_core (n : Nat) : ∀ s : State, s.run = .busy → s.sched = List.replicate n .host ++ [.core] →
    ∃ u, HostKept { s with sched := [] } u ∧ s.after (n + 1) = coreStep u := by
  induction n with
  | zero =>
    intro s hb hs
    refine ⟨_, .refl _, ?_⟩
    rw [after_one, step_core (agent_busy hb .core [] hs), hs]
    rfl
  | succ n ih =>
    intro s hb hs
    have hs' : s.sched = .host :: (List.replicate n .host ++ [.core]) := hs
    have hstep := step_host (agent_busy hb _ _ hs')
    have hk := hostStep_kept (s := { s with sched := s.sched.tail }) hb
    obtain ⟨u, hu, he⟩ := ih _ (hk.run.trans hb) (hk.sched.trans (congrArg List.tail hs'))
    exact ⟨u, (hk.withSched []).trans hu, (after_succ hstep (n + 1)).trans he⟩

/-- Two states that host steps may have made of one state agree on what a running command reads. -/
theorem HostKept.sameInputs {s a b : State} (ha : HostKept s a) (hb : HostKept s b) : SameInputs a b where
  polys := ha.polys.trans hb.polys.symm
  mem := ha.mem.trans hb.mem.symm
  memBytes := ha.memBytes.trans hb.memBytes.symm
  level := ha.level.trans hb.level.symm
  scratch := ha.scratch.trans hb.scratch.symm
  streamTries := ha.streamTries.trans hb.streamTries.symm

/-- Settles O9: with and without the host steps, the core's step starts from the same inputs and so ends alike. -/
theorem schedulerNeverChangesData : Obligations.SchedulerNeverChangesData := by
  intro s n hb
  obtain ⟨a, ha, ea⟩ := after_hosts_then_core 0 { s with sched := [.core] } hb rfl
  obtain ⟨b, hk, eb⟩ := after_hosts_then_core n { s with sched := List.replicate n .host ++ [.core] } hb rfl
  have hba : a.run = .busy := ha.run.trans hb
  have hbb : b.run = .busy := hk.run.trans hb
  obtain ⟨t, u, et, eu, hpolys, hmem, hscratch, ct, cu, hrun, hstatus⟩ :=
    (coreStep_endAlike (ha.sameInputs hk) (ha.cur.trans hk.cur.symm) hba hbb).fields hba hbb
  refine ⟨t, u, ea.trans et, eb.trans eu, hpolys, hmem, ?_, ?_, ?_, ?_, hrun, hscratch, hstatus⟩
  · rw [cu.level, hk.level, ct.level, ha.level]
  · rw [cu.cmd0, hk.cmd0, ct.cmd0, ha.cmd0]
  · rw [cu.cmd1, hk.cmd1, ct.cmd1, ha.cmd1]
  · rw [cu.cmd2, hk.cmd2, ct.cmd2, ha.cmd2]

end Sys2Proof.Machine
end

section
/-! The reset step: from every state to the values of R48, with a held access cut short (spec/70_reset_and_hazards.md
R450-R454). -/

namespace Sys2Proof.Machine

open Sys2Proof.Statement

/-- Cutting an access leaves the host's queue and the schedule alone (log 5). -/
theorem cutAccess_host (s : State) : (cutAccess s).hostQueue = s.hostQueue ∧ (cutAccess s).sched = s.sched := by
  unfold cutAccess
  split <;> exact ⟨rfl, rfl⟩

/-- Only a held CSR read loses its data (R453). -/
theorem cutAccess_csrRdata {s : State} (h : ∀ addr, s.held ≠ some (.csrRead addr)) :
    (cutAccess s).csrRdata = s.csrRdata := by
  unfold cutAccess
  split
  · rfl
  · next addr hh => exact absurd hh (h addr)
  · rfl

/-- Only a held buffer read loses its data (R453). -/
theorem cutAccess_bufRdata {s : State} (h : ∀ i, s.held ≠ some (.bufRead i)) :
    (cutAccess s).bufRdata = s.bufRdata := by
  unfold cutAccess
  split
  · next i hh => exact absurd hh (h i)
  · rfl
  · rfl

/-- Every state resets to the values of R48. -/
theorem isReset_resetStep (s : State) : IsReset (resetStep s) where
  polys := wipeData_poly (cutAccess s)
  memory := fun _ => rfl
  cmd0 := rfl
  cmd1 := rfl
  cmd2 := rfl
  cur := rfl
  level := rfl
  status := rfl
  doneIe := rfl
  idle := rfl
  irq := rfl
  scratch := rfl
  nothingHeld := (cutAccess_held_memBytes s).1

/-- Settles O19: the reset values, and what cutting a held access leaves alone. -/
theorem resetStep_effect : Obligations.ResetStep := by
  intro s rest hs
  obtain ⟨-, hbytes⟩ := cutAccess_held_memBytes { s with sched := s.sched.tail }
  obtain ⟨hqueue, hsched⟩ := cutAccess_host { s with sched := s.sched.tail }
  exact ⟨_, step_reset (agent_reset hs), isReset_resetStep _, hbytes, hqueue, hsched.trans (congrArg List.tail hs),
    cutAccess_csrRdata (s := { s with sched := s.sched.tail }),
    cutAccess_bufRdata (s := { s with sched := s.sched.tail })⟩

end Sys2Proof.Machine
end
